-- ==== Sys2Proof/Word.lean ====
section
/-! DEFINITION. The word types of the block: register widths, the pixel word and the command word. -/

namespace Sys2Proof

/-- A 64-bit command word (rule R96). -/
abbrev CommandWord := BitVec 64

/-- A 24-bit pixel word `{G, R, B}`: green in bits 23..16, red in 15..8, blue in 7..0 (rule R91). -/
abbrev Pixel := BitVec 24

/-- A register of 8 bits read as two's complement (`int8`, rule R8). -/
abbrev Reg8 := BitVec 8

/-- A register of 16 bits read as two's complement (`int16`, rule R8). -/
abbrev Reg16 := BitVec 16

/-- The values an `int8` operand may have: −128..127 (rule R8). -/
abbrev InInt8 (v : Int) : Prop := -128 ≤ v ∧ v ≤ 127

end Sys2Proof
end

