-- ==== Sys2Proof/Config.lean ====
section
/-! DEFINITION. What an implementation fixes: the launch parameters (rules R9, R10, R14), the colour functions and their named
hypotheses (rules R12, R171) and the timing parameters of the wire (rule R11). -/

namespace Sys2Proof

/-- A colour triple, each channel an 8-bit unsigned magnitude (rules R7, R12). -/
structure Rgb where
  r : BitVec 8
  g : BitVec 8
  b : BitVec 8
  deriving DecidableEq, Repr, Inhabited

/-- The scope of the transmit interrupt mask (rule R9). -/
inductive MaskScope where
  | frame
  | pixel
  deriving DecidableEq, Repr

/-- The division of the Encoder read: toward zero, or toward minus infinity (rule R10). -/
inductive GetDiv where
  | trunc
  | floor
  deriving DecidableEq, Repr

/-- The five registers configure writes (rule R152). -/
inductive CfgReg where
  | pos
  | imin
  | imax
  | step
  | wrap
  deriving DecidableEq, Repr

/-- The five registers in the order rule R152 lists them. -/
def CfgReg.all : List CfgReg := [.pos, .imin, .imax, .step, .wrap]

/-- CFG_ORDER (rule R14), a permutation of the five writes, given by picks: which of the writes still to do goes next.
Every permutation is one choice of picks (stated as `Obligations.CfgOrderIsEveryPermutation`). -/
structure CfgOrder where
  first : Fin 5
  second : Fin 4
  third : Fin 3
  fourth : Fin 2
  deriving DecidableEq, Repr

/-- The order the picks give. -/
def CfgOrder.writes (o : CfgOrder) : List CfgReg :=
  let l₁ := CfgReg.all.eraseIdx o.first
  let l₂ := l₁.eraseIdx o.second
  let l₃ := l₂.eraseIdx o.third
  let l₄ := l₃.eraseIdx o.fourth
  [CfgReg.all.getD o.first .pos, l₁.getD o.second .pos, l₂.getD o.third .pos, l₃.getD o.fourth .pos, l₄.getD 0 .pos]

/-- The order in which rule R152 lists the writes. -/
def CfgOrder.listed : CfgOrder := ⟨0, 0, 0, 0⟩

/-- The launch parameters a step reads and none writes (rules R9, R10, R14, R45). -/
structure Params where
  maskScope : MaskScope
  getDiv : GetDiv
  cfgOrder : CfgOrder
  deriving DecidableEq, Repr

/-- The values the spec takes for MASK_SCOPE and GET_DIV (decisions D16 and D8). CFG_ORDER is open (D9): the listed order here
is a DESIGN CHOICE (log 11). -/
def Params.spec : Params := ⟨.frame, .trunc, CfgOrder.listed⟩

/-- `HUE2RGB(h, b)` on its domain, hue 0..48 and brightness 0..15 (rules R12, R171). A free value: nothing is assumed of it
(log 12). -/
opaque Config.hue2rgb : Fin 49 → Fin 16 → Rgb

/-- `WHITE(b)` on its domain, brightness 0..15 (rules R12, R171). A free value: nothing is assumed of it (log 12). -/
opaque Config.white : Fin 16 → Rgb

/-- The reference white of the test vectors, `(b², b², b²)` (rule R171). It is one reading of CP4 and no rule of the block. -/
def Config.whiteRef (b : Fin 16) : Rgb :=
  let v := BitVec.ofNat 8 (b.val * b.val)
  ⟨v, v, v⟩

/-- The three channels of a colour triple. -/
inductive Channel where
  | red
  | green
  | blue
  deriving DecidableEq, Repr

/-- One channel of a colour triple. -/
def Rgb.channel (c : Rgb) : Channel → BitVec 8
  | .red => c.r
  | .green => c.g
  | .blue => c.b

/-- The ramp formula of the hue wheel, which no document gives: the levels of the channel that rises and of the channel that falls, at each
of the 16 steps of a phase and each brightness (rule R171). It is a parameter of the hypotheses CP1 to CP3 (log 12). -/
structure Ramp where
  rising : Fin 16 → Fin 16 → Nat
  falling : Fin 16 → Fin 16 → Nat
  deriving Inhabited

/-- The hue at a step of a phase: 3 phases of 16 steps are the hues 0 to 47 (rule R171). -/
def Config.wheelHue (phase : Fin 3) (step : Fin 16) : Fin 49 := ⟨16 * phase.val + step.val, by omega⟩

/-- The phases cover the domain of the hue properties (rule R171, conflict C2). -/
theorem Config.eq_wheelHue {h : Fin 49} (hh : h.val ≤ 47) : ∃ phase step, h = Config.wheelHue phase step :=
  ⟨⟨h.val / 16, by omega⟩, ⟨h.val % 16, by omega⟩, Fin.ext (Nat.div_add_mod h.val 16).symm⟩

/-- A hue function that goes round the wheel by this ramp: each phase starts at one of three channels, which falls in it, while the channel
the next phase starts at rises and the third is at zero (the wheel of CP1, rule R171; the order is DEDUCED, log 12). -/
def Config.FollowsRamp (hue : Fin 49 → Fin 16 → Rgb) (ramp : Ramp) : Prop :=
  ∃ start : Fin 3 → Channel, start.Injective ∧ ∀ (phase : Fin 3) (step b : Fin 16),
    ((hue (Config.wheelHue phase step) b).channel (start phase)).toNat = ramp.falling step b ∧
    ((hue (Config.wheelHue phase step) b).channel (start (phase + 1))).toNat = ramp.rising step b ∧
    (hue (Config.wheelHue phase step) b).channel (start (phase + 2)) = 0

/-- A linear ramp: at each brightness the rising level is a line that rises with the step and the falling level a line that falls with it,
each of rational slope and rounded down to an integer (CP1 of rule R171; the rounding is DEDUCED, log 12). -/
def Ramp.Linear (ramp : Ramp) : Prop :=
  ∀ b : Fin 16, ∃ unit base up top down : Nat, 0 < unit ∧ 0 < up ∧ 0 < down ∧ 15 * down ≤ top ∧
    ∀ step : Fin 16, ramp.rising step b = (base + up * step.val) / unit ∧ ramp.falling step b = (top - down * step.val) / unit

/-- A ramp the brightness attenuates: the levels of one full ramp times a factor below 1 raised to an exponent, rounded down, where a higher
brightness has a smaller exponent (CP2 of rule R171; the power is DEDUCED, log 12). -/
def Ramp.Attenuated (ramp : Ramp) : Prop :=
  ∃ (num den : Nat) (exponent : Fin 16 → Nat) (fullRising fullFalling : Fin 16 → Nat), 0 < num ∧ num < den ∧
    (∀ b b' : Fin 16, b < b' → exponent b' < exponent b) ∧
    ∀ step b : Fin 16, ramp.rising step b = fullRising step * num ^ exponent b / den ^ exponent b ∧
      ramp.falling step b = fullFalling step * num ^ exponent b / den ^ exponent b

/-- CP1 (rule R171), a named hypothesis on a hue function and its ramp formula: "hue is divided into 3 phases of 16 steps each producing a
linear ramp between two of the three channels with the third at zero". -/
def Config.CP1 (hue : Fin 49 → Fin 16 → Rgb) (ramp : Ramp) : Prop := Config.FollowsRamp hue ramp ∧ ramp.Linear

/-- CP2 (rule R171), a named hypothesis on a hue function and its ramp formula: "brightness compresses the ramp's dynamic range (higher
'bright' index ⇒ smaller attenuation exponent)". -/
def Config.CP2 (hue : Fin 49 → Fin 16 → Rgb) (ramp : Ramp) : Prop := Config.FollowsRamp hue ramp ∧ ramp.Attenuated

/-- CP3 (rule R171), a named hypothesis on a hue function and its ramp formula: for hue 0..47 exactly one channel is at zero and the other two
sum to what the ramp formula gives them together; the third adds nothing to the sum. -/
def Config.CP3 (hue : Fin 49 → Fin 16 → Rgb) (ramp : Ramp) : Prop :=
  ∀ (phase : Fin 3) (step b : Fin 16) (c : Rgb), c = hue (Config.wheelHue phase step) b →
    (∃ zero, c.channel zero = 0 ∧ ∀ other, c.channel other = 0 → other = zero) ∧
    c.r.toNat + c.g.toNat + c.b.toNat = ramp.rising step b + ramp.falling step b

/-- CP4 (rule R171), a named hypothesis on a white function: equal channels, and the common level is the brightness squared, by a constant
factor and rounded down (the factor and the rounding are DEDUCED, log 12). -/
def Config.CP4 (white : Fin 16 → Rgb) : Prop :=
  (∀ b, (white b).r = (white b).g ∧ (white b).g = (white b).b) ∧
  ∃ num den : Nat, 0 < num ∧ 0 < den ∧ ∀ b : Fin 16, (white b).r.toNat = num * b.val ^ 2 / den

/-- CP5 (rule R171), a named hypothesis on a white function: non-decreasing in the brightness. -/
def Config.CP5 (white : Fin 16 → Rgb) : Prop :=
  ∀ b b' : Fin 16, b ≤ b' → ∀ c, (white b).channel c ≤ (white b').channel c

/-- The timing parameters of rule R11, in one unit of time no document names. The three bit times are held as the positive lengths
between them, so that no value breaks the rule's constraint; `latch` is the shortest silence that latches, `debounce` and `idle` the other
two delays, and each delay takes a positive time (rule R187). -/
structure Timing where
  /-- The high time of a `0`. -/
  high0 : ℕ+
  /-- How much longer a `1` is high. -/
  longer : ℕ+
  /-- The low time of a `1`. -/
  low1 : ℕ+
  /-- T_LATCH. -/
  latch : ℕ+
  /-- T_DEB. -/
  debounce : ℕ+
  /-- T_IDLE. -/
  idle : ℕ+
  deriving DecidableEq, Repr, Inhabited

/-- T_0H (rule R11). -/
def Timing.t0H (t : Timing) : Nat := t.high0

/-- T_1H (rule R11). -/
def Timing.t1H (t : Timing) : Nat := t.t0H + t.longer

/-- T_BIT, one period for both bit values (rule R11, conflict C1). -/
def Timing.tBit (t : Timing) : Nat := t.t1H + t.low1

/-- The constraint rule R11 puts on the bit times: `0 < T_0H < T_1H < T_BIT`. -/
theorem Timing.bounds (t : Timing) : 0 < t.t0H ∧ t.t0H < t.t1H ∧ t.t1H < t.tBit := by
  have h₀ := t.high0.pos
  have h₁ := t.longer.pos
  have h₂ := t.low1.pos
  unfold Timing.tBit Timing.t1H Timing.t0H
  omega

/-- Each delay takes a positive time (rule R187). -/
theorem Timing.delays_pos (t : Timing) : 0 < (t.latch : Nat) ∧ 0 < (t.debounce : Nat) ∧ 0 < (t.idle : Nat) :=
  ⟨t.latch.pos, t.debounce.pos, t.idle.pos⟩

/-- The timing of the block. A free value: no document gives it and no step reads it; it meets `Timing.bounds` and `Timing.delays_pos` as
every timing does (log 13). -/
opaque Config.timing : Timing

end Sys2Proof
end

