-- ==== Sys2Proof/Syntax.lean ====
section
/-! DEFINITION. The operations of the block, one constructor per row of the operation map (rule R102). -/

namespace Sys2Proof

/-- The operation set (rule R102). Operands are the fields of rule R103: an index of `FB`, a pixel word, `int8` arguments read
as integers, and levels. -/
inductive Instr where
  /-- PL.LOAD (R123). -/
  | plLoad (idx : Fin 8) (pixel : Pixel)
  /-- PL.TX (R124). -/
  | plTx
  /-- PL.LATCH (R125). -/
  | plLatch
  /-- ENC.EDGE (R142). -/
  | encEdge
  /-- ENC.GET (R151). -/
  | encGet
  /-- ENC.CFG (R152): `MIN`, `MAX`, `STEP`, `INIT`, each an `int8` value, and the wrap flag `W`. -/
  | encCfg (min max step init : Int) (wrap : Bool)
  /-- CTL.RAIL (R173). -/
  | ctlRail (level : Bool)
  /-- CTL.ADV (R174). -/
  | ctlAdv
  /-- CTL.ENTRY (R175). -/
  | ctlEntry
  /-- CTL.TICK (R180). -/
  | ctlTick
  /-- SYS.CLI (R211). -/
  | sysCli
  /-- SYS.SEI (R212). -/
  | sysSei
  /-- ENV.PINS (R213). -/
  | envPins (a b : Bool)
  /-- ENV.BTN (R214). -/
  | envBtn (level : Bool)
  deriving DecidableEq, Repr

end Sys2Proof
end

