-- ==== Sys2Proof/WellFormed.lean ====
section
/-! DEFINITION. Which operations a command word can spell: every operand of a configure is an `int8` (rules R99, R104). -/

namespace Sys2Proof

/-- An operation whose operands fit their fields. The other operands fit by their types (rule R104). -/
def Instr.wellFormed : Instr → Bool
  | .encCfg min max step init _ => decide (InInt8 min) && decide (InInt8 max) && decide (InInt8 step) && decide (InInt8 init)
  | .plLoad _ _ => true
  | .plTx => true
  | .plLatch => true
  | .encEdge => true
  | .encGet => true
  | .ctlRail _ => true
  | .ctlAdv => true
  | .ctlEntry => true
  | .ctlTick => true
  | .sysCli => true
  | .sysSei => true
  | .envPins _ _ => true
  | .envBtn _ => true

end Sys2Proof
end

