-- ==== Sys2Proof/Decode.lean ====
section
/-! DEFINITION. Command words: the operation map of rule R102, the decoder (total on 64-bit words) and the encoder. -/

namespace Sys2Proof

/-- The two verdicts on a word that spells no operation (rules R105, R106). -/
inductive Invalid where
  /-- `w[63:56]` is no opcode of the operation map (R105). -/
  | illegalOpcode
  /-- The opcode is known, a reserved bit is set (R106). -/
  | reservedBits
  deriving DecidableEq, Repr

/-- The code of a refusal reason (rule R222). -/
def Invalid.code : Invalid → Nat
  | .illegalOpcode => 16
  | .reservedBits => 17

/-- The rows of the operation map (rule R102). -/
inductive Op where
  | plLoad | plTx | plLatch | encEdge | encGet | encCfg | ctlRail | ctlAdv | ctlEntry | ctlTick | sysCli | sysSei | envPins | envBtn
  deriving DecidableEq, Repr

/-- The rows in the order of the map. -/
def Op.all : List Op :=
  [.plLoad, .plTx, .plLatch, .encEdge, .encGet, .encCfg, .ctlRail, .ctlAdv, .ctlEntry, .ctlTick, .sysCli, .sysSei, .envPins,
    .envBtn]

/-- The five operand formats (rules R97 to R101). -/
inductive Format where
  | n | pix | cfg | pin | lvl
  deriving DecidableEq, Repr

/-- The opcode of a row, bits 63..56 (rule R102). -/
def Op.opcode : Op → BitVec 8
  | .plLoad => 0x11
  | .plTx => 0x12
  | .plLatch => 0x13
  | .encEdge => 0x21
  | .encGet => 0x22
  | .encCfg => 0x23
  | .ctlRail => 0x31
  | .ctlAdv => 0x32
  | .ctlEntry => 0x33
  | .ctlTick => 0x34
  | .sysCli => 0x41
  | .sysSei => 0x42
  | .envPins => 0xE1
  | .envBtn => 0xE2

/-- The format of a row (rule R102). -/
def Op.format : Op → Format
  | .plLoad => .pix
  | .encCfg => .cfg
  | .ctlRail => .lvl
  | .envPins => .pin
  | .envBtn => .lvl
  | .plTx => .n
  | .plLatch => .n
  | .encEdge => .n
  | .encGet => .n
  | .ctlAdv => .n
  | .ctlEntry => .n
  | .ctlTick => .n
  | .sysCli => .n
  | .sysSei => .n

/-- The bits the decoder checks: the opcode and the reserved bits of the format (rule R102). -/
def Format.mask : Format → CommandWord
  | .n => 0xFFFFFFFFFFFFFFFF
  | .pix => 0xFFF8FFFFFF000000
  | .cfg => 0xFFFFFFFE00000000
  | .pin => 0xFFFFFFFFFFFFFFFC
  | .lvl => 0xFFFFFFFFFFFFFFFE

/-- The row's word with every operand field 0 (rule R102). -/
def Op.pattern (o : Op) : CommandWord := o.opcode ++ 0#56

/-- `(w AND mask) == match` (rule R102). -/
def Op.accepts (o : Op) (w : CommandWord) : Bool := w &&& o.format.mask == o.pattern

/-- The opcode field of a word (rule R96). -/
def opcodeOf (w : CommandWord) : BitVec 8 := w.extractLsb' 56 8

/-- An `int8` field of a word, read as two's complement (rule R103). -/
def int8Field (w : CommandWord) (low : Nat) : Int := (w.extractLsb' low 8).toInt

/-- The row's operation with the operands of the word (rule R103). -/
def Op.assemble (o : Op) (w : CommandWord) : Instr :=
  match o with
  | .plLoad => .plLoad (w.extractLsb' 48 3).toFin (w.extractLsb' 0 24)
  | .plTx => .plTx
  | .plLatch => .plLatch
  | .encEdge => .encEdge
  | .encGet => .encGet
  | .encCfg => .encCfg (int8Field w 24) (int8Field w 16) (int8Field w 8) (int8Field w 0) (w.getLsbD 32)
  | .ctlRail => .ctlRail (w.getLsbD 0)
  | .ctlAdv => .ctlAdv
  | .ctlEntry => .ctlEntry
  | .ctlTick => .ctlTick
  | .sysCli => .sysCli
  | .sysSei => .sysSei
  | .envPins => .envPins (w.getLsbD 1) (w.getLsbD 0)
  | .envBtn => .envBtn (w.getLsbD 0)

/-- The decoder (rules R102, R105, R106): every word is one operation or one verdict. -/
def decode (w : CommandWord) : Except Invalid Instr :=
  match Op.all.find? fun o => o.opcode == opcodeOf w with
  | none => .error .illegalOpcode
  | some o => if o.accepts w then .ok (o.assemble w) else .error .reservedBits

/-- A level as one bit. -/
def levelBit (v : Bool) : BitVec 1 := BitVec.ofBool v

/-- A word of format N (rule R97). -/
def wordN (o : Op) : CommandWord := o.opcode ++ 0#56

/-- A word of format PIX (rule R98). -/
def wordPix (o : Op) (idx : BitVec 3) (pixel : Pixel) : CommandWord := o.opcode ++ 0#5 ++ idx ++ 0#24 ++ pixel

/-- A word of format CFG (rule R99); the arguments are the low 8 bits of their two's complement (rule R108). -/
def wordCfg (o : Op) (min max step init : Int) (wrap : Bool) : CommandWord :=
  o.opcode ++ 0#23 ++ levelBit wrap ++ BitVec.ofInt 8 min ++ BitVec.ofInt 8 max ++ BitVec.ofInt 8 step ++ BitVec.ofInt 8 init

/-- A word of format PIN (rule R100). -/
def wordPin (o : Op) (a b : Bool) : CommandWord := o.opcode ++ 0#54 ++ levelBit a ++ levelBit b

/-- A word of format LVL (rule R101). -/
def wordLvl (o : Op) (v : Bool) : CommandWord := o.opcode ++ 0#55 ++ levelBit v

/-- The row of an operation (rule R102). -/
def Instr.op : Instr → Op
  | .plLoad _ _ => .plLoad
  | .plTx => .plTx
  | .plLatch => .plLatch
  | .encEdge => .encEdge
  | .encGet => .encGet
  | .encCfg _ _ _ _ _ => .encCfg
  | .ctlRail _ => .ctlRail
  | .ctlAdv => .ctlAdv
  | .ctlEntry => .ctlEntry
  | .ctlTick => .ctlTick
  | .sysCli => .sysCli
  | .sysSei => .sysSei
  | .envPins _ _ => .envPins
  | .envBtn _ => .envBtn

/-- The encoder (rules R97 to R101, R108). -/
def encode : Instr → CommandWord
  | .plLoad idx pixel => wordPix .plLoad (BitVec.ofFin idx) pixel
  | .encCfg min max step init wrap => wordCfg .encCfg min max step init wrap
  | .ctlRail v => wordLvl .ctlRail v
  | .envPins a b => wordPin .envPins a b
  | .envBtn v => wordLvl .envBtn v
  | .plTx => wordN .plTx
  | .plLatch => wordN .plLatch
  | .encEdge => wordN .encEdge
  | .encGet => wordN .encGet
  | .ctlAdv => wordN .ctlAdv
  | .ctlEntry => wordN .ctlEntry
  | .ctlTick => wordN .ctlTick
  | .sysCli => wordN .sysCli
  | .sysSei => wordN .sysSei

/-- The command word given by the low `nbits` bits of a number, numbered as the opcode table numbers them; the bits above are
0 (log 28). -/
def tableWord (nbits w : Nat) : CommandWord := BitVec.ofNat 64 (w % 2 ^ nbits)

/-- What the decoder reads from an opcode-table word, `none` where it refuses. -/
def decodeTableWord (nbits w : Nat) : Option Instr := (decode (tableWord nbits w)).toOption

end Sys2Proof
end

