-- ==== Sys2Proof/Machine/State.lean ====
section
/-! DEFINITION. The state of the block as plain data (spec file 10_state.md), the reasons a step stops, and the state after
power-on. -/

namespace Sys2Proof.Machine

/-- The Controller state (rule R29). -/
inductive AppState where
  | off
  | white
  | animate
  | solid
  deriving DecidableEq, Repr

/-- The 2-bit code of a Controller state (rules R29, R95). -/
def AppState.code : AppState → BitVec 2
  | .off => 0
  | .white => 1
  | .animate => 2
  | .solid => 3

/-- The Controller state of a 2-bit code; every code is legal (rule R29). -/
def AppState.ofCode (c : BitVec 2) : AppState :=
  if c = 0 then .off else if c = 1 then .white else if c = 2 then .animate else .solid

/-- A symbol of the wire trace (rules R37, R121); `gap` is the marker of rule R127. -/
inductive Symbol where
  | bit0
  | bit1
  | latch
  | gap
  deriving DecidableEq, Repr

/-- A value of SEQ (rule R40): a point of the main loop (rule R185), or the index of the next word of a script (rule R217). -/
inductive Point where
  | boot
  | entry
  | poll
  | tick
  | deb1
  | wrel
  | deb2
  | adv
  | word (k : Nat)
  deriving DecidableEq, Repr

/-- The kinds of fault (rule R221). -/
inductive FaultKind where
  /-- PL.TX with `LOWED = 1` (R124). -/
  | latchMissing
  /-- PL.TX with an entry of `FB` never written (R124). -/
  | unwrittenFrame
  /-- A tick about to pass a colour function an argument outside its domain (R193). -/
  | colourDomain
  deriving DecidableEq, Repr

/-- The code of a fault kind (rule R221). -/
def FaultKind.code : FaultKind → Nat
  | .latchMissing => 1
  | .unwrittenFrame => 2
  | .colourDomain => 3

/-- One move of the agents other than main context at a scheduling point (rules R215, R231): the environment sets the lines or
the button, or the interrupt context takes its turn if it has one. -/
inductive Move where
  | pins (a b : Bool)
  | btn (level : Bool)
  | handler
  deriving DecidableEq, Repr

/-- Main context's position inside the operation it runs (rules R227, R228): the preemption points of rule R226 that lie inside an
operation, each with what the operation has still to do from there (log 30). -/
inductive Place where
  /-- Between two operations. -/
  | between
  /-- Between two writes of ENC.CFG: the writes still to do and the operands (R152). -/
  | configuring (todo : List CfgReg) (min max step init : Int) (wrap : Bool)
  /-- In ENTRY_WHITE, after CTL.RAIL and before ENC.CFG (R177). -/
  | whiteRail
  /-- In a tick, after ENC.GET, which returned this value (R182 to R184). -/
  | read (value : Reg8)
  /-- In TICK_ANIMATE's `delay(IDLE)` (R183). -/
  | idling
  /-- In SHOW, before a PL.LOAD: the loads still to do (R172). -/
  | loading (todo : List (Fin 8 × Pixel))
  /-- In SHOW, after the loads and before PL.TX (R172). -/
  | loaded
  /-- In PL.TX, before a bit step that is not the first of its masked run: the bits and the pixels still to send, the saved IE, and
  whether SHOW called (R124, R127). -/
  | sending (bits : List Bool) (later : List Pixel) (saved shown : Bool)
  /-- In PL.TX under MASK_SCOPE = PIXEL, between two pixels: whether a handler has run here, the pixels still to send, and whether SHOW
  called (R127). -/
  | gap (ran : Bool) (later : List Pixel) (shown : Bool)
  /-- In SHOW, after PL.TX and before PL.LATCH (R172). -/
  | sent
  /-- In PL.LATCH's `delay(LATCH)` (R125). -/
  | latching
  deriving DecidableEq, Repr

/-- Whose turn the next step is at the pace of single turns: the block's own, where an enabled dispatch goes before main context, or
a step of the environment (rules R215, R225; log 31). -/
inductive Turn where
  | own
  | pins (a b : Bool)
  | btn (level : Bool)
  deriving DecidableEq, Repr

/-- The whole state. The fields up to `program` are the registers, inputs, observations and records of rules R21 to R44 and
the script of rule R217; `displayed` is the observation of rule R129; `params` holds the launch parameters (rule R45, log 10);
`place` is main context's position inside an operation (rule R228). `sched` and `turns` are the model's own: the moves the other agents
make at the coming scheduling points (log 3), and the pace of the steps (log 31). -/
structure State where
  /-- POS, `int16` (R21). -/
  pos : Reg16
  /-- STEP, `int8` (R22). -/
  encStep : Reg8
  /-- IMIN, `int16` (R23). -/
  imin : Reg16
  /-- IMAX, `int16` (R23). -/
  imax : Reg16
  /-- WRAP (R24). -/
  wrap : Bool
  /-- LA (R25). -/
  la : Bool
  /-- LB (R25). -/
  lb : Bool
  /-- LEQ (R26). -/
  leq : Bool
  /-- STATE (R29). -/
  state : AppState
  /-- BRIGHT, `int8` (R30). -/
  bright : Reg8
  /-- HUE, `int8` (R31). -/
  hue : Reg8
  /-- APHASE, 0..47 (R32). -/
  aphase : Fin 48
  /-- ACNT, `u8` (R33). -/
  acnt : BitVec 8
  /-- RAIL (R34). -/
  rail : Bool
  /-- FB (R35). -/
  fb : Vector Pixel 8
  /-- FBW (R35). -/
  fbw : Vector Bool 8
  /-- DOUT (R36). -/
  dout : Bool
  /-- WIRE, oldest symbol first (R37). -/
  wire : List Symbol
  /-- LOWED (R38). -/
  lowed : Bool
  /-- IE (R39). -/
  ie : Bool
  /-- SEQ (R40). -/
  seq : Point
  /-- IPEND (R41). -/
  ipend : Bool
  /-- PIN_A (R42). -/
  pinA : Bool
  /-- PIN_B (R42). -/
  pinB : Bool
  /-- PIN_BTN, true when pressed (R42). -/
  pinBtn : Bool
  /-- READS, oldest first (R43). -/
  reads : List Reg8
  /-- FAULTS, a set of kinds with their sites (R44, R221). -/
  faults : List (FaultKind × Point)
  /-- REFUSED, `none` for 0 (R44, R222). -/
  refused : Option (Invalid × Point)
  /-- The script P (R107, R217). -/
  program : List CommandWord
  /-- DISPLAYED, `none` where it is unspecified (R129). -/
  displayed : Option (List Pixel)
  /-- MASK_SCOPE, GET_DIV and CFG_ORDER (R9, R10, R14). -/
  params : Params
  /-- One batch of moves for each coming scheduling point of autonomous mode (R215). -/
  sched : List (List Move)
  /-- Main context's position inside its operation (R227, R228). -/
  place : Place
  /-- The pace: `none` where a step is a whole operation, else the turns that the coming steps take, own turns after the last. -/
  turns : Option (List Turn)
  deriving DecidableEq, Repr

/-- Why a machine stops with a fault. Each is safe: the spec gives no agent a step there. -/
inductive Fault where
  /-- Raised by `step` at a state whose FAULTS holds LatchMissing: the state is quiescent (R221). Safe. -/
  | latchMissing
  /-- Raised by `step` at a state whose FAULTS holds UnwrittenFrame: the state is quiescent (R221). Safe. -/
  | unwrittenFrame
  /-- Raised by `step` at a state whose FAULTS holds ColourDomain: the state is quiescent (R221). Safe. -/
  | colourDomain
  /-- Raised by `execCtlTick`, and so by `step` in script mode, when the OFF wait finds the button released: main context has no
  step (R181, R217, I19). In autonomous mode `step` waits instead. Safe. -/
  | stuckInWait
  /-- Raised by `step` when a script has no next word and no handler is pending: the run has ended (R218). Safe. -/
  | scriptEnded
  deriving DecidableEq, Repr

/-- The fault `step` answers at a state that records this kind. -/
def FaultKind.fault : FaultKind → Fault
  | .latchMissing => .latchMissing
  | .unwrittenFrame => .unwrittenFrame
  | .colourDomain => .colourDomain

/-- Why a machine refuses. Each is safe: the spec gives no agent a step there. -/
inductive Refusal where
  /-- An instruction that has no meaning yet; only an arm of `exec` may answer it. Safe. -/
  | notModelled (mnemonic : String)
  /-- Raised by `step` at a state whose REFUSED holds IllegalOpcode (R105, R222). Safe. -/
  | illegalOpcode
  /-- Raised by `step` at a state whose REFUSED holds ReservedBits (R106, R222). Safe. -/
  | reservedBits
  deriving DecidableEq, Repr

/-- The refusal `step` answers at a state that records this verdict. -/
def refusalOf : Invalid → Refusal
  | .illegalOpcode => .illegalOpcode
  | .reservedBits => .reservedBits

/-- What the spec leaves to the launch (rules R13, R35, R42): the Encoder's registers and edge history, the frame buffer's
unspecified words, and the input levels. -/
structure Draws where
  pos : Reg16
  encStep : Reg8
  imin : Reg16
  imax : Reg16
  wrap : Bool
  la : Bool
  lb : Bool
  leq : Bool
  fb : Vector Pixel 8
  pinA : Bool
  pinB : Bool
  pinBtn : Bool
  deriving DecidableEq, Repr

/-- An internal position or bound that configure can write: −256..254 (rules R21, R153). -/
abbrev InRange (v : Reg16) : Prop := -256 ≤ v.toInt ∧ v.toInt ≤ 254

/-- An internal bound: in range and even (rule R23). -/
abbrev IsBound (v : Reg16) : Prop := InRange v ∧ v.toInt % 2 = 0

/-- The draws the spec admits (rules R21, R23, R46). -/
abbrev Draws.legal (d : Draws) : Prop := InRange d.pos ∧ IsBound d.imin ∧ IsBound d.imax

/-- The draw `State.reset` names: zeros (DESIGN CHOICE, logs 7, 8 and 9). -/
def Draws.zero : Draws :=
  ⟨0, 0, 0, 0, false, false, false, false, Vector.replicate 8 0, false, false, false⟩

/-- The power-on state of rule R46, for given draws, parameters, IE, SEQ, script and schedule. -/
@[simps] def State.powerOn (d : Draws) (p : Params) (ie : Bool) (seq : Point) (program : List CommandWord) (sched : List (List Move)) :
    State where
  pos := d.pos
  encStep := d.encStep
  imin := d.imin
  imax := d.imax
  wrap := d.wrap
  la := d.la
  lb := d.lb
  leq := d.leq
  state := .off
  bright := 5
  hue := 0
  aphase := 0
  acnt := 0
  rail := false
  fb := d.fb
  fbw := Vector.replicate 8 false
  dout := false
  wire := []
  lowed := false
  ie := ie
  seq := seq
  ipend := false
  pinA := d.pinA
  pinB := d.pinB
  pinBtn := d.pinBtn
  reads := []
  faults := []
  refused := none
  program := program
  displayed := none
  params := p
  sched := sched
  place := .between
  turns := none

/-- An autonomous launch: SEQ is BOOT (rules R40, R252); IE is 0 until BOOT sets it (log 6). -/
def State.launch (d : Draws) (p : Params) (sched : List (List Move)) : State :=
  State.powerOn d p false .boot [] sched

/-- A script's launch: SEQ = 0, IE = 1 (rule R254). -/
def State.launchScript (d : Draws) (p : Params) (program : List CommandWord) : State :=
  State.powerOn d p true (.word 0) program []

/-- The machine right after power-on (rules R46, R250), in autonomous mode, with the draws, the write order and the schedule the
log names (logs 3, 5 to 9 and 11), at the pace of whole operations (log 31). -/
def State.reset : State := State.launch Draws.zero Params.spec []

end Sys2Proof.Machine
end

