-- ==== Sys2Proof/Machine/Operands.lean ====
section
/-! DEFINITION. Operand forms and value computations: the halving of the read, the bounding, the edge delta, the pixel word and its
bits, the colour arguments, and the display observation. Nothing here changes state. -/

namespace Sys2Proof.Machine

/-- The Encoder's halving (rules R10, R151). -/
def div2 (d : GetDiv) (v : Int) : Int :=
  match d with
  | .trunc => v.tdiv 2
  | .floor => v.fdiv 2

/-- `BOUND(p)` (rules R147, R158): the tests stand in the rule's order. -/
def bound (imin imax : Int) (wrap : Bool) (p : Int) : Int :=
  if imax < p then (if wrap then imin else imax)
  else if p < imin then (if wrap then imax else imin)
  else p

/-- The sum of the deltas of a confirmed step with parity `eq`: `-STEP` on equal lines, `+STEP` otherwise, twice when the parity
flipped (rules R144, R145). -/
def stepDelta (step : Int) (eq leq : Bool) : Int :=
  let d := if eq then -step else step
  if eq != leq then d + d else d

/-- POS after a confirmed step with parity `eq`: exact integer arithmetic, then one BOUND (rules R15, R142, R147; log 18). -/
def steppedPos (s : State) (eq : Bool) : Reg16 :=
  BitVec.ofInt 16 (bound s.imin.toInt s.imax.toInt s.wrap (s.pos.toInt + stepDelta s.encStep.toInt eq s.leq))

/-- A configure argument at internal scale (rules R23, R152). -/
def doubled (v : Int) : Reg16 := BitVec.ofInt 16 (2 * v)

/-- `pixel_word(r, g, b) = {g, r, b}` (rule R91). -/
def pixelWord (c : Rgb) : Pixel := c.g ++ c.r ++ c.b

/-- The bits of a pixel word in wire order, bit 23 first (rules R72, R93). -/
def pixelBits (w : Pixel) : List Bool := (List.range 24).map fun j => w.getLsbD (23 - j)

/-- The bits of a frame in wire order, `FB[0]` first (rule R93). -/
def frameBits (fb : Vector Pixel 8) : List Bool := fb.toList.flatMap pixelBits

/-- The wire symbol of a bit (rule R124). -/
def bitSymbol (b : Bool) : Symbol := if b then .bit1 else .bit0

/-- The levels a symbol drives on the data line with how long each holds, for given times (rules R92, R121); a latch holds at least
this long, the gap marker drives nothing. The block's own times are `Config.timing`. -/
def waveform (t : Timing) : Symbol → List (Bool × Nat)
  | .bit1 => [(true, t.t1H), (false, t.tBit - t.t1H)]
  | .bit0 => [(true, t.t0H), (false, t.tBit - t.t0H)]
  | .latch => [(false, t.latch)]
  | .gap => []

/-- BRIGHT as an argument of a colour function, when it is in 0..15 (rule R193). -/
def brightArg (b : Reg8) : Option (Fin 16) :=
  if h : 0 ≤ b.toInt ∧ b.toInt ≤ 15 then some ⟨b.toInt.toNat, by omega⟩ else none

/-- HUE as an argument of a colour function, when it is in 0..48 (rule R193). -/
def hueArg (h : Reg8) : Option (Fin 49) :=
  if h' : 0 ≤ h.toInt ∧ h.toInt ≤ 48 then some ⟨h.toInt.toNat, by omega⟩ else none

/-- The hue of pixel `i` in ANIMATE: `(APHASE + 6i) mod 48` (rule R183). -/
def animateHue (aphase : Fin 48) (i : Fin 8) : Fin 49 := ⟨(aphase.val + 6 * i.val) % 48, by omega⟩

/-- The next animation phase: `(APHASE + 1) mod 48` (rule R183). -/
def nextPhase (aphase : Fin 48) : Fin 48 := ⟨(aphase.val + 1) % 48, by omega⟩

/-- What a tick does after it has stored what it read: record ColourDomain, idle, or show a frame (rules R182 to R184). -/
inductive TickEnd where
  | outOfDomain
  | idle
  | shows (pix : Fin 8 → Rgb)

/-- The eight indices of the frame buffer. -/
def pixelIndices : List (Fin 8) := [0, 1, 2, 3, 4, 5, 6, 7]

/-- The next Controller state: `(STATE + 1) mod 4` (rules R95, R174). -/
def AppState.next (a : AppState) : AppState := AppState.ofCode (a.code + 1)

/-- The symbols since the last latch (or since power-on) of a trace (rule R129). -/
def segment (wire : List Symbol) : List Symbol := (wire.reverse.takeWhile fun x => x != .latch).reverse

/-- The pixel word that up to 24 bit symbols spell, the first symbol most significant (rule R129). -/
def pixelOf (symbols : List Symbol) : Pixel :=
  symbols.foldl (fun acc x => (acc <<< 1) ||| (if x = .bit1 then 1 else 0)) 0

/-- The eight pixel words of a segment that is exactly 192 bit symbols (rule R129). -/
def frameOf (seg : List Symbol) : Option (List Pixel) :=
  if seg.length = 192 ∧ ∀ x ∈ seg, x = .bit0 ∨ x = .bit1 then
    some ((List.range 8).map fun i => pixelOf ((seg.drop (24 * i)).take 24))
  else none

/-- DISPLAYED after a latch that ends a segment (rule R129). -/
def displayAtLatch (rail : Bool) (seg : List Symbol) (old : Option (List Pixel)) : Option (List Pixel) :=
  if !rail then none else if seg = [] then old else frameOf seg

end Sys2Proof.Machine
end

