-- ==== Sys2Proof/Machine/Flags.lean ====
section
/-! DEFINITION. The block's only flags, IE and IPEND (rule R49): their writes and the dispatch condition. -/

namespace Sys2Proof.Machine

/-- `IE <- v` (rules R39, R211, R212). -/
@[simps] def setIe (v : Bool) (s : State) : State := { s with ie := v }

/-- IPEND after the lines go to `(a, b)`: a change of either line sets it, nothing here clears it (rules R41, R213, R223). -/
def pendingAfter (a b : Bool) (s : State) : Bool := s.ipend || (a != s.pinA || b != s.pinB)

/-- The dispatch condition at a preemption point: `IE = 1` and `IPEND = 1` (rule R225). -/
def dispatchEnabled (s : State) : Bool := s.ie && s.ipend

end Sys2Proof.Machine
end

