-- ==== Sys2Proof/Machine/Ops.lean ====
section
/-! DEFINITION. The shared operations: the edge handler, the environment's moves, taking the interrupt and returning from it,
preemption points, wire symbols, fault and refusal records, and the placing of a script's word. -/

namespace Sys2Proof.Machine

/-- `sample()`: both lines at one instant (rule R141). -/
def sample (s : State) : Bool × Bool := (s.pinA, s.pinB)

/-- The edge handler `onEdge()` (rules R142 to R149), one atomic step (rule R77). -/
def edge (s : State) : State :=
  let (a, b) := sample s
  if a = s.la then s
  else if b = s.lb then { s with la := a }
  else { s with la := a, lb := b, leq := a == b, pos := steppedPos s (a == b) }

/-- The environment sets the quadrature lines (rule R213). -/
@[simps] def setPins (a b : Bool) (s : State) : State := { s with ipend := pendingAfter a b s, pinA := a, pinB := b }

/-- The environment sets the button level (rule R214). -/
@[simps] def setBtn (v : Bool) (s : State) : State := { s with pinBtn := v }

/-- Interrupt entry up to the handler: `IPEND <- 0`, `IE <- 0` (rule R227). -/
@[simps] def enterHandler (s : State) : State := { s with ipend := false, ie := false }

/-- Interrupt return: IE is restored to the value saved at entry, main context's point is untouched (rule R228). -/
@[simps] def returnFromHandler (savedIe : Bool) (s : State) : State := { s with ie := savedIe }

/-- The whole dispatch step: entry, the handler, return, atomically (rules R77, R227, R228). -/
def takeInterrupt (s : State) : State := returnFromHandler s.ie (edge (enterHandler s))

/-- One move of another agent; the flag says whether a handler has run (rules R215, R225, R231). -/
def applyMove (x : State × Bool) (m : Move) : State × Bool :=
  match m with
  | .pins a b => (setPins a b x.1, x.2)
  | .btn v => (setBtn v x.1, x.2)
  | .handler => if dispatchEnabled x.1 then (takeInterrupt x.1, true) else x

/-- The moves of the other agents at one scheduling point: the next batch of the schedule in autonomous mode (rule R215), none in
script mode, where the environment moves at ENV words only (rule R217). -/
def othersMove (s : State) : State × Bool :=
  match s.seq with
  | .word _ => (s, false)
  | _ =>
    match s.sched with
    | [] => (s, false)
    | batch :: rest => batch.foldl applyMove ({ s with sched := rest }, false)

/-- A preemption point inside an operation: the other agents move, then a dispatch that is enabled goes before main context
(rules R225, R226). The flag says whether a handler ran here. -/
def preemptRan (s : State) : State × Bool :=
  let x := othersMove s
  if dispatchEnabled x.1 then (takeInterrupt x.1, true) else x

/-- The state after a preemption point. -/
def preempt (s : State) : State := (preemptRan s).1

/-- Main-context steps in order, with a preemption point between any two. -/
def mainSteps (fs : List (State → State)) (s : State) : State :=
  match fs with
  | [] => s
  | f :: rest => rest.foldl (fun t g => g (preempt t)) (f s)

/-- `emit(sym)` (rule R121), with the display observation of rule R129 at a latch. -/
@[simps] def emit (x : Symbol) (s : State) : State :=
  { s with
    wire := s.wire ++ [x]
    dout := false
    displayed := if x = .latch then displayAtLatch s.rail (segment s.wire) s.displayed else s.displayed }

/-- `raise Fault(kind)`: the pair of the kind and SEQ joins the set FAULTS (rule R221). -/
@[simps] def raise (k : FaultKind) (s : State) : State := { s with faults := s.faults.insert (k, s.seq) }

/-- `refuse(reason)`: REFUSED holds the reason and SEQ (rule R222). -/
@[simps] def refuse (r : Invalid) (s : State) : State := { s with refused := some (r, s.seq) }

/-- A faulted or refused state, from which no agent takes a step (rules R221, R222). -/
def halted (s : State) : Bool := !s.faults.isEmpty || s.refused.isSome

/-- How far an operation came: to its end, or to the line that raised a fault (rule R232). -/
inductive Flow where
  | done (s : State)
  | faulted (s : State)
  deriving DecidableEq, Repr

/-- The state an operation leaves, at its end or at its fault. -/
def Flow.state : Flow → State
  | .done s => s
  | .faulted s => s

/-- The rest of an operation, run only when no fault was raised (rule R221). -/
def Flow.andThen (x : Flow) (f : State → Flow) : Flow :=
  match x with
  | .done s => f s
  | .faulted s => .faulted s

/-- A script with word `k` replaced, padded with zero words where it is too short (log 28). -/
def putWord : List CommandWord → Nat → CommandWord → List CommandWord
  | [], 0, w => [w]
  | [], k + 1, w => 0 :: putWord [] k w
  | _ :: ws, 0, w => w :: ws
  | v :: ws, k + 1, w => v :: putWord ws k w

/-- The word index a script's next word has: SEQ in script mode, 0 at the launch of a script (rule R254). -/
def scriptIndex (s : State) : Nat :=
  match s.seq with
  | .word k => k
  | _ => 0

/-- The state with `w` placed as the word script mode runs next (log 28): the script holds `w` at SEQ, a launch from BOOT has
IE = 1 (rule R254), and nothing stands before main context: no pending dispatch, no fault or refusal record, no operation half
done; the step is a whole operation. -/
def placeWord (s : State) (w : CommandWord) : State :=
  let ie := s.ie || s.seq == .boot
  { s with
    seq := .word (scriptIndex s)
    program := putWord s.program (scriptIndex s) w
    ie := ie
    ipend := s.ipend && !ie
    faults := []
    refused := none
    place := .between
    turns := none }

end Sys2Proof.Machine
end

