-- ==== Sys2Proof/Machine/Encoder.lean ====
section
/-! DEFINITION. The Encoder operations (spec file 42_encoder.md): ENC.EDGE, ENC.GET, ENC.CFG. -/

namespace Sys2Proof.Machine

/-- The value ENC.GET returns: `div2(POS)` as an `int8` (rules R10, R151; log 18). -/
def position (s : State) : Reg8 := BitVec.ofInt 8 (div2 s.params.getDiv s.pos.toInt)

/-- ENC.GET's effect: the value joins READS (rule R151). -/
@[simps] def get (s : State) : State := { s with reads := s.reads ++ [position s] }

/-- One of configure's five writes (rule R152). -/
def cfgWrite (min max step init : Int) (wrap : Bool) (r : CfgReg) (s : State) : State :=
  match r with
  | .pos => { s with pos := doubled init }
  | .imin => { s with imin := doubled min }
  | .imax => { s with imax := doubled max }
  | .step => { s with encStep := BitVec.ofInt 8 step }
  | .wrap => { s with wrap := wrap }

/-- ENC.CFG's effect: the five writes in the order CFG_ORDER, with a preemption point between any two (rules R78, R152). -/
def configure (min max step init : Int) (wrap : Bool) (s : State) : State :=
  mainSteps (s.params.cfgOrder.writes.map (cfgWrite min max step init wrap)) s

/-- ENC.EDGE as a word of a script: the handler in main context, IE and IPEND untouched (rules R142, R217). -/
def execEncEdge (s : State) : Host.Outcome State Fault Refusal := .next (edge s)

/-- ENC.GET (R151). -/
def execEncGet (s : State) : Host.Outcome State Fault Refusal := .next (get s)

/-- ENC.CFG (R152). -/
def execEncCfg (min max step init : Int) (wrap : Bool) (s : State) : Host.Outcome State Fault Refusal :=
  .next (configure min max step init wrap s)

end Sys2Proof.Machine
end

