-- ==== Sys2Proof/Machine/PixelLink.lean ====
section
/-! DEFINITION. The PixelLink operations (spec file 41_pixellink.md): PL.LOAD, PL.TX, PL.LATCH. -/

namespace Sys2Proof.Machine

/-- PL.LOAD's effect (rule R123). -/
@[simps] def load (idx : Fin 8) (pixel : Pixel) (s : State) : State :=
  { s with fb := s.fb.set idx pixel, fbw := s.fbw.set idx true }

/-- Every entry of the frame buffer has been written (rule R124). -/
def frameWritten (s : State) : Bool := s.fbw.toList.all id

/-- Bit steps with interrupts masked: IE is saved, cleared and restored (rule R124). The environment may move between two bit
steps (rule R226). -/
def sendMasked (bits : List Bool) (s : State) : State :=
  setIe s.ie (mainSteps (bits.map fun b => emit (bitSymbol b)) (setIe false s))

/-- The point between two pixels when each pixel is masked on its own: a handler that runs there leaves the marker GAP
(rule R127). -/
def pixelGap (s : State) : State :=
  let x := preemptRan s
  if x.2 then emit .gap x.1 else x.1

/-- The pixels of a frame, each masked on its own (rule R127). -/
def sendPixels (ws : List Pixel) (s : State) : State :=
  match ws with
  | [] => s
  | w :: rest => rest.foldl (fun t v => sendMasked (pixelBits v) (pixelGap t)) (sendMasked (pixelBits w) s)

/-- The bit steps of PL.TX under MASK_SCOPE (rules R124, R127). -/
def sendFrame (s : State) : State :=
  match s.params.maskScope with
  | .frame => sendMasked (frameBits s.fb) s
  | .pixel => sendPixels s.fb.toList s

/-- PL.TX's effect (rule R124): the two tests come before every write. -/
def transmit (s : State) : Flow :=
  if s.lowed then .faulted (raise .latchMissing s)
  else if !frameWritten s then .faulted (raise .unwrittenFrame s)
  else .done { sendFrame s with lowed := true }

/-- PL.LATCH's effect (rule R125): the line goes low, the delay is a preemption point, then the latch symbol. -/
def latch (s : State) : State := { emit .latch (preempt { s with dout := false }) with lowed := false }

/-- PL.LOAD (R123). -/
def execPlLoad (idx : Fin 8) (pixel : Pixel) (s : State) : Host.Outcome State Fault Refusal := .next (load idx pixel s)

/-- PL.TX (R124). A fault is a next state that records it (R221). -/
def execPlTx (s : State) : Host.Outcome State Fault Refusal := .next (transmit s).state

/-- PL.LATCH (R125). -/
def execPlLatch (s : State) : Host.Outcome State Fault Refusal := .next (latch s)

end Sys2Proof.Machine
end

