-- ==== Sys2Proof/Machine/Controller.lean ====
section
/-! DEFINITION. The Controller operations (spec file 43_controller.md): CTL.RAIL, CTL.ADV, CTL.ENTRY, CTL.TICK. -/

namespace Sys2Proof.Machine

/-- CTL.RAIL's effect (rule R173); with the rail off the display is unspecified (rule R129). -/
@[simps] def setRail (v : Bool) (s : State) : State := { s with rail := v, displayed := if v then s.displayed else none }

/-- CTL.ADV's effect (rule R174). -/
@[simps] def advance (s : State) : State := { s with state := s.state.next }

/-- ENTRY_OFF (rule R176). -/
def entryOff (s : State) : State := setRail false s

/-- ENTRY_WHITE (rule R177). -/
def entryWhite (s : State) : State :=
  let t := preempt (setRail true s)
  configure 2 15 1 t.bright.toInt false t

/-- ENTRY_ANIMATE: nothing (rule R178). -/
def entryAnimate (s : State) : State := s

/-- ENTRY_SOLID (rule R179). -/
def entrySolid (s : State) : State := configure 0 48 1 s.hue.toInt true s

/-- CTL.ENTRY's effect (rule R175). -/
def entry (s : State) : State :=
  match s.state with
  | .off => entryOff s
  | .white => entryWhite s
  | .animate => entryAnimate s
  | .solid => entrySolid s

/-- `SHOW(pix)` (rule R172): eight loads, the transmit, the latch, with a preemption point between any two calls. -/
def render (pix : Fin 8 → Rgb) (s : State) : Flow :=
  (transmit (preempt (mainSteps (pixelIndices.map fun i => load i (pixelWord (pix i))) s))).andThen fun t =>
    .done (latch (preempt t))

/-- `BRIGHT <- v` (rule R182). -/
@[simps] def storeBright (v : Reg8) (s : State) : State := { s with bright := v }

/-- `HUE <- v` (rule R184). -/
@[simps] def storeHue (v : Reg8) (s : State) : State := { s with hue := v }

/-- `ACNT <- n` (rule R183). -/
@[simps] def storeCount (n : BitVec 8) (s : State) : State := { s with acnt := n }

/-- `ACNT <- 0`, then `APHASE <- (APHASE + 1) mod 48` (rule R183). -/
@[simps] def startFrame (s : State) : State := { s with acnt := 0, aphase := nextPhase s.aphase }

/-- TICK_WHITE's lines after its ENC.GET (rule R182). -/
def whiteEnd (v : Reg8) (s : State) : State × TickEnd :=
  (storeBright v s,
    match brightArg v with
    | none => .outOfDomain
    | some b => .shows fun _ => Config.white b)

/-- TICK_ANIMATE's lines after its ENC.GET (rule R183). -/
def animateEnd (n : Reg8) (s : State) : State × TickEnd :=
  if n.toInt ≤ (s.acnt + 1).toNat then
    (startFrame s,
      match brightArg s.bright with
      | none => .outOfDomain
      | some b => .shows fun i => Config.hue2rgb (animateHue (nextPhase s.aphase) i) b)
  else (storeCount (s.acnt + 1) s, .idle)

/-- TICK_SOLID's lines after its ENC.GET (rule R184). -/
def solidEnd (v : Reg8) (s : State) : State × TickEnd :=
  (storeHue v s,
    match hueArg v, brightArg s.bright with
    | some h, some b => .shows fun _ => Config.hue2rgb h b
    | none, _ => .outOfDomain
    | some _, none => .outOfDomain)

/-- A tick that reads the position: the call of ENC.GET, the tick's own lines, then the fault, the idle delay or SHOW, with the other
agents' turns between them (rules R182 to R184). -/
def readTick (rest : Reg8 → State → State × TickEnd) (s : State) : Flow :=
  let x := rest (position s) (preempt (get s))
  match x.2 with
  | .outOfDomain => .faulted (raise .colourDomain x.1)
  | .idle => .done (preempt x.1)
  | .shows pix => render pix (preempt x.1)

/-- TICK_WHITE (rule R182). -/
def tickWhite (s : State) : Flow := readTick whiteEnd s

/-- TICK_ANIMATE (rule R183). -/
def tickAnimate (s : State) : Flow := readTick animateEnd s

/-- TICK_SOLID (rule R184). -/
def tickSolid (s : State) : Flow := readTick solidEnd s

/-- The OFF wait has not seen its condition: `wait_until(PIN_BTN == 1)` gives main context no step (rules R181, R187). -/
def tickBlocked (s : State) : Bool := s.state == .off && !s.pinBtn

/-- CTL.TICK's effect where main context has a step (rule R180); TICK_OFF changes nothing (rule R181). -/
def tick (s : State) : Flow :=
  match s.state with
  | .off => .done s
  | .white => tickWhite s
  | .animate => tickAnimate s
  | .solid => tickSolid s

/-- CTL.RAIL (R173). -/
def execCtlRail (v : Bool) (s : State) : Host.Outcome State Fault Refusal := .next (setRail v s)

/-- CTL.ADV (R174). -/
def execCtlAdv (s : State) : Host.Outcome State Fault Refusal := .next (advance s)

/-- CTL.ENTRY (R175). -/
def execCtlEntry (s : State) : Host.Outcome State Fault Refusal := .next (entry s)

/-- CTL.TICK (R180). A ColourDomain fault is a next state that records it (R221); a blocked OFF wait gives main context no step
(R181, log 16). -/
def execCtlTick (s : State) : Host.Outcome State Fault Refusal :=
  if tickBlocked s then .fault .stuckInWait else .next (tick s).state

end Sys2Proof.Machine
end

