-- ==== Sys2Proof/Machine/System.lean ====
section
/-! DEFINITION. The system and environment operations (spec file 44_system_env.md): SYS.CLI, SYS.SEI, ENV.PINS, ENV.BTN. -/

namespace Sys2Proof.Machine

/-- SYS.CLI (R211). -/
def execSysCli (s : State) : Host.Outcome State Fault Refusal := .next (setIe false s)

/-- SYS.SEI (R212). -/
def execSysSei (s : State) : Host.Outcome State Fault Refusal := .next (setIe true s)

/-- ENV.PINS (R213). -/
def execEnvPins (a b : Bool) (s : State) : Host.Outcome State Fault Refusal := .next (setPins a b s)

/-- ENV.BTN (R214). -/
def execEnvBtn (v : Bool) (s : State) : Host.Outcome State Fault Refusal := .next (setBtn v s)

end Sys2Proof.Machine
end

