-- ==== Sys2Proof/Machine/Dispatch.lean ====
section
/-! DEFINITION. The operation map's meanings: one arm per operation. -/

namespace Sys2Proof.Machine

/-- The effect of one operation, without the move of SEQ, which `step` makes (rules R185, R217; log 23). -/
def exec (i : Instr) (s : State) : Host.Outcome State Fault Refusal :=
  match i with
  | .plLoad idx pixel => Sys2Proof.Machine.execPlLoad idx pixel s
  | .plTx => Sys2Proof.Machine.execPlTx s
  | .plLatch => Sys2Proof.Machine.execPlLatch s
  | .encEdge => Sys2Proof.Machine.execEncEdge s
  | .encGet => Sys2Proof.Machine.execEncGet s
  | .encCfg min max step init wrap => Sys2Proof.Machine.execEncCfg min max step init wrap s
  | .ctlRail level => Sys2Proof.Machine.execCtlRail level s
  | .ctlAdv => Sys2Proof.Machine.execCtlAdv s
  | .ctlEntry => Sys2Proof.Machine.execCtlEntry s
  | .ctlTick => Sys2Proof.Machine.execCtlTick s
  | .sysCli => Sys2Proof.Machine.execSysCli s
  | .sysSei => Sys2Proof.Machine.execSysSei s
  | .envPins a b => Sys2Proof.Machine.execEnvPins a b s
  | .envBtn level => Sys2Proof.Machine.execEnvBtn level s

end Sys2Proof.Machine
end

