-- ==== Sys2Proof/Machine/Turns.lean ====
section
/-! DEFINITION. Whose turn it is: the interrupt context's, or main context's at a point of the main loop or at a word of a script. -/

namespace Sys2Proof.Machine

/-- BOOT (rules R185, R251): the power-on values hold, the pending flag is clear and interrupts are enabled (log 25). -/
@[simps] def bootPoint (s : State) : State := { s with ipend := false, ie := true, seq := .entry }

/-- SEQ moves to the next point when the operation has come to its end and has not left the machine halted (rules R185, R217, R221,
R228). -/
@[simps] def moveSeq (p : Point) (s : State) : State :=
  { s with seq := if halted s || s.place != .between then s.seq else p }

/-- The end of an operation that main context ran at its point. -/
def thenSeq (p : Point) (x : Host.Outcome State Fault Refusal) : Host.Outcome State Fault Refusal :=
  match x with
  | .next s => .next (moveSeq p s)
  | .fault f => .fault f
  | .refused r => .refused r

/-- How main context runs an operation from its point: to its end (`exec`) or up to its first preemption point (`start`). -/
abbrev Runner := Instr → State → Host.Outcome State Fault Refusal

/-- Main context's turn at a word of a script (rule R217): fetch, decode, execute, `SEQ <- SEQ + 1`; a word that spells no
operation refuses and changes nothing else (rule R222); past the last word the run has ended (rule R218). -/
def scriptTurn (run : Runner) (k : Nat) (s : State) : Host.Outcome State Fault Refusal :=
  match s.program[k]? with
  | none => .fault .scriptEnded
  | some w =>
    match decode w with
    | .error r => .next (refuse r s)
    | .ok i => thenSeq (.word (k + 1)) (run i s)

/-- Main context's turn (rules R185, R187, R217). A `wait_until` whose condition does not hold leaves main context where it is;
a `delay` is the scheduling point that the turn of the other agents at this point gives. -/
def mainTurn (run : Runner) (s : State) : Host.Outcome State Fault Refusal :=
  match s.seq with
  | .boot => .next (bootPoint s)
  | .entry => thenSeq .poll (run .ctlEntry s)
  | .poll => .next (moveSeq (if s.pinBtn then .deb1 else .tick) s)
  | .tick => if tickBlocked s then .next s else thenSeq .poll (run .ctlTick s)
  | .deb1 => .next (moveSeq .wrel s)
  | .wrel => .next (if s.pinBtn then s else moveSeq .deb2 s)
  | .deb2 => .next (moveSeq .adv s)
  | .adv => thenSeq .entry (run .ctlAdv s)
  | .word k => scriptTurn run k s

/-- The turn after the environment's moves, at the pace of whole operations: an enabled dispatch goes first (rule R225), then main context. -/
def agentTurn (s : State) : Host.Outcome State Fault Refusal :=
  if dispatchEnabled s then .next (takeInterrupt s) else mainTurn exec s

/-- What stops a machine that has recorded a refusal or a fault: no agent takes another step (rules R221, R222). -/
def stopped (s : State) : Option (Host.Outcome State Fault Refusal) :=
  match s.refused, s.faults with
  | some (r, _), _ => some (.refused (refusalOf r))
  | none, (k, _) :: _ => some (.fault k.fault)
  | none, [] => none

end Sys2Proof.Machine
end

