-- ==== Sys2Proof/Machine/Atomic.lean ====
section
/-! DEFINITION. The pace of single turns: every operation cut at the preemption points of rule R226, and one turn of one agent. The
parts between two points are those of the whole operations. -/

namespace Sys2Proof.Machine

/-- Main context comes to a place of its operation. -/
@[simps] def standAt (p : Place) (s : State) : State := { s with place := p }

/-- The operation ends. -/
@[simps] def leave (s : State) : State := { s with place := .between }

/-- The next of configure's writes still to do (rule R152). -/
def cfgStep (todo : List CfgReg) (min max step init : Int) (wrap : Bool) (s : State) : State :=
  match todo with
  | [] => leave s
  | r :: rest =>
    standAt (if rest = [] then .between else .configuring rest min max step init wrap) (cfgWrite min max step init wrap r s)

/-- ENC.CFG up to the point after its first write (rules R78, R152). -/
def startCfg (min max step init : Int) (wrap : Bool) (s : State) : State :=
  cfgStep s.params.cfgOrder.writes min max step init wrap s

/-- The end of a masked run of bit steps: IE is restored; after the last pixel LOWED is set and PL.TX ends, else main context stands
between two pixels (rules R124, R127). -/
def unmask (later : List Pixel) (saved shown : Bool) (s : State) : State :=
  if later = [] then standAt (if shown then .sent else .between) { setIe saved s with lowed := true }
  else standAt (.gap false later shown) (setIe saved s)

/-- One bit step, with the end of the masked run after its last (rule R124). -/
def bitStep (bits : List Bool) (later : List Pixel) (saved shown : Bool) (s : State) : State :=
  match bits with
  | [] => unmask later saved shown s
  | b :: rest =>
    if rest = [] then unmask later saved shown (emit (bitSymbol b) s)
    else standAt (.sending rest later saved shown) (emit (bitSymbol b) s)

/-- A masked run up to the point after its first bit step: IE is saved and cleared (rule R124). -/
def startBits (bits : List Bool) (later : List Pixel) (shown : Bool) (s : State) : State :=
  bitStep bits later s.ie shown (setIe false s)

/-- The next pixel under MASK_SCOPE = PIXEL, after the marker GAP where a handler has run (rule R127). -/
def nextPixel (ran : Bool) (later : List Pixel) (shown : Bool) (s : State) : State :=
  match later with
  | [] => leave s
  | w :: rest => startBits (pixelBits w) rest shown (if ran then emit .gap s else s)

/-- PL.TX up to the point after its first bit step, or to its fault (rules R124, R127). -/
def startTx (shown : Bool) (s : State) : State :=
  if s.lowed then leave (raise .latchMissing s)
  else if !frameWritten s then leave (raise .unwrittenFrame s)
  else
    match s.params.maskScope with
    | .frame => startBits (frameBits s.fb) [] shown s
    | .pixel => nextPixel false s.fb.toList shown s

/-- PL.LATCH up to its delay (rule R125). -/
def startLatch (s : State) : State := standAt .latching { s with dout := false }

/-- PL.LATCH after its delay (rule R125). -/
def endLatch (s : State) : State := leave { emit .latch s with lowed := false }

/-- CTL.ENTRY up to its first preemption point (rules R175 to R179). -/
def startEntry (s : State) : State :=
  match s.state with
  | .off => entryOff s
  | .white => standAt .whiteRail (setRail true s)
  | .animate => entryAnimate s
  | .solid => startCfg 0 48 1 s.hue.toInt true s

/-- CTL.TICK up to its first preemption point (rules R180 to R184). -/
def startTick (s : State) : State :=
  match s.state with
  | .off => s
  | .white => standAt (.read (position s)) (get s)
  | .animate => standAt (.read (position s)) (get s)
  | .solid => standAt (.read (position s)) (get s)

/-- A tick's own lines after its ENC.GET has returned this value (rules R182 to R184). -/
def tickEnd (v : Reg8) (s : State) : State × TickEnd :=
  match s.state with
  | .off => (s, .idle)
  | .white => whiteEnd v s
  | .animate => animateEnd v s
  | .solid => solidEnd v s

/-- A tick after its ENC.GET, up to SHOW, the idle delay or the fault (rules R182 to R184). -/
def afterRead (v : Reg8) (s : State) : State :=
  let x := tickEnd v s
  match x.2 with
  | .outOfDomain => leave (raise .colourDomain x.1)
  | .idle => standAt .idling x.1
  | .shows pix => standAt (.loading (pixelIndices.map fun i => (i, pixelWord (pix i)))) x.1

/-- The next of SHOW's loads still to do (rule R172). -/
def loadStep (todo : List (Fin 8 × Pixel)) (s : State) : State :=
  match todo with
  | [] => standAt .loaded s
  | (i, w) :: rest => standAt (if rest = [] then .loaded else .loading rest) (load i w s)

/-- An operation up to its first preemption point; one with no point inside runs whole (rule R226). -/
def start (i : Instr) (s : State) : Host.Outcome State Fault Refusal :=
  match i with
  | .plTx => .next (startTx false s)
  | .plLatch => .next (startLatch s)
  | .encCfg min max step init wrap => .next (startCfg min max step init wrap s)
  | .ctlEntry => .next (startEntry s)
  | .ctlTick => if tickBlocked s then .fault .stuckInWait else .next (startTick s)
  | .plLoad idx pixel => exec (.plLoad idx pixel) s
  | .encEdge => exec .encEdge s
  | .encGet => exec .encGet s
  | .ctlRail level => exec (.ctlRail level) s
  | .ctlAdv => exec .ctlAdv s
  | .sysCli => exec .sysCli s
  | .sysSei => exec .sysSei s
  | .envPins a b => exec (.envPins a b) s
  | .envBtn level => exec (.envBtn level) s

/-- Main context goes on from its place, up to the next preemption point or the operation's end. -/
def resume (s : State) : State :=
  match s.place with
  | .between => s
  | .configuring todo min max step init wrap => cfgStep todo min max step init wrap s
  | .whiteRail => startCfg 2 15 1 s.bright.toInt false s
  | .read v => afterRead v s
  | .idling => leave s
  | .loading todo => loadStep todo s
  | .loaded => startTx true s
  | .sending bits later saved shown => bitStep bits later saved shown s
  | .gap ran later shown => nextPixel ran later shown s
  | .sent => startLatch s
  | .latching => endLatch s

/-- The point after an operation that main context runs at this point (rules R185, R217). -/
def Point.after : Point → Point
  | .boot => .entry
  | .entry => .poll
  | .poll => .tick
  | .tick => .poll
  | .deb1 => .wrel
  | .wrel => .deb2
  | .deb2 => .adv
  | .adv => .entry
  | .word k => .word (k + 1)

/-- Main context's turn: at its point, or at its place inside an operation. -/
def mainPart (s : State) : Host.Outcome State Fault Refusal :=
  if s.place = .between then mainTurn start s else .next (moveSeq s.seq.after (resume s))

/-- A place after a handler run: only the gap between two pixels takes note of it (rule R127). -/
def Place.afterHandler : Place → Place
  | .gap _ later shown => .gap true later shown
  | p => p

/-- The interrupt context's turn (rules R227, R228). -/
@[simps!] def handlerTurn (s : State) : State := standAt s.place.afterHandler (takeInterrupt s)

/-- The block's own turn: an enabled dispatch goes before main context (rule R225). -/
def ownTurn (s : State) : Host.Outcome State Fault Refusal :=
  if dispatchEnabled s then .next (handlerTurn s) else mainPart s

/-- One turn. In script mode the environment has none beside its words (rule R217), and the turn is the block's own. -/
def takeTurn (x : Turn) (s : State) : Host.Outcome State Fault Refusal :=
  match x, s.seq with
  | .pins _ _, .word _ => ownTurn s
  | .btn _, .word _ => ownTurn s
  | .own, _ => ownTurn s
  | .pins a b, _ => .next (setPins a b s)
  | .btn v, _ => .next (setBtn v s)

/-- A step at the pace of single turns: the next turn listed, own turns after the last (log 31). -/
def turnStep (s : State) : Host.Outcome State Fault Refusal :=
  match s.turns with
  | some (x :: rest) => takeTurn x { s with turns := some rest }
  | some [] => takeTurn .own s
  | none => takeTurn .own s

/-- Whether a step is a single turn: the launch set that pace, or main context stands inside an operation (log 31). -/
def singleTurns (s : State) : Bool := s.turns.isSome || s.place != .between

end Sys2Proof.Machine
end

