-- ==== Sys2Proof/Machine/Step.lean ====
section
/-! DEFINITION. One step of the machine, and the placing of a word where it fetches next. -/

namespace Sys2Proof.Machine

/-- One step: a halted machine takes none (rules R221, R222). At the pace of single turns it is one turn of one agent; at the pace of
whole operations it is the environment's moves at main context's point (rule R215), then the turn of the interrupt context or of main
context (rule R225). -/
def step (s : State) : Host.Outcome State Fault Refusal :=
  match stopped s with
  | some x => x
  | none => if singleTurns s then turnStep s else agentTurn (othersMove s).1

/-- The state with an opcode-table word placed where script mode fetches next (log 28). -/
def State.withFetchWord (s : State) (nbits w : Nat) : State := placeWord s (tableWord nbits w)

end Sys2Proof.Machine
end

