-- ==== Sys2Proof/Safety.lean ====
section
/-! DEFINITION. What claims are stated in: what another agent may change, the pace of the steps, what the wire shows, how a run ends, and
the invariants of the machine. -/

namespace Sys2Proof.Machine

/-- `t` is `s` but for the Encoder's registers, which configure writes and handlers change, the inputs, the pending flag, and the
schedule used up (rules R47, R152). -/
structure EncoderOnly (s t : State) : Prop where
  state : t.state = s.state
  bright : t.bright = s.bright
  hue : t.hue = s.hue
  aphase : t.aphase = s.aphase
  acnt : t.acnt = s.acnt
  rail : t.rail = s.rail
  fb : t.fb = s.fb
  fbw : t.fbw = s.fbw
  dout : t.dout = s.dout
  wire : t.wire = s.wire
  lowed : t.lowed = s.lowed
  ie : t.ie = s.ie
  seq : t.seq = s.seq
  reads : t.reads = s.reads
  faults : t.faults = s.faults
  refused : t.refused = s.refused
  program : t.program = s.program
  displayed : t.displayed = s.displayed
  params : t.params = s.params
  place : t.place = s.place
  turns : t.turns = s.turns

/-- `t` is `s` but for what the environment and handler runs may change: POS, LA, LB, LEQ, the inputs, the pending flag, and the
schedule used up (rules R47, R228). -/
structure OthersOnly (s t : State) : Prop where
  encStep : t.encStep = s.encStep
  imin : t.imin = s.imin
  imax : t.imax = s.imax
  wrap : t.wrap = s.wrap
  state : t.state = s.state
  bright : t.bright = s.bright
  hue : t.hue = s.hue
  aphase : t.aphase = s.aphase
  acnt : t.acnt = s.acnt
  rail : t.rail = s.rail
  fb : t.fb = s.fb
  fbw : t.fbw = s.fbw
  dout : t.dout = s.dout
  wire : t.wire = s.wire
  lowed : t.lowed = s.lowed
  ie : t.ie = s.ie
  seq : t.seq = s.seq
  reads : t.reads = s.reads
  faults : t.faults = s.faults
  refused : t.refused = s.refused
  program : t.program = s.program
  displayed : t.displayed = s.displayed
  params : t.params = s.params
  place : t.place = s.place
  turns : t.turns = s.turns

/-- `t` is `s` but for what the environment may change: the inputs, the pending flag, and the schedule used up
(rules R47, R215). -/
structure EnvOnly (s t : State) : Prop where
  pos : t.pos = s.pos
  la : t.la = s.la
  lb : t.lb = s.lb
  leq : t.leq = s.leq
  encStep : t.encStep = s.encStep
  imin : t.imin = s.imin
  imax : t.imax = s.imax
  wrap : t.wrap = s.wrap
  state : t.state = s.state
  bright : t.bright = s.bright
  hue : t.hue = s.hue
  aphase : t.aphase = s.aphase
  acnt : t.acnt = s.acnt
  rail : t.rail = s.rail
  fb : t.fb = s.fb
  fbw : t.fbw = s.fbw
  dout : t.dout = s.dout
  wire : t.wire = s.wire
  lowed : t.lowed = s.lowed
  ie : t.ie = s.ie
  seq : t.seq = s.seq
  reads : t.reads = s.reads
  faults : t.faults = s.faults
  refused : t.refused = s.refused
  program : t.program = s.program
  displayed : t.displayed = s.displayed
  params : t.params = s.params
  place : t.place = s.place
  turns : t.turns = s.turns

/-- The step is a whole operation: that is the pace, and main context stands between two operations (log 31). -/
def WholePace (s : State) : Prop := s.turns = none ∧ s.place = .between

/-- Main context is about to run this operation as the next word of its script (rule R217). -/
def AtWord (i : Instr) (s : State) : Prop := s.place = .between ∧ ∃ k w, s.seq = .word k ∧ s.program[k]? = some w ∧ decode w = .ok i

/-- `n` steps, each to a next state. -/
def steps : Nat → State → Option State
  | 0, s => some s
  | n + 1, s =>
    match step s with
    | .next t => steps n t
    | .fault _ => none
    | .refused _ => none

/-- `t` is a state of a run from `s`. The power supply may cut the run there, and a claim about a run of autonomous mode, which never ends
by itself, is one about every such state (rules R216, R218). -/
def ReachedFrom (s t : State) : Prop := ∃ n, steps n s = some t

/-- Main context is alone for the whole of an operation: script mode, where the environment moves at its own words only
(rule R217), and no dispatch enabled. -/
def Alone (s : State) : Prop := (∃ k, s.seq = .word k) ∧ dispatchEnabled s = false

/-- CFG_ORDER writes POS last (rule R257). -/
def PosLast (o : CfgOrder) : Prop := o.writes.getLast? = some .pos

/-- The bit symbols of a frame, by the index formula of rule R93: symbol `k` is bit `23 − (k mod 24)` of `FB[k div 24]`. -/
def frameSymbols (fb : Vector Pixel 8) : List Symbol :=
  (List.range 192).map fun k => if (fb.toList.getD (k / 24) 0).getLsbD (23 - k % 24) then .bit1 else .bit0

/-- Every entry of the frame buffer holds the pixel word of a colour and is written. -/
def FrameIs (pix : Fin 8 → Rgb) (s : State) : Prop :=
  ∀ i : Fin 8, s.fb[i] = pixelWord (pix i) ∧ s.fbw[i] = true

/-- The symbols of one pixel word in wire order (rules R72, R93). -/
def pixelSymbols (w : Pixel) : List Symbol := (List.range 24).map fun j => if w.getLsbD (23 - j) then .bit1 else .bit0

/-- What may stand on the wire in the seven places between two pixels: nothing, or one GAP (rule R127). -/
def IsGaps (gaps : List (List Symbol)) : Prop := gaps.length = 7 ∧ ∀ g ∈ gaps, g = [] ∨ g = [.gap]

/-- The symbols of a frame with these gaps between its pixels (rules R93, R127). -/
def gappedFrame (gaps : List (List Symbol)) (fb : Vector Pixel 8) : List Symbol :=
  pixelSymbols fb[0] ++ (List.zipWith (fun g w => g ++ pixelSymbols w) gaps fb.toList.tail).flatten

/-- From `s` to `t` the wire gained one frame, the frame buffer's, and one latch; the frame has no gap but under MASK_SCOPE = PIXEL with a
handler free to run between two pixels (rules R124, R125, R127, R172). -/
def FrameShown (s t : State) : Prop :=
  (s.params.maskScope = .frame ∨ Alone s ∨ s.ie = false → t.wire = s.wire ++ frameSymbols t.fb ++ [.latch]) ∧
  (s.params.maskScope = .pixel → ∃ gaps, IsGaps gaps ∧ t.wire = s.wire ++ gappedFrame gaps t.fb ++ [.latch])

/-- The tick of this state shows the frame of these eight colours (rules R182 to R184). -/
def TickShows (s : State) (pix : Fin 8 → Rgb) : Prop :=
  (s.state = .white ∧ ∃ b : Fin 16, (position s).toInt = b.val ∧ pix = fun _ => Config.white b) ∨
  (s.state = .animate ∧ (position s).toInt ≤ ((s.acnt + 1).toNat : Int) ∧ ∃ b : Fin 16, s.bright.toInt = b.val ∧
    pix = fun i => Config.hue2rgb (animateHue (nextPhase s.aphase) i) b) ∨
  (s.state = .solid ∧ ∃ (h : Fin 49) (b : Fin 16), (position s).toInt = h.val ∧ s.bright.toInt = b.val ∧
    pix = fun _ => Config.hue2rgb h b)

/-- The handler run that follows each of a list of line changes, as rule R150 counts them. -/
def edgesRun (lines : List (Bool × Bool)) (s : State) : State := lines.foldl (fun t x => edge (setPins x.1 x.2 t)) s

/-- The four edges of a CW detent from rest at `00` (rule R94). -/
def cwLines : List (Bool × Bool) := [(true, false), (true, true), (false, true), (false, false)]

/-- The four edges of a CCW detent from rest at `00` (rule R94). -/
def ccwLines : List (Bool × Bool) := [(false, true), (true, true), (true, false), (false, false)]

/-- The edge history (rules R25, R26). -/
def history (s : State) : Bool × Bool × Bool := (s.la, s.lb, s.leq)

/-- The steady histories of rule R150 at rest `00`. -/
def hCw : Bool × Bool × Bool := (false, true, false)

/-- The steady history of CCW turning (rule R150). -/
def hCcw : Bool × Bool × Bool := (false, false, true)

/-- A script has run to its end: no agent can step (rule R218). -/
def Ended (s : State) : Prop :=
  (∃ k, s.seq = .word k ∧ s.program.length ≤ k) ∧ s.place = .between ∧ dispatchEnabled s = false

/-- An ended run with no fault and no refusal (rule R218). -/
def Final (s : State) : Prop := Ended s ∧ s.faults = [] ∧ s.refused = none

/-- The range lemma as an invariant (rules R21, R23, R153): POS and the bounds are what configure can write. -/
structure RangeInv (s : State) : Prop where
  pos : InRange s.pos
  imin : IsBound s.imin
  imax : IsBound s.imax

/-- A list of exactly 192 bit symbols (rule R129). -/
def IsFrame (symbols : List Symbol) : Prop := symbols.length = 192 ∧ ∀ x ∈ symbols, x = .bit0 ∨ x = .bit1

/-- Under MASK_SCOPE = FRAME: a wire that owes no latch has ended its segment, one that does holds exactly one whole frame since the last
latch, and inside PL.TX the symbols sent and the bits still to send are one frame (rules R38, R74, R93, R124). -/
def WireFramed (s : State) : Prop :=
  match s.place with
  | .sending bits later _ _ => later = [] ∧ IsFrame (segment s.wire ++ bits.map bitSymbol)
  | .gap _ _ _ => False
  | _ => if s.lowed then IsFrame (segment s.wire) else segment s.wire = []

/-- What main context's place says of the registers: the operands of a configure are `int8` values; inside PL.TX the frame is written,
no latch is owed, and from the first bit step of a masked run to its last interrupts are masked (rules R99, R124, R126, R127). -/
def PlaceInv (s : State) : Prop :=
  match s.place with
  | .configuring _ min max _ init _ => InInt8 min ∧ InInt8 max ∧ InInt8 init
  | .sending _ _ _ _ => s.ie = false ∧ s.lowed = false ∧ frameWritten s = true
  | .gap _ _ _ => s.lowed = false ∧ frameWritten s = true
  | _ => True

/-- The invariant every step keeps: the range lemma (R153), ACNT at most 127 (R183), the line low between steps (R36), a latch is
owed only for a written frame (R35, R38), nothing specified is shown while the rail is off (R129), the place's own facts, and the wire
framed under MASK_SCOPE = FRAME (R93). -/
structure Inv (s : State) : Prop where
  range : RangeInv s
  acnt : s.acnt.toNat ≤ 127
  line : s.dout = false
  written : s.lowed = true → frameWritten s = true
  dark : s.rail = false → s.displayed = none
  place : PlaceInv s
  framed : s.params.maskScope = .frame → WireFramed s

/-- The Encoder's bounds, step and wrap flag as ENTRY_WHITE writes them (rules R177, R192). -/
def WhiteCfg (s : State) : Prop := s.imin = 4 ∧ s.imax = 30 ∧ s.encStep = 1 ∧ s.wrap = false

/-- The Encoder's bounds, step and wrap flag as ENTRY_SOLID writes them (rule R179). -/
def SolidCfg (s : State) : Prop := s.imin = 0 ∧ s.imax = 96 ∧ s.encStep = 1 ∧ s.wrap = true

/-- Rail and Encoder configuration of a Controller state whose entry action has run (rule R188). -/
def RoleOf (s : State) : Prop :=
  match s.state with
  | .off => s.rail = false
  | .white => s.rail = true ∧ WhiteCfg s
  | .animate => s.rail = true ∧ WhiteCfg s
  | .solid => s.rail = true ∧ SolidCfg s

/-- What holds just before the entry action: ANIMATE inherits WHITE's rail and configuration, SOLID the rail
(rules R179, R192). -/
def RoleBeforeEntry (s : State) : Prop :=
  match s.state with
  | .off => True
  | .white => True
  | .animate => s.rail = true ∧ WhiteCfg s
  | .solid => s.rail = true

/-- The operands ENTRY_WHITE and ENTRY_SOLID give to configure (rules R177, R179). -/
def EntryOperands (s : State) (min max step init : Int) (wrap : Bool) : Prop :=
  (s.state = .white ∧ min = 2 ∧ max = 15 ∧ step = 1 ∧ init = s.bright.toInt ∧ wrap = false) ∨
  (s.state = .solid ∧ min = 0 ∧ max = 48 ∧ step = 1 ∧ init = s.hue.toInt ∧ wrap = true)

/-- Of the bounds, the step and the wrap flag, those that configure no longer has to write hold its operands (rule R152). -/
def CfgWritten (s : State) (todo : List CfgReg) (min max step : Int) (wrap : Bool) : Prop :=
  (.imin ∉ todo → s.imin = doubled min) ∧ (.imax ∉ todo → s.imax = doubled max) ∧
  (.step ∉ todo → s.encStep = BitVec.ofInt 8 step) ∧ (.wrap ∉ todo → s.wrap = wrap)

/-- The invariant of autonomous mode (rules R39, R185, R188, R191, R192): interrupts are enabled from BOOT on but for the bit steps of
PL.TX, which restore them, and the rail and the Encoder's configuration are those of the Controller state, at every point of the main
loop and at every place inside an operation. -/
def AutonomousInv (s : State) : Prop :=
  match s.place with
  | .between =>
    match s.seq with
    | .boot => s.state = .off
    | .entry => s.ie = true ∧ RoleBeforeEntry s
    | .word _ => False
    | _ => s.ie = true ∧ RoleOf s
  | .configuring todo min max step init wrap =>
    s.seq = .entry ∧ s.ie = true ∧ s.rail = true ∧ EntryOperands s min max step init wrap ∧ CfgWritten s todo min max step wrap
  | .whiteRail => s.seq = .entry ∧ s.ie = true ∧ s.rail = true ∧ s.state = .white
  | .sending _ _ saved _ => s.seq = .tick ∧ saved = true ∧ s.state ≠ .off ∧ RoleOf s
  | _ => s.seq = .tick ∧ s.ie = true ∧ s.state ≠ .off ∧ RoleOf s

/-- The position is in the range of the Controller state's configuration (rules R188, R189). -/
def PosInRole (s : State) : Prop :=
  match s.state with
  | .off => True
  | .white => 4 ≤ s.pos.toInt ∧ s.pos.toInt ≤ 30
  | .animate => 4 ≤ s.pos.toInt ∧ s.pos.toInt ≤ 30
  | .solid => 0 ≤ s.pos.toInt ∧ s.pos.toInt ≤ 96

/-- A value that a tick of this state may have read in the range of its configuration (rules R188, R189). -/
def ReadInRole (s : State) (v : Reg8) : Prop :=
  match s.state with
  | .off => True
  | .white => 2 ≤ v.toInt ∧ v.toInt ≤ 15
  | .animate => 2 ≤ v.toInt ∧ v.toInt ≤ 15
  | .solid => 0 ≤ v.toInt ∧ v.toInt ≤ 48

/-- Main context's place in a run of the Controller when configure writes POS last: POS is still to write, the value read is in the
state's range, the loads done and still to do fill the frame buffer, and PL.TX is SHOW's (rules R172, R189, R257). -/
def PlaceInRole (s : State) : Prop :=
  match s.place with
  | .configuring todo _ _ _ _ _ => todo.getLast? = some .pos
  | .read v => ReadInRole s v
  | .loading todo => ∀ i : Fin 8, s.fbw[i] = true ∨ ∃ w, (i, w) ∈ todo
  | .loaded => ∀ i : Fin 8, s.fbw[i] = true
  | .sending _ _ _ shown => shown = true
  | .gap _ _ shown => shown = true
  | _ => True

/-- The Controller's ranges (rule R189) as an invariant of autonomous mode when configure writes POS last (rule R257): BRIGHT in
[2, 15], HUE in [0, 48], the position in the state's range, a latch owed inside SHOW only, and no fault or refusal. -/
structure ControllerInv (s : State) : Prop where
  auto : AutonomousInv s
  posLast : PosLast s.params.cfgOrder
  bright : 2 ≤ s.bright.toInt ∧ s.bright.toInt ≤ 15
  hue : 0 ≤ s.hue.toInt ∧ s.hue.toInt ≤ 48
  pos : s.seq ≠ .boot → s.seq ≠ .entry → PosInRole s
  posEntry : s.seq = .entry → s.state = .animate → PosInRole s
  place : PlaceInRole s
  latched : s.lowed = true → s.place = .sent ∨ s.place = .latching
  running : halted s = false

end Sys2Proof.Machine
end

