-- ==== Sys2Proof/Certificates/Slice0/Obligations.lean ====
section
/-! DEFINITION. The statements for the provers: what the operations, the agents and the whole machine do. -/

open Sys2Proof Sys2Proof.Machine

/-! Encodings -/

/-- Decoding the word of a well-formed operation gives the operation back (rules R96 to R104). -/
def Obligations.DecodeOfEncode : Prop :=
  ∀ i : Instr, i.wellFormed = true → decode (encode i) = .ok i

/-- A word that decodes is the one word of its operation, and the operation is well formed (rules R102, R104, R106). -/
def Obligations.EncodeOfDecode : Prop :=
  ∀ (w : CommandWord) (i : Instr), decode w = .ok i → i.wellFormed = true ∧ encode i = w

/-- At most one row of the operation map matches a word, and a word that matches a row decodes (rules R102, R104). -/
def Obligations.OneRowPerWord : Prop :=
  ∀ (w : CommandWord) (o : Op), o.accepts w = true →
    (∃ i, decode w = .ok i ∧ i.op = o) ∧ ∀ o' : Op, o'.accepts w = true → o' = o

/-- Every word gets one operation or one verdict: a reserved opcode and a reserved bit each get theirs, and a script that runs into
such a word refuses with it, at its site, and changes nothing else (rules R105, R106, R222; that the refusal is a next state which records
it, with the stop at the step after, is the model's choice, log 15). -/
def Obligations.InvalidWordsRefuse : Prop :=
  ∀ w : CommandWord,
    ((∀ o : Op, o.opcode ≠ opcodeOf w) → decode w = .error .illegalOpcode) ∧
    (∀ o : Op, o.opcode = opcodeOf w → w &&& o.format.mask ≠ o.pattern → decode w = .error .reservedBits) ∧
    (∀ o : Op, o.opcode = opcodeOf w → w &&& o.format.mask = o.pattern → ∃ i, decode w = .ok i ∧ i.op = o) ∧
    ∀ (s : State) (k : Nat) (r : Invalid), halted s = false → WholePace s → dispatchEnabled s = false → s.seq = .word k →
      s.program[k]? = some w → decode w = .error r → step s = .next { s with refused := some (r, .word k) }

/-- Words written out from the encodings decode to the operations they stand for, one of each format and family
(rules R97 to R101, R103). -/
def Obligations.WrittenWordsDecode : Prop :=
  decode 0x1103000000123456 = .ok (.plLoad 3 0x123456) ∧ decode 0x1200000000000000 = .ok .plTx ∧
    decode 0x2100000000000000 = .ok .encEdge ∧ decode 0x23000001807F8000 = .ok (.encCfg (-128) 127 (-128) 0 true) ∧
      decode 0x3100000000000001 = .ok (.ctlRail true) ∧ decode 0x3400000000000000 = .ok .ctlTick ∧
        decode 0x4100000000000000 = .ok .sysCli ∧ decode 0xE100000000000002 = .ok (.envPins true false) ∧
          decode 0xE200000000000001 = .ok (.envBtn true)

/-- The pixel word holds green in bits 23..16, red in 15..8 and blue in 7..0, and goes out most significant bit first, with the
rule's worked example (rule R91). -/
def Obligations.PixelWordLayout : Prop :=
  (∀ c : Rgb, (pixelWord c).extractLsb' 16 8 = c.g ∧ (pixelWord c).extractLsb' 8 8 = c.r ∧ (pixelWord c).extractLsb' 0 8 = c.b ∧
    ∀ j < 24, (pixelBits (pixelWord c))[j]? = some ((pixelWord c).getLsbD (23 - j))) ∧
  pixelWord ⟨255, 0, 0⟩ = 0x00FF00

/-- Each bit symbol starts high, ends low and takes one period, the same for both values; a `1` is high for T_1H, a `0` for T_0H
(rule R92). The bit times are any three that meet `0 < T_0H < T_1H < T_BIT`, and no others (the constraint of rule R11). -/
def Obligations.BitShapesTakeOnePeriod : Prop :=
  (∀ t : Timing, (0 < t.t0H ∧ t.t0H < t.t1H ∧ t.t1H < t.tBit) ∧
    ∀ x : Symbol, x = .bit0 ∨ x = .bit1 →
      ∃ high low : Nat, waveform t x = [(true, high), (false, low)] ∧ 0 < high ∧ 0 < low ∧ high + low = t.tBit ∧
        (x = .bit0 → high = t.t0H) ∧ (x = .bit1 → high = t.t1H)) ∧
  ∀ a b c : Nat, 0 < a → a < b → b < c → ∃ t : Timing, t.t0H = a ∧ t.t1H = b ∧ t.tBit = c

/-- The reference white of the vectors, `(b², b², b²)`, meets CP4 and CP5 (rule R171; CP4's squaring is read up to a constant factor and
rounding, log 12). -/
def Obligations.ReferenceWhiteMeetsHypotheses : Prop :=
  Config.CP4 Config.whiteRef ∧ Config.CP5 Config.whiteRef ∧ ∀ b : Fin 16, (Config.whiteRef b).r.toNat = b.val * b.val

/-- The picks of CFG_ORDER give the permutations of the five writes, every one of them and no other order (rule R14). -/
def Obligations.CfgOrderIsEveryPermutation : Prop :=
  ∀ l : List CfgReg, l.Perm CfgReg.all ↔ ∃ o : CfgOrder, o.writes = l

/-! Steps -/

/-- A script's step runs the decoded word, then moves SEQ by one unless the operation recorded a fault; a stop of the operation is
the step's (rule R217; that `step` and not `exec` moves SEQ is the model's, log 23; a step is a whole operation, log 31). -/
def Obligations.StepRunsDecodedWord : Prop :=
  ∀ (s : State) (k : Nat) (w : CommandWord) (i : Instr), halted s = false → WholePace s → dispatchEnabled s = false → s.seq = .word k →
    s.program[k]? = some w → decode w = .ok i →
      step s = match exec i s with
        | .next t => .next (if halted t then t else { t with seq := .word (k + 1) })
        | .fault f => .fault f
        | .refused r => .refused r

/-- The main loop, point by point, after the environment's moves `u` at the point and with no dispatch enabled (rules R181, R185,
R187). The model's own: a step is a whole operation (logs 2 and 31), BOOT writes IE, IPEND and SEQ only (log 25), a blocked OFF wait
answers a next state at the same point (log 16), and a tick that faults is a next state that keeps SEQ (log 14). -/
def Obligations.MainLoopStep : Prop :=
  ∀ s u : State, halted s = false → WholePace s → u = (othersMove s).1 → dispatchEnabled u = false →
    (s.seq = .boot → step s = .next { u with ipend := false, ie := true, seq := .entry }) ∧
    (s.seq = .entry → ∃ t, exec .ctlEntry u = .next t ∧ step s = .next { t with seq := .poll }) ∧
    (s.seq = .poll → step s = .next { u with seq := if u.pinBtn then .deb1 else .tick }) ∧
    (s.seq = .tick → (u.state ≠ .off ∨ u.pinBtn = true) →
      ∃ t, exec .ctlTick u = .next t ∧ step s = .next (if halted t then t else { t with seq := .poll })) ∧
    (s.seq = .tick → u.state = .off → u.pinBtn = false → step s = .next u) ∧
    (s.seq = .deb1 → step s = .next { u with seq := .wrel }) ∧
    (s.seq = .wrel → step s = .next (if u.pinBtn then u else { u with seq := .deb2 })) ∧
    (s.seq = .deb2 → step s = .next { u with seq := .adv }) ∧
    (s.seq = .adv → ∃ t, exec .ctlAdv u = .next t ∧ step s = .next { t with seq := .entry })

/-- With IE and IPEND set at main context's point the interrupt context goes first: the step is the handler's run on the lines as
they are, with IE as it was and main context where it was (rules R225, R228), and with IPEND cleared at entry, before the lines are
sampled, which rule R227 marks as this spec's own choice (decision D13). -/
def Obligations.DispatchGoesFirst : Prop :=
  ∀ s u : State, halted s = false → WholePace s → u = (othersMove s).1 → u.ie = true → u.ipend = true →
    ∃ e t, exec .encEdge u = .next e ∧ step s = .next t ∧ t = { e with ipend := false } ∧
      t = { u with ipend := false, pos := t.pos, la := t.la, lb := t.lb, leq := t.leq }

/-- A machine with a fault or refusal on record takes no step, and the stop names the record, a refusal before a fault
(rules R221, R222, R231; how a stop is answered is the model's choice, logs 14 and 15). -/
def Obligations.HaltedMachineStops : Prop :=
  ∀ s : State,
    (∀ r p, s.refused = some (r, p) → step s = .refused (refusalOf r)) ∧
    (∀ k p rest, s.refused = none → s.faults = (k, p) :: rest → step s = .fault k.fault)

/-- A step says that a script has ended exactly in a final state, and that it is stuck exactly where the OFF wait of a script finds
the button released with no dispatch enabled, at either pace (rules R181, R218; the two names of the answers are the model's, logs 16
and 17). -/
def Obligations.FinalAndStuckRuns : Prop :=
  ∀ s : State,
    (step s = .fault .scriptEnded ↔ Final s) ∧
    (step s = .fault .stuckInWait ↔
      halted s = false ∧ s.place = .between ∧ dispatchEnabled s = false ∧ s.state = .off ∧ s.pinBtn = false ∧
      ∃ k w, s.seq = .word k ∧ s.program[k]? = some w ∧ decode w = .ok .ctlTick)

/-- An operation answers a next state, but for the OFF wait with the button released (rules R181, R217). Both answers are the model's: the
stop at the OFF wait is log 16, and PL.TX and CTL.TICK answer a next state also where they raise a fault, which that state records
(log 14). -/
def Obligations.OnlyTheOffWaitStops : Prop :=
  ∀ (i : Instr) (s : State),
    (¬(i = .ctlTick ∧ s.state = .off ∧ s.pinBtn = false) → ∃ t, exec i s = .next t) ∧
    (i = .ctlTick → s.state = .off → s.pinBtn = false → exec i s = .fault .stuckInWait)

/-! Single turns -/

/-- At the pace of single turns a step is one turn of one agent, wherever main context stands inside its operation: outside script mode the
environment sets the lines or the button; where a dispatch is enabled the handler runs, and main context keeps its place, of which only the
gap between two pixels takes note (rules R127, R215, R217, R225 to R228; the pace is the model's, log 31). That a run in the gap is only
noted there, with WIRE as it was, and that the one GAP goes out with the next pixel, is the model's reading of R127, log 21. -/
def Obligations.OneTurnOfOneAgent : Prop :=
  ∀ (s u : State) (x : Turn) (rest : List Turn), halted s = false → s.turns = some (x :: rest) → u = { s with turns := some rest } →
    ((∀ k, s.seq ≠ .word k) →
      (∀ a b, x = .pins a b → step s = exec (.envPins a b) u) ∧ (∀ v, x = .btn v → step s = exec (.envBtn v) u)) ∧
    (x = .own ∨ (∃ k, s.seq = .word k) → dispatchEnabled s = true →
      ∃ e p, exec .encEdge u = .next e ∧ step s = .next { e with ipend := false, place := p } ∧
        ((∀ ran later shown, s.place ≠ .gap ran later shown) → p = s.place) ∧
        (∀ ran later shown, s.place = .gap ran later shown → p = .gap true later shown))

/-- At the pace of single turns main context's turn goes from one preemption point to the next (rules R124, R125, R127, R152, R226; the pace
is the model's, log 31). In PL.TX, called by a script or by SHOW: the first turn of a frame, or of a pixel under MASK_SCOPE = PIXEL, saves and
clears IE and sends the first bit; a later turn sends one bit; the turn of the last bit restores IE and, where no pixel is left, sets LOWED;
GAP goes out with the next pixel's first bit. Of a script's configure every turn writes one register, of an entry action's every turn from
the second write on. PL.LATCH, by a script or by SHOW, drives the line low and waits; the turn after the delay sends its symbol and ends it.
That the mask goes in one turn with the first bit, and IE, LOWED and the move of SEQ with an operation's last part, is the grouping of log 30
(DEDUCED from R226); the one GAP that goes with the next pixel is log 21's reading. -/
def Obligations.MainContextGoesPointByPoint : Prop :=
  ∀ (s u : State) (rest : List Turn), halted s = false → s.turns = some (.own :: rest) → u = { s with turns := some rest } →
    dispatchEnabled s = false →
    (∀ shown, (shown = false ∧ AtWord .plTx s) ∨ (shown = true ∧ s.place = .loaded) → s.lowed = false → (∀ i : Fin 8, s.fbw[i] = true) →
      (s.params.maskScope = .frame →
        step s = .next { u with wire := s.wire ++ (frameSymbols s.fb).take 1, dout := false, ie := false,
                                place := .sending ((frameBits s.fb).drop 1) [] s.ie shown }) ∧
      (s.params.maskScope = .pixel →
        step s = .next { u with wire := s.wire ++ (pixelSymbols s.fb[0]).take 1, dout := false, ie := false,
                                place := .sending ((pixelBits s.fb[0]).drop 1) (s.fb.toList.drop 1) s.ie shown })) ∧
    (∀ b bits later saved shown, s.place = .sending (b :: bits) later saved shown → bits ≠ [] →
      step s = .next { u with wire := s.wire ++ [bitSymbol b], dout := false, place := .sending bits later saved shown }) ∧
    (∀ b saved shown, s.place = .sending [b] [] saved shown →
      step s = .next { u with wire := s.wire ++ [bitSymbol b], dout := false, ie := saved, lowed := true,
                              place := if shown then .sent else .between, seq := if shown then s.seq else s.seq.after }) ∧
    (∀ b w later saved shown, s.place = .sending [b] (w :: later) saved shown →
      step s = .next { u with wire := s.wire ++ [bitSymbol b], dout := false, ie := saved, place := .gap false (w :: later) shown }) ∧
    (∀ ran w later shown, s.place = .gap ran (w :: later) shown →
      step s = .next { u with wire := s.wire ++ (if ran then [.gap] else []) ++ (pixelSymbols w).take 1, dout := false, ie := false,
                              place := .sending ((pixelBits w).drop 1) later s.ie shown }) ∧
    (∀ r todo mn mx st ini w,
      s.place = .configuring (r :: todo) mn mx st ini w ∨ (AtWord (.encCfg mn mx st ini w) s ∧ s.params.cfgOrder.writes = r :: todo) →
      step s = .next { u with pos := if r = .pos then doubled ini else s.pos, imin := if r = .imin then doubled mn else s.imin,
                              imax := if r = .imax then doubled mx else s.imax,
                              encStep := if r = .step then BitVec.ofInt 8 st else s.encStep, wrap := if r = .wrap then w else s.wrap,
                              place := if todo = [] then .between else .configuring todo mn mx st ini w,
                              seq := if todo = [] then s.seq.after else s.seq }) ∧
    (AtWord .plLatch s ∨ s.place = .sent → step s = .next { u with dout := false, place := .latching }) ∧
    (s.place = .latching →
      ∃ t, step s = .next t ∧ t = { u with wire := s.wire ++ [.latch], dout := false, lowed := false, displayed := t.displayed,
                                           place := .between, seq := s.seq.after })

/-- Every whole-operation step is a run of single turns from the same state: some list of turns of the block and the environment leads
through the operation's places to the state the step answers, with the schedule left and the list used up (rules R81, R215, R225, R226;
the two paces are the model's, logs 2, 3 and 31). -/
def Obligations.WholeStepIsRunOfTurns : Prop :=
  ∀ s t : State, WholePace s → step s = .next t →
    ∃ l : List Turn, steps l.length { s with turns := some l } = some { t with sched := s.sched, turns := some [] }

/-! Encoder -/

/-- The edge handler, in its three cases, with the whole frame; the position of a confirmed step is BOUND of the sum, computed
exactly (rules R142 to R147, R149). -/
def Obligations.EdgeHandlerEffect : Prop :=
  ∀ s : State,
    (s.pinA = s.la → exec .encEdge s = .next s) ∧
    (s.pinA ≠ s.la → s.pinB = s.lb → exec .encEdge s = .next { s with la := s.pinA }) ∧
    (s.pinA ≠ s.la → s.pinB ≠ s.lb →
      ∃ t, exec .encEdge s = .next t ∧ t = { s with la := s.pinA, lb := s.pinB, leq := t.leq, pos := t.pos } ∧
        (t.leq = true ↔ s.pinA = s.pinB) ∧
        ∀ d p : Int, d = (if s.pinA = s.pinB then -s.encStep.toInt else s.encStep.toInt) →
          p = s.pos.toInt + d + (if t.leq = s.leq then 0 else d) →
            (s.imax.toInt < p → t.pos = if s.wrap then s.imin else s.imax) ∧
            (p ≤ s.imax.toInt → p < s.imin.toInt → t.pos = if s.wrap then s.imax else s.imin) ∧
            (p ≤ s.imax.toInt → s.imin.toInt ≤ p → t.pos.toInt = p))

/-- A confirmed step leaves the position within ordered bounds, wherever it was before (rules R27, R147, R159). -/
def Obligations.ConfirmedStepRestoresBounds : Prop :=
  ∀ s : State, s.imin.toInt ≤ s.imax.toInt → s.pinA ≠ s.la → s.pinB ≠ s.lb →
    ∃ t, exec .encEdge s = .next t ∧ s.imin.toInt ≤ t.pos.toInt ∧ t.pos.toInt ≤ s.imax.toInt

/-- One detent from a steady history moves POS by twice STEP in its direction and ends in that direction's steady history, when no
bound is reached; the reversals too (rule R150). -/
def Obligations.DetentMovesTwoSteps : Prop :=
  ∀ s : State, s.pinA = false → s.pinB = false → (history s = hCw ∨ history s = hCcw) →
    (s.imin.toInt ≤ s.pos.toInt → s.pos.toInt ≤ s.imax.toInt →
      s.imin.toInt ≤ s.pos.toInt + 2 * s.encStep.toInt → s.pos.toInt + 2 * s.encStep.toInt ≤ s.imax.toInt →
        (edgesRun cwLines s).pos.toInt = s.pos.toInt + 2 * s.encStep.toInt ∧ history (edgesRun cwLines s) = hCw) ∧
    (s.imin.toInt ≤ s.pos.toInt → s.pos.toInt ≤ s.imax.toInt →
      s.imin.toInt ≤ s.pos.toInt - 2 * s.encStep.toInt → s.pos.toInt - 2 * s.encStep.toInt ≤ s.imax.toInt →
        (edgesRun ccwLines s).pos.toInt = s.pos.toInt - 2 * s.encStep.toInt ∧ history (edgesRun ccwLines s) = hCcw)

/-- The read appends one value to READS and changes nothing else; for a position in the range configure and the handler keep, the
value is the halved position under GET_DIV, and the two divisions read the same value of every position that is not negative
(rules R10, R151). -/
def Obligations.GetReadsHalfThePosition : Prop :=
  ∀ s : State, exec .encGet s = .next { s with reads := s.reads ++ [position s] } ∧
    (InRange s.pos →
      (s.params.getDiv = .trunc → (position s).toInt = s.pos.toInt.tdiv 2) ∧
      (s.params.getDiv = .floor → (position s).toInt = s.pos.toInt.fdiv 2)) ∧
    (0 ≤ s.pos.toInt → ∀ d d' : GetDiv,
      position { s with params := { s.params with getDiv := d } } = position { s with params := { s.params with getDiv := d' } })

/-- A configure that nothing interrupts writes the five registers, in whatever order, and nothing else (rules R152, R155). -/
def Obligations.ConfigureAloneWritesFive : Prop :=
  ∀ (s : State) (min max step init : Int) (w : Bool), Alone s → InInt8 min → InInt8 max → InInt8 step → InInt8 init →
    ∃ t, exec (.encCfg min max step init w) s = .next t ∧
      t = { s with pos := t.pos, imin := t.imin, imax := t.imax, encStep := t.encStep, wrap := w } ∧
      t.pos.toInt = 2 * init ∧ t.imin.toInt = 2 * min ∧ t.imax.toInt = 2 * max ∧ t.encStep.toInt = step

/-- A configure completes under every interference of the other agents; the bounds, step and wrap flag end as written, and so does
the position when POS is written last (rules R78, R152, R257). -/
def Obligations.ConfigureUnderInterference : Prop :=
  ∀ (s : State) (min max step init : Int) (w : Bool), InInt8 min → InInt8 max → InInt8 step → InInt8 init →
    ∃ t, exec (.encCfg min max step init w) s = .next t ∧ EncoderOnly s t ∧
      t.imin.toInt = 2 * min ∧ t.imax.toInt = 2 * max ∧ t.encStep.toInt = step ∧ t.wrap = w ∧
      (PosLast s.params.cfgOrder → t.pos.toInt = 2 * init)

/-! PixelLink -/

/-- PL.LOAD writes one entry and its mark, leaves the other seven, and changes nothing else (rule R123). -/
def Obligations.LoadWritesOneEntry : Prop :=
  ∀ (s : State) (idx : Fin 8) (pixel : Pixel),
    ∃ t, exec (.plLoad idx pixel) s = .next t ∧ t = { s with fb := t.fb, fbw := t.fbw } ∧
      t.fb[idx] = pixel ∧ t.fbw[idx] = true ∧ ∀ j : Fin 8, j ≠ idx → t.fb[j] = s.fb[j] ∧ t.fbw[j] = s.fbw[j]

/-- PL.TX under MASK_SCOPE = FRAME: a written frame with no latch owed goes out as the 192 symbols of the frame, LOWED is set, IE
is as before, a pending flag stays; no handler runs inside, and in script mode nothing else changes at all
(rules R93, R124, R126, R128). -/
def Obligations.TransmitSendsTheFrame : Prop :=
  ∀ s : State, s.params.maskScope = .frame → s.lowed = false → (∀ i : Fin 8, s.fbw[i] = true) →
    ∃ t, exec .plTx s = .next t ∧ t.wire = s.wire ++ frameSymbols s.fb ∧
      EnvOnly { s with wire := t.wire, lowed := true, dout := false } t ∧ (s.ipend = true → t.ipend = true) ∧
      ((∃ k, s.seq = .word k) → t = { s with wire := t.wire, lowed := true, dout := false })

/-- PL.TX under MASK_SCOPE = PIXEL: the eight pixels go out in order, with at most one GAP between two of them, and IE is as before.
There is none when main context is alone or interrupts are masked; in script mode with IE and IPEND set, the pending handler runs after the
first pixel and leaves the GAP there, and no other (rule R127; one GAP however many handler runs fall there, log 21). -/
def Obligations.TransmitPerPixel : Prop :=
  ∀ s : State, s.params.maskScope = .pixel → s.lowed = false → (∀ i : Fin 8, s.fbw[i] = true) →
    ∃ t gaps, exec .plTx s = .next t ∧ IsGaps gaps ∧ t.wire = s.wire ++ gappedFrame gaps s.fb ∧
      OthersOnly { s with wire := t.wire, lowed := true, dout := false } t ∧
      (Alone s ∨ s.ie = false → t.wire = s.wire ++ frameSymbols s.fb) ∧
      ((∃ k, s.seq = .word k) → s.ie = true → s.ipend = true → gaps = [.gap] :: List.replicate 6 [] ∧ t.ipend = false)

/-- PL.TX with a latch owed, and else with an entry never written, records its fault at its site and changes nothing else
(rules R124, R221, R231, R232; the fault is a next state that records it, log 14). -/
def Obligations.TransmitFaults : Prop :=
  ∀ s : State,
    (s.lowed = true → exec .plTx s = .next { s with faults := s.faults.insert (.latchMissing, s.seq) }) ∧
    (s.lowed = false → (∃ i : Fin 8, s.fbw[i] = false) →
      exec .plTx s = .next { s with faults := s.faults.insert (.unwrittenFrame, s.seq) })

/-- PL.LATCH appends one LATCH symbol, drives the line low and clears LOWED, also with no latch owed; handlers may run in the delay
(rule R125). -/
def Obligations.LatchAppendsOneSymbol : Prop :=
  ∀ s : State, ∃ t, exec .plLatch s = .next t ∧ t.wire = s.wire ++ [.latch] ∧
    OthersOnly { s with wire := t.wire, dout := false, lowed := false, displayed := t.displayed } t ∧
    (s.ie = false → EnvOnly { s with wire := t.wire, dout := false, lowed := false, displayed := t.displayed } t)

/-- With the rail on, a frame and its latch show the frame buffer's eight words, a second latch keeps them, and a latch on a dark
rail shows nothing specified (rule R129, conflict C16; `none` for unspecified is the model's, log 20). -/
def Obligations.LatchedFrameIsDisplayed : Prop :=
  ∀ s : State, s.params.maskScope = .frame → s.lowed = false → (∀ i : Fin 8, s.fbw[i] = true) → segment s.wire = [] →
    ∃ t u v, exec .plTx s = .next t ∧ exec .plLatch t = .next u ∧ exec .plLatch u = .next v ∧
      (s.rail = true → u.displayed = some s.fb.toList ∧ v.displayed = u.displayed) ∧ (s.rail = false → u.displayed = none)

/-- A latch that ends a non-empty segment which is not exactly 192 bit symbols, a segment with a GAP among them, shows nothing specified;
an empty segment is no such case (rules R127, R129; `none` for unspecified is the model's, log 20). -/
def Obligations.BrokenSegmentIsUnspecified : Prop :=
  ∀ s : State, segment s.wire ≠ [] → ((segment s.wire).length ≠ 192 ∨ Symbol.gap ∈ segment s.wire) →
    ∃ t, exec .plLatch s = .next t ∧ t.displayed = none

/-! Controller -/

/-- CTL.RAIL sets the rail; the display is unspecified while the rail is off (rules R129, R173; `none` for unspecified is the
model's, log 20). -/
def Obligations.RailIsSet : Prop :=
  ∀ (s : State) (v : Bool), ∃ t, exec (.ctlRail v) s = .next t ∧ t = { s with rail := v, displayed := t.displayed } ∧
    (v = false → t.displayed = none) ∧ (v = true → t.displayed = s.displayed)

/-- CTL.ADV adds one to the state's code modulo 4 and changes nothing else; four of them return to the start
(rules R29, R174). -/
def Obligations.AdvanceCyclesTheState : Prop :=
  ∀ s : State, ∃ t₁ t₂ t₃ t₄, exec .ctlAdv s = .next t₁ ∧ exec .ctlAdv t₁ = .next t₂ ∧ exec .ctlAdv t₂ = .next t₃ ∧
    exec .ctlAdv t₃ = .next t₄ ∧ t₁ = { s with state := t₁.state } ∧
    t₁.state.code.toNat = (s.state.code.toNat + 1) % 4 ∧ t₄ = s

/-- The entry action of OFF turns the rail off and changes nothing else but what the LEDs show, the Encoder's configuration included;
the entry action of ANIMATE changes nothing (rules R176, R178). -/
def Obligations.EntryOffAndAnimate : Prop :=
  ∀ s : State,
    (s.state = .off → ∃ t, exec .ctlEntry s = .next t ∧ t = { s with rail := false, displayed := t.displayed }) ∧
    (s.state = .animate → exec .ctlEntry s = .next s)

/-- The entry action of WHITE: the rail on, the Encoder configured to [2, 15], step 1, no wrap, at the current brightness
(rules R177, R257). -/
def Obligations.EntryWhiteConfigures : Prop :=
  ∀ s : State, s.state = .white →
    ∃ t, exec .ctlEntry s = .next t ∧ EncoderOnly { s with rail := true } t ∧ WhiteCfg t ∧
      (Alone s ∨ PosLast s.params.cfgOrder → t.pos.toInt = 2 * s.bright.toInt) ∧ (Alone s → history t = history s)

/-- The entry action of SOLID: the Encoder configured to [0, 48], step 1, wrap, at the current hue, the rail untouched
(rules R179, R257). -/
def Obligations.EntrySolidConfigures : Prop :=
  ∀ s : State, s.state = .solid →
    ∃ t, exec .ctlEntry s = .next t ∧ EncoderOnly s t ∧ SolidCfg t ∧
      (Alone s ∨ PosLast s.params.cfgOrder → t.pos.toInt = 2 * s.hue.toInt) ∧ (Alone s → history t = history s)

/-- The OFF tick with the button pressed changes nothing (rule R181). -/
def Obligations.TickOffPassesWhenPressed : Prop :=
  ∀ s : State, s.state = .off → s.pinBtn = true → exec .ctlTick s = .next s

/-- The WHITE tick stores the read position as the brightness and shows eight pixels of that white, whatever the other agents do: one frame
and one latch on the wire, the frame with at most one GAP between two pixels under MASK_SCOPE = PIXEL (rules R127, R172,
R182; one GAP however many handler runs fall there, log 21). -/
def Obligations.TickWhiteShowsBrightness : Prop :=
  ∀ (s : State) (b : Fin 16), s.state = .white → s.lowed = false → (position s).toInt = b.val →
    ∃ t, exec .ctlTick s = .next t ∧ FrameIs (fun _ => Config.white b) t ∧
      OthersOnly { s with bright := position s, reads := s.reads ++ [position s], fb := t.fb, fbw := t.fbw, wire := t.wire,
                          dout := false, displayed := t.displayed } t ∧
      FrameShown s t

/-- The WHITE tick on a value outside 0..15 stores it, records ColourDomain and sends nothing (rules R182, R193, R232; log 14). -/
def Obligations.TickWhiteFaultsOutsideDomain : Prop :=
  ∀ s : State, s.state = .white → ((position s).toInt < 0 ∨ 15 < (position s).toInt) →
    ∃ t, exec .ctlTick s = .next t ∧
      OthersOnly { s with bright := position s, reads := s.reads ++ [position s],
                          faults := s.faults.insert (.colourDomain, s.seq) } t

/-- The ANIMATE tick below the count counts and idles: no frame (rule R183). -/
def Obligations.TickAnimateIdles : Prop :=
  ∀ s : State, s.state = .animate → ((s.acnt + 1).toNat : Int) < (position s).toInt →
    ∃ t, exec .ctlTick s = .next t ∧ OthersOnly { s with acnt := s.acnt + 1, reads := s.reads ++ [position s] } t

/-- The ANIMATE tick at or past the count clears it, advances the phase modulo 48 and shows eight pixels at hues six apart, at the
retained brightness: one frame and one latch on the wire, the frame with at most one GAP between two pixels under MASK_SCOPE = PIXEL
(rules R127, R172, R183; one GAP however many handler runs fall there, log 21). -/
def Obligations.TickAnimateAdvances : Prop :=
  ∀ (s : State) (b : Fin 16), s.state = .animate → s.lowed = false → s.bright.toInt = b.val →
    (position s).toInt ≤ ((s.acnt + 1).toNat : Int) →
      ∃ (t : State) (hue : Fin 8 → Fin 49), exec .ctlTick s = .next t ∧ t.aphase.val = (s.aphase.val + 1) % 48 ∧
        (∀ i, (hue i).val = (t.aphase.val + 6 * i.val) % 48) ∧ FrameIs (fun i => Config.hue2rgb (hue i) b) t ∧
        OthersOnly { s with acnt := 0, aphase := t.aphase, reads := s.reads ++ [position s], fb := t.fb, fbw := t.fbw,
                            wire := t.wire, dout := false, displayed := t.displayed } t ∧
        FrameShown s t

/-- The ANIMATE tick that advances with a brightness outside 0..15 records ColourDomain after the count and the phase are written,
and sends nothing (rules R183, R193, R232; log 14). -/
def Obligations.TickAnimateFaultsOutsideDomain : Prop :=
  ∀ s : State, s.state = .animate → (s.bright.toInt < 0 ∨ 15 < s.bright.toInt) →
    (position s).toInt ≤ ((s.acnt + 1).toNat : Int) →
      ∃ t, exec .ctlTick s = .next t ∧ t.aphase.val = (s.aphase.val + 1) % 48 ∧
        OthersOnly { s with acnt := 0, aphase := t.aphase, reads := s.reads ++ [position s],
                            faults := s.faults.insert (.colourDomain, s.seq) } t

/-- The SOLID tick stores the read position as the hue and shows eight pixels of that hue at the retained brightness: one frame and one
latch on the wire, the frame with at most one GAP between two pixels under MASK_SCOPE = PIXEL (rules R127, R172, R184; one
GAP however many handler runs fall there, log 21). -/
def Obligations.TickSolidShowsHue : Prop :=
  ∀ (s : State) (h : Fin 49) (b : Fin 16), s.state = .solid → s.lowed = false → (position s).toInt = h.val →
    s.bright.toInt = b.val →
      ∃ t, exec .ctlTick s = .next t ∧ FrameIs (fun _ => Config.hue2rgb h b) t ∧
        OthersOnly { s with hue := position s, reads := s.reads ++ [position s], fb := t.fb, fbw := t.fbw, wire := t.wire,
                            dout := false, displayed := t.displayed } t ∧
        FrameShown s t

/-- The SOLID tick with a hue outside 0..48 or a brightness outside 0..15 stores the hue, records ColourDomain once and sends
nothing (rules R184, R193, R232; log 14). -/
def Obligations.TickSolidFaultsOutsideDomain : Prop :=
  ∀ s : State, s.state = .solid →
    ((position s).toInt < 0 ∨ 48 < (position s).toInt ∨ s.bright.toInt < 0 ∨ 15 < s.bright.toInt) →
      ∃ t, exec .ctlTick s = .next t ∧
        OthersOnly { s with hue := position s, reads := s.reads ++ [position s],
                            faults := s.faults.insert (.colourDomain, s.seq) } t

/-- A tick never records UnwrittenFrame, and LatchMissing only where a script left a latch owed. There a tick that shows a frame stores what
it read, makes its eight loads, records LatchMissing at its site and sends nothing (rules R124, R172, R232; the model's reading of R180
against R124, log 19; the fault is a next state that records it, log 14). -/
def Obligations.TicksLoadBeforeTheySend : Prop :=
  ∀ s : State,
    (∀ t, exec .ctlTick s = .next t →
      (∀ p, (FaultKind.unwrittenFrame, p) ∈ t.faults → (FaultKind.unwrittenFrame, p) ∈ s.faults) ∧
      (s.lowed = false → t.lowed = false ∧ ∀ p, (FaultKind.latchMissing, p) ∈ t.faults → (FaultKind.latchMissing, p) ∈ s.faults) ∧
      (s.lowed = true → t.wire = s.wire)) ∧
    (s.lowed = true → ∀ pix, TickShows s pix →
      ∃ t, exec .ctlTick s = .next t ∧ FrameIs pix t ∧
        OthersOnly { s with bright := if s.state = .white then position s else s.bright,
                            hue := if s.state = .solid then position s else s.hue,
                            acnt := if s.state = .animate then 0 else s.acnt,
                            aphase := if s.state = .animate then nextPhase s.aphase else s.aphase,
                            reads := s.reads ++ [position s], fb := t.fb, fbw := t.fbw,
                            faults := s.faults.insert (.latchMissing, s.seq) } t)

/-! System and environment -/

/-- SYS.CLI and SYS.SEI write IE and nothing else, IPEND included (rules R211, R212); ENV.BTN sets the button and nothing else, and is no
interrupt source (rule R214). -/
def Obligations.MaskAndButtonWriteOneRegister : Prop :=
  ∀ s : State, exec .sysCli s = .next { s with ie := false } ∧ exec .sysSei s = .next { s with ie := true } ∧
    ∀ v, exec (.envBtn v) s = .next { s with pinBtn := v }

/-- ENV.PINS sets both lines and sets IPEND exactly on a change; levels the lines already have change nothing (rule R213). -/
def Obligations.PinChangeSetsPending : Prop :=
  ∀ (s : State) (a b : Bool),
    (a ≠ s.pinA ∨ b ≠ s.pinB → exec (.envPins a b) s = .next { s with pinA := a, pinB := b, ipend := true }) ∧
    (a = s.pinA → b = s.pinB → exec (.envPins a b) s = .next s)

/-- Any number of line changes leave one pending flag, and the one dispatch that follows samples the lines as they then are
(rule R230). -/
def Obligations.PendingEdgesCollapse : Prop :=
  ∀ (s : State) (ps : List (Bool × Bool)) (a b : Bool), halted s = false → WholePace s → (∃ k, s.seq = .word k) → s.ie = true →
    (a ≠ s.pinA ∨ b ≠ s.pinB) →
      ∃ u e, u = ps.foldl (fun t x => setPins x.1 x.2 t) (setPins a b s) ∧ u.ipend = true ∧ exec .encEdge u = .next e ∧
        step u = .next { e with ipend := false } ∧ dispatchEnabled { e with ipend := false } = false

/-- An edge that came while interrupts were masked is not lost: SYS.SEI leaves the flag, and the very next step is the handler's run,
before the next word (rules R212, R225). -/
def Obligations.DeferredEdgeRunsAfterSei : Prop :=
  ∀ (s : State) (k : Nat) (w : CommandWord), halted s = false → WholePace s → s.ie = false → s.ipend = true → s.seq = .word k →
    s.program[k]? = some w → decode w = .ok .sysSei →
      ∃ t u e, step s = .next t ∧ t = { s with ie := true, seq := .word (k + 1) } ∧ exec .encEdge t = .next e ∧
        step t = .next u ∧ u = { e with ipend := false } ∧ u.seq = .word (k + 1) ∧ u.ie = true

/-- With interrupts masked no handler runs inside an operation: only the operations that write them change the Encoder's position
and history (rules R82, R224). -/
def Obligations.MaskedOperationsRunNoHandler : Prop :=
  ∀ (i : Instr) (s t : State), s.ie = false → exec i s = .next t →
    (i ≠ .encEdge → history t = history s) ∧
    (i ≠ .encEdge → i ≠ .ctlEntry → (∀ mn mx st ini w, i ≠ .encCfg mn mx st ini w) → t.pos = s.pos)

/-- In script mode the inputs are the script's: an operation other than ENV.PINS leaves both lines alone and never sets IPEND, which it
can only clear, by a handler run; one other than ENV.BTN leaves the button alone, also inside ENC.CFG, CTL.ENTRY, CTL.TICK, PL.LATCH and a
PL.TX sent pixel by pixel, and with a dispatch enabled; the schedule is not used (rules R42, R217). -/
def Obligations.ScriptInputsStay : Prop :=
  ∀ (i : Instr) (s t : State), (∃ k, s.seq = .word k) → exec i s = .next t →
    ((∀ a b, i ≠ .envPins a b) → t.pinA = s.pinA ∧ t.pinB = s.pinB ∧ (t.ipend = true → s.ipend = true) ∧
      (s.ie = false → t.ipend = s.ipend)) ∧
    ((∀ v, i ≠ .envBtn v) → t.pinBtn = s.pinBtn) ∧ t.sched = s.sched

/-- The write columns of the access matrix, for every operation: a register changes only by an operation the matrix lets write it. For
POS, the edge history, the pending flag and the inputs, which the interrupt context and the environment write too, the columns are stated
where main context is alone (rules R28, R47, R189); SEQ, REFUSED, the script and the parameters no operation writes. -/
def Obligations.OnlyTheseOperationsWrite : Prop :=
  ∀ (i : Instr) (s t : State), exec i s = .next t →
    (t.state ≠ s.state → i = .ctlAdv) ∧
    (t.bright ≠ s.bright → i = .ctlTick ∧ s.state = .white) ∧
    (t.hue ≠ s.hue → i = .ctlTick ∧ s.state = .solid) ∧
    (t.acnt ≠ s.acnt ∨ t.aphase ≠ s.aphase → i = .ctlTick ∧ s.state = .animate) ∧
    (t.rail ≠ s.rail → (∃ v, i = .ctlRail v) ∨ i = .ctlEntry) ∧
    (t.encStep ≠ s.encStep ∨ t.imin ≠ s.imin ∨ t.imax ≠ s.imax ∨ t.wrap ≠ s.wrap →
      (∃ mn mx st ini w, i = .encCfg mn mx st ini w) ∨ i = .ctlEntry) ∧
    (t.fb ≠ s.fb ∨ t.fbw ≠ s.fbw → (∃ idx px, i = .plLoad idx px) ∨ i = .ctlTick) ∧
    (t.wire ≠ s.wire ∨ t.lowed ≠ s.lowed ∨ t.dout ≠ s.dout → i = .plTx ∨ i = .plLatch ∨ i = .ctlTick) ∧
    (t.ie ≠ s.ie → i = .sysCli ∨ i = .sysSei) ∧
    (t.reads ≠ s.reads → i = .encGet ∨ i = .ctlTick) ∧
    (t.faults ≠ s.faults → i = .plTx ∨ i = .ctlTick) ∧
    (t.displayed ≠ s.displayed → i = .plLatch ∨ i = .ctlTick ∨ (∃ v, i = .ctlRail v) ∨ i = .ctlEntry) ∧
    t.seq = s.seq ∧ t.refused = s.refused ∧ t.program = s.program ∧ t.params = s.params ∧
    (Alone s →
      (t.pos ≠ s.pos → i = .encEdge ∨ (∃ mn mx st ini w, i = .encCfg mn mx st ini w) ∨ i = .ctlEntry) ∧
      (history t ≠ history s → i = .encEdge) ∧
      (t.ipend ≠ s.ipend ∨ t.pinA ≠ s.pinA ∨ t.pinB ≠ s.pinB → ∃ a b, i = .envPins a b) ∧
      (t.pinBtn ≠ s.pinBtn → ∃ v, i = .envBtn v))

/-! Power-on and invariants -/

/-- The power-on values the spec gives, for every draw, in both modes (rules R46, R250, R252, R254). -/
def Obligations.PowerOnValues : Prop :=
  ∀ (d : Draws) (p : Params) (program : List CommandWord) (sched : List (List Move)) (s : State),
    (s = State.launch d p sched ∨ s = State.launchScript d p program) →
      s.state = .off ∧ s.bright.toInt = 5 ∧ s.hue.toInt = 0 ∧ s.aphase.val = 0 ∧ s.acnt.toNat = 0 ∧ s.rail = false ∧
      (∀ i : Fin 8, s.fbw[i] = false) ∧ s.dout = false ∧ s.wire = [] ∧ s.lowed = false ∧ s.ipend = false ∧ s.reads = [] ∧
      s.faults = [] ∧ s.refused = none ∧ (s = State.launch d p sched → s.seq = .boot) ∧
      (s = State.launchScript d p program → s.seq = .word 0 ∧ s.ie = true)

/-- BOOT clears the pending flag, enables interrupts and goes to the entry action whatever the environment did before, and changes
nothing else; with a quiet environment the entry action then leaves the rail off and every register as it was
(rules R251, R252; that IE is 0 before BOOT and that BOOT writes no other register are the model's, logs 6 and 25). -/
def Obligations.BootReachesPollInOff : Prop :=
  ∀ (d : Draws) (p : Params) (sched : List (List Move)),
    (∃ t, step (State.launch d p sched) = .next t ∧ t.ipend = false ∧
      EnvOnly { State.launch d p sched with ie := true, seq := .entry } t) ∧
    ∃ t, step (State.launch d p []) = .next t ∧ step t = .next { State.launch d p [] with ie := true, seq := .poll }

/-- The invariants hold at every power-on, at either pace: the machine's at every legal draw in both modes, the reset state among them,
and the two of autonomous mode at every draw, the Controller's where configure writes POS last. -/
def Obligations.InvariantsAtPowerOn : Prop :=
  Inv State.reset ∧
  ∀ (d : Draws) (p : Params) (program : List CommandWord) (sched : List (List Move)) (turns : Option (List Turn)),
    (d.legal → Inv { State.launch d p sched with turns := turns } ∧ Inv { State.launchScript d p program with turns := turns }) ∧
    AutonomousInv { State.launch d p sched with turns := turns } ∧
    (PosLast p.cfgOrder → ControllerInv { State.launch d p sched with turns := turns })

/-- Every step of either mode, at either pace, keeps the invariant, in the states between two operations and in those inside one: the range
lemma, the ANIMATE count, the idle line, masked bit steps, a wire of whole frames, and nothing specified shown with the rail off. So does
every state of a run, each of which the power supply may make the last (rules R36, R38, R93, R124, R126, R129, R153, R183, R218). -/
def Obligations.InvIsKept : Prop :=
  ∀ s t : State, Inv s → (step s = .next t → Inv t) ∧ (ReachedFrom s t → Inv t)

/-- Every autonomous step, at either pace, keeps interrupts enabled but for the bit steps of PL.TX and keeps the rail and the Encoder's
configuration those of the Controller state, whatever the environment does (rules R179, R188, R191, R192). -/
def Obligations.AutonomousInvIsKept : Prop :=
  ∀ s t : State, AutonomousInv s → step s = .next t → AutonomousInv t

/-- When configure writes POS last, no environment can make the autonomous machine fault: every step from the Controller's ranges, at
either pace and from every place inside an operation, answers a next state in the Controller's ranges (rules R172, R189, R257). A step at
a blocked OFF wait is among them: there main context takes no step, and that the answer is a next state at the same point is the model's
DESIGN CHOICE, log 16. -/
def Obligations.ControllerNeverFaults : Prop :=
  ∀ s : State, ControllerInv s → ∃ t, step s = .next t ∧ ControllerInv t

/-- No step writes the script or the launch parameters (rules R45, R84). -/
def Obligations.ScriptAndParametersAreFixed : Prop :=
  ∀ s t : State, step s = .next t → t.program = s.program ∧ t.params = s.params

/-- A step adds to the trace and the reads at their ends only; it records at most one fault or refusal, with SEQ as its site, and
SEQ stays there (rules R37, R43, R221, R222, R231; that the state with the record is a next state is the model's choice, logs 14 and
15). -/
def Obligations.RecordsGrowAndNameTheirSite : Prop :=
  ∀ s t : State, step s = .next t →
    s.wire <+: t.wire ∧ s.reads <+: t.reads ∧
      (halted t = true → t.seq = s.seq ∧
        ((∃ k, t.faults = [(k, s.seq)] ∧ t.refused = none) ∨ (∃ r, t.faults = [] ∧ t.refused = some (r, s.seq))))
end

