-- ==== Sys2Proof/Laws/State.lean ====
section
/-! SUPPORT. The relations that say what an operation leaves unchanged: reflexive, transitive, and each weaker than the next. The field
lemmas of the plain updates (setIe, setPins, emit, raise and the others) are made at their definitions by simps and are simp
lemmas there. -/

namespace Sys2Proof.Machine

variable {s t u : State}

theorem EncoderOnly.refl (s : State) : EncoderOnly s s :=
    ⟨rfl, rfl, rfl, rfl, rfl, rfl, rfl, rfl, rfl, rfl, rfl, rfl, rfl, rfl, rfl, rfl, rfl, rfl, rfl, rfl, rfl⟩

theorem EncoderOnly.trans (h : EncoderOnly s t) (h' : EncoderOnly t u) : EncoderOnly s u :=
    ⟨h'.state.trans h.state, h'.bright.trans h.bright, h'.hue.trans h.hue, h'.aphase.trans h.aphase, h'.acnt.trans
    h.acnt, h'.rail.trans h.rail, h'.fb.trans h.fb, h'.fbw.trans h.fbw, h'.dout.trans h.dout, h'.wire.trans h.wire,
    h'.lowed.trans h.lowed, h'.ie.trans h.ie, h'.seq.trans h.seq, h'.reads.trans h.reads, h'.faults.trans h.faults,
    h'.refused.trans h.refused, h'.program.trans h.program, h'.displayed.trans h.displayed, h'.params.trans h.params,
    h'.place.trans h.place, h'.turns.trans h.turns⟩

theorem OthersOnly.refl (s : State) : OthersOnly s s :=
    ⟨rfl, rfl, rfl, rfl, rfl, rfl, rfl, rfl, rfl, rfl, rfl, rfl, rfl, rfl, rfl, rfl, rfl, rfl, rfl, rfl, rfl, rfl,
    rfl, rfl, rfl⟩

theorem OthersOnly.trans (h : OthersOnly s t) (h' : OthersOnly t u) : OthersOnly s u :=
    ⟨h'.encStep.trans h.encStep, h'.imin.trans h.imin, h'.imax.trans h.imax, h'.wrap.trans h.wrap, h'.state.trans
    h.state, h'.bright.trans h.bright, h'.hue.trans h.hue, h'.aphase.trans h.aphase, h'.acnt.trans h.acnt,
    h'.rail.trans h.rail, h'.fb.trans h.fb, h'.fbw.trans h.fbw, h'.dout.trans h.dout, h'.wire.trans h.wire,
    h'.lowed.trans h.lowed, h'.ie.trans h.ie, h'.seq.trans h.seq, h'.reads.trans h.reads, h'.faults.trans h.faults,
    h'.refused.trans h.refused, h'.program.trans h.program, h'.displayed.trans h.displayed, h'.params.trans h.params,
    h'.place.trans h.place, h'.turns.trans h.turns⟩

theorem EnvOnly.refl (s : State) : EnvOnly s s :=
    ⟨rfl, rfl, rfl, rfl, rfl, rfl, rfl, rfl, rfl, rfl, rfl, rfl, rfl, rfl, rfl, rfl, rfl, rfl, rfl, rfl, rfl, rfl,
    rfl, rfl, rfl, rfl, rfl, rfl, rfl⟩

theorem EnvOnly.trans (h : EnvOnly s t) (h' : EnvOnly t u) : EnvOnly s u :=
    ⟨h'.pos.trans h.pos, h'.la.trans h.la, h'.lb.trans h.lb, h'.leq.trans h.leq, h'.encStep.trans h.encStep,
    h'.imin.trans h.imin, h'.imax.trans h.imax, h'.wrap.trans h.wrap, h'.state.trans h.state, h'.bright.trans
    h.bright, h'.hue.trans h.hue, h'.aphase.trans h.aphase, h'.acnt.trans h.acnt, h'.rail.trans h.rail, h'.fb.trans
    h.fb, h'.fbw.trans h.fbw, h'.dout.trans h.dout, h'.wire.trans h.wire, h'.lowed.trans h.lowed, h'.ie.trans h.ie,
    h'.seq.trans h.seq, h'.reads.trans h.reads, h'.faults.trans h.faults, h'.refused.trans h.refused, h'.program.trans
    h.program, h'.displayed.trans h.displayed, h'.params.trans h.params, h'.place.trans h.place, h'.turns.trans
    h.turns⟩

theorem OthersOnly.toEncoder (h : OthersOnly s t) : EncoderOnly s t :=
    ⟨h.state, h.bright, h.hue, h.aphase, h.acnt, h.rail, h.fb, h.fbw, h.dout, h.wire, h.lowed, h.ie, h.seq, h.reads,
    h.faults, h.refused, h.program, h.displayed, h.params, h.place, h.turns⟩

theorem EnvOnly.toOthers (h : EnvOnly s t) : OthersOnly s t :=
    ⟨h.encStep, h.imin, h.imax, h.wrap, h.state, h.bright, h.hue, h.aphase, h.acnt, h.rail, h.fb, h.fbw, h.dout,
    h.wire, h.lowed, h.ie, h.seq, h.reads, h.faults, h.refused, h.program, h.displayed, h.params, h.place, h.turns⟩

end Sys2Proof.Machine
end

