-- ==== Sys2Proof/Laws/Agents.lean ====
section
/-! SUPPORT. What the environment's moves, a handler run and a preemption point can do, said once. -/

namespace Sys2Proof.Machine

/-- The three cases of the edge handler (rules R142, R143, R149). -/
theorem edge_of_same_a {s : State} (h : s.pinA = s.la) : edge s = s := by simp [edge, sample, h]

theorem edge_of_same_b {s : State} (ha : s.pinA ≠ s.la) (hb : s.pinB = s.lb) : edge s = { s with la := s.pinA } := by
  simp [edge, sample, ha, hb]

theorem edge_of_confirmed {s : State} (ha : s.pinA ≠ s.la) (hb : s.pinB ≠ s.lb) :
    edge s = { s with la := s.pinA, lb := s.pinB, leq := s.pinA == s.pinB, pos := steppedPos s (s.pinA == s.pinB) } := by
  simp [edge, sample, ha, hb]

/-- The handler writes LA, LB, LEQ and POS only, and POS only as BOUND gives it (rules R143, R228). -/
theorem edge_cases (s : State) :
    ∃ la lb leq pos, edge s = { s with la := la, lb := lb, leq := leq, pos := pos } ∧
      (pos = s.pos ∨ ∃ eq, pos = steppedPos s eq) := by
  by_cases ha : s.pinA = s.la
  · exact ⟨s.la, s.lb, s.leq, s.pos, edge_of_same_a ha, .inl rfl⟩
  · by_cases hb : s.pinB = s.lb
    · exact ⟨_, s.lb, s.leq, s.pos, edge_of_same_b ha hb, .inl rfl⟩
    · exact ⟨_, _, _, _, edge_of_confirmed ha hb, .inr ⟨_, rfl⟩⟩

theorem edge_othersOnly (s : State) : OthersOnly s (edge s) := by
  obtain ⟨la, lb, leq, pos, h, -⟩ := edge_cases s
  rw [h]; constructor <;> rfl

/-- A dispatch clears IPEND, leaves IE at its value and otherwise changes what the handler changes (rules R227, R228). -/
theorem takeInterrupt_cases (s : State) :
    ∃ la lb leq pos, takeInterrupt s = { s with ipend := false, la := la, lb := lb, leq := leq, pos := pos } ∧
      (pos = s.pos ∨ ∃ eq, pos = steppedPos s eq) := by
  obtain ⟨la, lb, leq, pos, h, hp⟩ := edge_cases (enterHandler s)
  exact ⟨la, lb, leq, pos, by rw [takeInterrupt, h]; rfl, hp⟩

theorem takeInterrupt_othersOnly (s : State) : OthersOnly s (takeInterrupt s) := by
  obtain ⟨la, lb, leq, pos, h, -⟩ := takeInterrupt_cases s
  rw [h]; constructor <;> rfl

theorem setPins_envOnly (a b : Bool) (s : State) : EnvOnly s (setPins a b s) := by constructor <;> rfl

theorem setBtn_envOnly (v : Bool) (s : State) : EnvOnly s (setBtn v s) := by constructor <;> rfl

theorem setSched_envOnly (l : List (List Move)) (s : State) : EnvOnly s { s with sched := l } := by constructor <;> rfl

section induction

variable {P : State → Prop}
  (hpins : ∀ a b s, P s → P (setPins a b s)) (hbtn : ∀ v s, P s → P (setBtn v s))
  (hint : ∀ s, P s → dispatchEnabled s = true → P (takeInterrupt s)) (hsched : ∀ l s, P s → P { s with sched := l })

include hpins hbtn hint in
theorem foldl_applyMove_induct (ms : List Move) : ∀ x : State × Bool, P x.1 → P (ms.foldl applyMove x).1 := by
  induction ms with
  | nil => exact fun _ h => h
  | cons m ms ih =>
    intro x h
    refine ih _ ?_
    cases m with
    | pins a b => exact hpins a b _ h
    | btn v => exact hbtn v _ h
    | handler =>
      simp only [applyMove]
      split
      · exact hint _ h ‹_›
      · exact h

include hpins hbtn hint hsched in
/-- A property the moves and a handler run keep is kept by the other agents' turn at a scheduling point. -/
theorem othersMove_induct {s : State} (h : P s) : P (othersMove s).1 := by
  unfold othersMove
  split
  · exact h
  · split
    · exact h
    · exact foldl_applyMove_induct hpins hbtn hint _ _ (hsched _ _ h)

include hpins hbtn hint hsched in
/-- A property the moves and a handler run keep is kept by a preemption point. -/
theorem preempt_induct {s : State} (h : P s) : P (preempt s) := by
  have := othersMove_induct hpins hbtn hint hsched h
  unfold preempt preemptRan
  simp only []
  split
  · exact hint _ this ‹_›
  · exact this

end induction

theorem othersMove_othersOnly (s : State) : OthersOnly s (othersMove s).1 :=
  othersMove_induct (P := OthersOnly s) (fun a b t h => h.trans (setPins_envOnly a b t).toOthers)
    (fun v t h => h.trans (setBtn_envOnly v t).toOthers) (fun t h _ => h.trans (takeInterrupt_othersOnly t))
    (fun l t h => h.trans (setSched_envOnly l t).toOthers) (.refl s)

theorem preempt_othersOnly (s : State) : OthersOnly s (preempt s) :=
  preempt_induct (P := OthersOnly s) (fun a b t h => h.trans (setPins_envOnly a b t).toOthers)
    (fun v t h => h.trans (setBtn_envOnly v t).toOthers) (fun t h _ => h.trans (takeInterrupt_othersOnly t))
    (fun l t h => h.trans (setSched_envOnly l t).toOthers) (.refl s)

/-- With interrupts masked only the environment moves at a preemption point (rules R82, R225). -/
theorem preempt_envOnly {s : State} (h : s.ie = false) : EnvOnly s (preempt s) :=
  (preempt_induct (P := fun t => EnvOnly s t ∧ t.ie = false) (fun a b t h => ⟨h.1.trans (setPins_envOnly a b t), h.2⟩)
    (fun v t h => ⟨h.1.trans (setBtn_envOnly v t), h.2⟩) (fun t h hd => by simp [dispatchEnabled, h.2] at hd)
    (fun l t h => ⟨h.1.trans (setSched_envOnly l t), h.2⟩) ⟨.refl s, h⟩).1

/-- In script mode with no dispatch enabled nothing happens at a preemption point (rule R217). -/
theorem preempt_of_alone {s : State} (h : Alone s) : preempt s = s := by
  obtain ⟨⟨k, hk⟩, hd⟩ := h
  simp [preempt, preemptRan, othersMove, hk, hd]

theorem Alone.preempt {s : State} (h : Alone s) : Alone (preempt s) := by rw [preempt_of_alone h]; exact h

theorem Alone.congr {s t : State} (h : Alone s) (hs : t.seq = s.seq) (hie : t.ie = s.ie) (hip : t.ipend = s.ipend) : Alone t := by
  obtain ⟨⟨k, hk⟩, hd⟩ := h
  exact ⟨⟨k, hs.trans hk⟩, by simpa [dispatchEnabled, hie, hip] using hd⟩

theorem othersMove_word {s : State} {k : Nat} (h : s.seq = .word k) : othersMove s = (s, false) := by
  simp [othersMove, h]

@[simp] theorem preempt_encStep (s : State) : (preempt s).encStep = s.encStep := (preempt_othersOnly s).encStep

@[simp] theorem preempt_imin (s : State) : (preempt s).imin = s.imin := (preempt_othersOnly s).imin

@[simp] theorem preempt_imax (s : State) : (preempt s).imax = s.imax := (preempt_othersOnly s).imax

@[simp] theorem preempt_wrap (s : State) : (preempt s).wrap = s.wrap := (preempt_othersOnly s).wrap

@[simp] theorem preempt_state (s : State) : (preempt s).state = s.state := (preempt_othersOnly s).state

@[simp] theorem preempt_bright (s : State) : (preempt s).bright = s.bright := (preempt_othersOnly s).bright

@[simp] theorem preempt_hue (s : State) : (preempt s).hue = s.hue := (preempt_othersOnly s).hue

@[simp] theorem preempt_aphase (s : State) : (preempt s).aphase = s.aphase := (preempt_othersOnly s).aphase

@[simp] theorem preempt_acnt (s : State) : (preempt s).acnt = s.acnt := (preempt_othersOnly s).acnt

@[simp] theorem preempt_rail (s : State) : (preempt s).rail = s.rail := (preempt_othersOnly s).rail

@[simp] theorem preempt_fb (s : State) : (preempt s).fb = s.fb := (preempt_othersOnly s).fb

@[simp] theorem preempt_fbw (s : State) : (preempt s).fbw = s.fbw := (preempt_othersOnly s).fbw

@[simp] theorem preempt_dout (s : State) : (preempt s).dout = s.dout := (preempt_othersOnly s).dout

@[simp] theorem preempt_wire (s : State) : (preempt s).wire = s.wire := (preempt_othersOnly s).wire

@[simp] theorem preempt_lowed (s : State) : (preempt s).lowed = s.lowed := (preempt_othersOnly s).lowed

@[simp] theorem preempt_ie (s : State) : (preempt s).ie = s.ie := (preempt_othersOnly s).ie

@[simp] theorem preempt_seq (s : State) : (preempt s).seq = s.seq := (preempt_othersOnly s).seq

@[simp] theorem preempt_reads (s : State) : (preempt s).reads = s.reads := (preempt_othersOnly s).reads

@[simp] theorem preempt_faults (s : State) : (preempt s).faults = s.faults := (preempt_othersOnly s).faults

@[simp] theorem preempt_refused (s : State) : (preempt s).refused = s.refused := (preempt_othersOnly s).refused

@[simp] theorem preempt_program (s : State) : (preempt s).program = s.program := (preempt_othersOnly s).program

@[simp] theorem preempt_displayed (s : State) : (preempt s).displayed = s.displayed := (preempt_othersOnly s).displayed

@[simp] theorem preempt_params (s : State) : (preempt s).params = s.params := (preempt_othersOnly s).params

@[simp] theorem preempt_place (s : State) : (preempt s).place = s.place := (preempt_othersOnly s).place

@[simp] theorem preempt_turns (s : State) : (preempt s).turns = s.turns := (preempt_othersOnly s).turns

@[simp] theorem othersMove_encStep (s : State) : (othersMove s).1.encStep = s.encStep := (othersMove_othersOnly s).encStep

@[simp] theorem othersMove_imin (s : State) : (othersMove s).1.imin = s.imin := (othersMove_othersOnly s).imin

@[simp] theorem othersMove_imax (s : State) : (othersMove s).1.imax = s.imax := (othersMove_othersOnly s).imax

@[simp] theorem othersMove_wrap (s : State) : (othersMove s).1.wrap = s.wrap := (othersMove_othersOnly s).wrap

@[simp] theorem othersMove_state (s : State) : (othersMove s).1.state = s.state := (othersMove_othersOnly s).state

@[simp] theorem othersMove_bright (s : State) : (othersMove s).1.bright = s.bright := (othersMove_othersOnly s).bright

@[simp] theorem othersMove_hue (s : State) : (othersMove s).1.hue = s.hue := (othersMove_othersOnly s).hue

@[simp] theorem othersMove_aphase (s : State) : (othersMove s).1.aphase = s.aphase := (othersMove_othersOnly s).aphase

@[simp] theorem othersMove_acnt (s : State) : (othersMove s).1.acnt = s.acnt := (othersMove_othersOnly s).acnt

@[simp] theorem othersMove_rail (s : State) : (othersMove s).1.rail = s.rail := (othersMove_othersOnly s).rail

@[simp] theorem othersMove_fb (s : State) : (othersMove s).1.fb = s.fb := (othersMove_othersOnly s).fb

@[simp] theorem othersMove_fbw (s : State) : (othersMove s).1.fbw = s.fbw := (othersMove_othersOnly s).fbw

@[simp] theorem othersMove_dout (s : State) : (othersMove s).1.dout = s.dout := (othersMove_othersOnly s).dout

@[simp] theorem othersMove_wire (s : State) : (othersMove s).1.wire = s.wire := (othersMove_othersOnly s).wire

@[simp] theorem othersMove_lowed (s : State) : (othersMove s).1.lowed = s.lowed := (othersMove_othersOnly s).lowed

@[simp] theorem othersMove_ie (s : State) : (othersMove s).1.ie = s.ie := (othersMove_othersOnly s).ie

@[simp] theorem othersMove_seq (s : State) : (othersMove s).1.seq = s.seq := (othersMove_othersOnly s).seq

@[simp] theorem othersMove_reads (s : State) : (othersMove s).1.reads = s.reads := (othersMove_othersOnly s).reads

@[simp] theorem othersMove_faults (s : State) : (othersMove s).1.faults = s.faults := (othersMove_othersOnly s).faults

@[simp] theorem othersMove_refused (s : State) : (othersMove s).1.refused = s.refused := (othersMove_othersOnly s).refused

@[simp] theorem othersMove_program (s : State) : (othersMove s).1.program = s.program := (othersMove_othersOnly s).program

@[simp] theorem othersMove_displayed (s : State) : (othersMove s).1.displayed = s.displayed := (othersMove_othersOnly s).displayed

@[simp] theorem othersMove_params (s : State) : (othersMove s).1.params = s.params := (othersMove_othersOnly s).params

@[simp] theorem othersMove_place (s : State) : (othersMove s).1.place = s.place := (othersMove_othersOnly s).place

@[simp] theorem othersMove_turns (s : State) : (othersMove s).1.turns = s.turns := (othersMove_othersOnly s).turns

@[simp] theorem edge_encStep (s : State) : (edge s).encStep = s.encStep := (edge_othersOnly s).encStep

@[simp] theorem edge_imin (s : State) : (edge s).imin = s.imin := (edge_othersOnly s).imin

@[simp] theorem edge_imax (s : State) : (edge s).imax = s.imax := (edge_othersOnly s).imax

@[simp] theorem edge_wrap (s : State) : (edge s).wrap = s.wrap := (edge_othersOnly s).wrap

@[simp] theorem edge_state (s : State) : (edge s).state = s.state := (edge_othersOnly s).state

@[simp] theorem edge_bright (s : State) : (edge s).bright = s.bright := (edge_othersOnly s).bright

@[simp] theorem edge_hue (s : State) : (edge s).hue = s.hue := (edge_othersOnly s).hue

@[simp] theorem edge_aphase (s : State) : (edge s).aphase = s.aphase := (edge_othersOnly s).aphase

@[simp] theorem edge_acnt (s : State) : (edge s).acnt = s.acnt := (edge_othersOnly s).acnt

@[simp] theorem edge_rail (s : State) : (edge s).rail = s.rail := (edge_othersOnly s).rail

@[simp] theorem edge_fb (s : State) : (edge s).fb = s.fb := (edge_othersOnly s).fb

@[simp] theorem edge_fbw (s : State) : (edge s).fbw = s.fbw := (edge_othersOnly s).fbw

@[simp] theorem edge_dout (s : State) : (edge s).dout = s.dout := (edge_othersOnly s).dout

@[simp] theorem edge_wire (s : State) : (edge s).wire = s.wire := (edge_othersOnly s).wire

@[simp] theorem edge_lowed (s : State) : (edge s).lowed = s.lowed := (edge_othersOnly s).lowed

@[simp] theorem edge_ie (s : State) : (edge s).ie = s.ie := (edge_othersOnly s).ie

@[simp] theorem edge_seq (s : State) : (edge s).seq = s.seq := (edge_othersOnly s).seq

@[simp] theorem edge_reads (s : State) : (edge s).reads = s.reads := (edge_othersOnly s).reads

@[simp] theorem edge_faults (s : State) : (edge s).faults = s.faults := (edge_othersOnly s).faults

@[simp] theorem edge_refused (s : State) : (edge s).refused = s.refused := (edge_othersOnly s).refused

@[simp] theorem edge_program (s : State) : (edge s).program = s.program := (edge_othersOnly s).program

@[simp] theorem edge_displayed (s : State) : (edge s).displayed = s.displayed := (edge_othersOnly s).displayed

@[simp] theorem edge_params (s : State) : (edge s).params = s.params := (edge_othersOnly s).params

@[simp] theorem edge_place (s : State) : (edge s).place = s.place := (edge_othersOnly s).place

@[simp] theorem edge_turns (s : State) : (edge s).turns = s.turns := (edge_othersOnly s).turns

@[simp] theorem takeInterrupt_encStep (s : State) : (takeInterrupt s).encStep = s.encStep := (takeInterrupt_othersOnly s).encStep

@[simp] theorem takeInterrupt_imin (s : State) : (takeInterrupt s).imin = s.imin := (takeInterrupt_othersOnly s).imin

@[simp] theorem takeInterrupt_imax (s : State) : (takeInterrupt s).imax = s.imax := (takeInterrupt_othersOnly s).imax

@[simp] theorem takeInterrupt_wrap (s : State) : (takeInterrupt s).wrap = s.wrap := (takeInterrupt_othersOnly s).wrap

@[simp] theorem takeInterrupt_state (s : State) : (takeInterrupt s).state = s.state := (takeInterrupt_othersOnly s).state

@[simp] theorem takeInterrupt_bright (s : State) : (takeInterrupt s).bright = s.bright := (takeInterrupt_othersOnly s).bright

@[simp] theorem takeInterrupt_hue (s : State) : (takeInterrupt s).hue = s.hue := (takeInterrupt_othersOnly s).hue

@[simp] theorem takeInterrupt_aphase (s : State) : (takeInterrupt s).aphase = s.aphase := (takeInterrupt_othersOnly s).aphase

@[simp] theorem takeInterrupt_acnt (s : State) : (takeInterrupt s).acnt = s.acnt := (takeInterrupt_othersOnly s).acnt

@[simp] theorem takeInterrupt_rail (s : State) : (takeInterrupt s).rail = s.rail := (takeInterrupt_othersOnly s).rail

@[simp] theorem takeInterrupt_fb (s : State) : (takeInterrupt s).fb = s.fb := (takeInterrupt_othersOnly s).fb

@[simp] theorem takeInterrupt_fbw (s : State) : (takeInterrupt s).fbw = s.fbw := (takeInterrupt_othersOnly s).fbw

@[simp] theorem takeInterrupt_dout (s : State) : (takeInterrupt s).dout = s.dout := (takeInterrupt_othersOnly s).dout

@[simp] theorem takeInterrupt_wire (s : State) : (takeInterrupt s).wire = s.wire := (takeInterrupt_othersOnly s).wire

@[simp] theorem takeInterrupt_lowed (s : State) : (takeInterrupt s).lowed = s.lowed := (takeInterrupt_othersOnly s).lowed

@[simp] theorem takeInterrupt_ie (s : State) : (takeInterrupt s).ie = s.ie := (takeInterrupt_othersOnly s).ie

@[simp] theorem takeInterrupt_seq (s : State) : (takeInterrupt s).seq = s.seq := (takeInterrupt_othersOnly s).seq

@[simp] theorem takeInterrupt_reads (s : State) : (takeInterrupt s).reads = s.reads := (takeInterrupt_othersOnly s).reads

@[simp] theorem takeInterrupt_faults (s : State) : (takeInterrupt s).faults = s.faults := (takeInterrupt_othersOnly s).faults

@[simp] theorem takeInterrupt_refused (s : State) : (takeInterrupt s).refused = s.refused := (takeInterrupt_othersOnly s).refused

@[simp] theorem takeInterrupt_program (s : State) : (takeInterrupt s).program = s.program := (takeInterrupt_othersOnly s).program

@[simp] theorem takeInterrupt_displayed (s : State) : (takeInterrupt s).displayed = s.displayed := (takeInterrupt_othersOnly s).displayed

@[simp] theorem takeInterrupt_params (s : State) : (takeInterrupt s).params = s.params := (takeInterrupt_othersOnly s).params

@[simp] theorem takeInterrupt_place (s : State) : (takeInterrupt s).place = s.place := (takeInterrupt_othersOnly s).place

@[simp] theorem takeInterrupt_turns (s : State) : (takeInterrupt s).turns = s.turns := (takeInterrupt_othersOnly s).turns

end Sys2Proof.Machine
end

