-- ==== Sys2Proof/Laws/Colour.lean ====
section
/-! SUPPORT. What the named hypotheses on the colour functions say (rule R171): the ramps of CP1 rise and fall, those of CP2
rise with the brightness, a wheel whose ramp is nowhere at zero meets CP3, and CP4 carries CP5 with it. -/

namespace Sys2Proof

/-- In a linear ramp the rising level never falls with the step, and the falling level never rises. -/
theorem Ramp.Linear.mono {ramp : Ramp} (h : ramp.Linear) {step step' : Fin 16} (hs : step ≤ step') (b : Fin 16) :
    ramp.rising step b ≤ ramp.rising step' b ∧ ramp.falling step' b ≤ ramp.falling step b := by
  obtain ⟨unit, base, up, top, down, -, -, -, -, hr⟩ := h b
  rw [(hr step).1, (hr step').1, (hr step).2, (hr step').2]
  have hv : step.val ≤ step'.val := hs
  exact ⟨by gcongr, by gcongr⟩

/-- In an attenuated ramp no level falls with the brightness. -/
theorem Ramp.Attenuated.mono {ramp : Ramp} (h : ramp.Attenuated) (step : Fin 16) {b b' : Fin 16} (hb : b ≤ b') :
    ramp.rising step b ≤ ramp.rising step b' ∧ ramp.falling step b ≤ ramp.falling step b' := by
  obtain ⟨num, den, e, full, full', hn, hd, he, hr⟩ := h
  obtain rfl | hlt := hb.eq_or_lt
  · exact ⟨le_rfl, le_rfl⟩
  have key : ∀ l : Nat, l * num ^ e b / den ^ e b ≤ l * num ^ e b' / den ^ e b' := by
    intro l
    obtain ⟨k, hk⟩ := Nat.exists_eq_add_of_lt (he b b' hlt)
    have hpos : ∀ n, 0 < den ^ n := fun n => pow_pos (hn.trans hd) n
    rw [Nat.le_div_iff_mul_le (hpos _)]
    refine Nat.le_of_mul_le_mul_right (c := den ^ (k + 1)) ?_ (hpos _)
    calc l * num ^ e b / den ^ e b * den ^ e b' * den ^ (k + 1)
        = l * num ^ e b / den ^ e b * den ^ e b := by rw [hk]; ring
      _ ≤ l * num ^ e b := Nat.div_mul_le_self _ _
      _ = l * num ^ e b' * num ^ (k + 1) := by rw [hk]; ring
      _ ≤ l * num ^ e b' * den ^ (k + 1) := by gcongr
  rw [(hr step b).1, (hr step b').1, (hr step b).2, (hr step b').2]
  exact ⟨key _, key _⟩

/-- Of three different channels any other than the third is one of the first two. -/
theorem Channel.eq_or_eq {x y z c : Channel} (hxy : x ≠ y) (hxz : x ≠ z) (hyz : y ≠ z) (hc : c ≠ z) : c = x ∨ c = y := by
  cases x <;> cases y <;> cases z <;> cases c <;> first | contradiction | exact .inl rfl | exact .inr rfl

/-- Three different channels are all of a colour. -/
theorem Rgb.sum_channels (c : Rgb) {x y z : Channel} (hxy : x ≠ y) (hxz : x ≠ z) (hyz : y ≠ z) :
    c.r.toNat + c.g.toNat + c.b.toNat = (c.channel x).toNat + (c.channel y).toNat + (c.channel z).toNat := by
  cases x <;> cases y <;> cases z <;> first | contradiction | rfl | (simp only [Rgb.channel]; omega)

/-- A wheel whose ramp is at zero nowhere meets CP3. Where a line of the ramp starts at zero, CP1 can hold and CP3 not (conflict C7). -/
theorem Config.FollowsRamp.cp3 {hue : Fin 49 → Fin 16 → Rgb} {ramp : Ramp} (h : Config.FollowsRamp hue ramp)
    (hpos : ∀ step b, 0 < ramp.rising step b ∧ 0 < ramp.falling step b) : Config.CP3 hue ramp := by
  obtain ⟨start, inj, hs⟩ := h
  rintro phase step b c rfl
  obtain ⟨h₀, h₁, h₂⟩ := hs phase step b
  obtain ⟨hr, hf⟩ := hpos step b
  have ne : ∀ p : Fin 3, p ≠ p + 1 ∧ p ≠ p + 2 ∧ p + 1 ≠ p + 2 := by decide
  have d₁ := inj.ne (ne phase).1
  have d₂ := inj.ne (ne phase).2.1
  have d₃ := inj.ne (ne phase).2.2
  refine ⟨⟨start (phase + 2), h₂, fun other ho => ?_⟩, by rw [Rgb.sum_channels _ d₁ d₂ d₃, h₀, h₁, h₂]; simp [add_comm]⟩
  by_contra hz
  obtain rfl | rfl := Channel.eq_or_eq d₁ d₂ d₃ hz
  · simp [ho] at h₀; omega
  · simp [ho] at h₁; omega

/-- A white gamma-corrected by squaring never falls with the brightness: CP4 gives CP5. -/
theorem Config.CP4.cp5 {white : Fin 16 → Rgb} (h : Config.CP4 white) : Config.CP5 white := by
  obtain ⟨heq, num, den, -, -, hw⟩ := h
  intro b b' hb c
  have hr : (white b).r ≤ (white b').r := by
    rw [BitVec.le_def, hw, hw]
    have hv : b.val ≤ b'.val := hb
    gcongr
  have hg := (heq b).1.symm.trans_le (hr.trans_eq (heq b').1)
  cases c
  · exact hr
  · exact hg
  · exact (heq b).2.symm.trans_le (hg.trans_eq (heq b').2)

end Sys2Proof
end

