-- ==== Sys2Proof/Laws/Operands.lean ====
section
/-! SUPPORT. Arithmetic of the Encoder and the bits of the wire: exactness of the narrowings, the bounding, the frame's symbols. -/

namespace Sys2Proof.Machine

/-- An integer that fits 16 bits survives the narrowing. -/
theorem toInt_ofInt16 {v : Int} (h : -32768 ≤ v ∧ v ≤ 32767) : (BitVec.ofInt 16 v).toInt = v := by
  rw [BitVec.toInt_ofInt]; exact Int.bmod_eq_of_le (by omega) (by omega)

/-- An integer that fits 8 bits survives the narrowing. -/
theorem toInt_ofInt8 {v : Int} (h : InInt8 v) : (BitVec.ofInt 8 v).toInt = v := by
  rw [BitVec.toInt_ofInt]; exact Int.bmod_eq_of_le (by omega) (by omega)

theorem toInt_range16 (v : Reg16) : -32768 ≤ v.toInt ∧ v.toInt ≤ 32767 := by
  have h₁ := BitVec.toInt_lt (x := v)
  have h₂ := BitVec.le_toInt (x := v)
  norm_num at h₁ h₂
  omega

theorem toInt_range8 (v : Reg8) : InInt8 v.toInt := by
  have h₁ := BitVec.toInt_lt (x := v)
  have h₂ := BitVec.le_toInt (x := v)
  norm_num at h₁ h₂
  unfold InInt8
  omega

theorem doubled_toInt {v : Int} (h : InInt8 v) : (doubled v).toInt = 2 * v :=
  toInt_ofInt16 (by unfold InInt8 at h; omega)

theorem doubled_isBound {v : Int} (h : InInt8 v) : IsBound (doubled v) := by
  have := doubled_toInt h
  unfold InInt8 at h
  refine ⟨⟨?_, ?_⟩, ?_⟩ <;> omega

/-- BOUND answers a bound, or a value between them (rule R147). -/
theorem bound_cases (imin imax : Int) (wrap : Bool) (p : Int) :
    bound imin imax wrap p = imin ∨ bound imin imax wrap p = imax ∨
      (bound imin imax wrap p = p ∧ imin ≤ p ∧ p ≤ imax) := by
  unfold bound
  cases wrap <;> split_ifs <;> simp_all

/-- With ordered bounds, BOUND answers a value between them (rules R27, R147). -/
theorem bound_mem {imin imax : Int} (h : imin ≤ imax) (wrap : Bool) (p : Int) :
    imin ≤ bound imin imax wrap p ∧ bound imin imax wrap p ≤ imax := by
  rcases bound_cases imin imax wrap p with e | e | ⟨e, h₁, h₂⟩ <;> rw [e] <;> omega

/-- A confirmed step stores exactly what BOUND answers: nothing is lost in the narrowing, in any state (rule R153, log 18). -/
theorem steppedPos_toInt (s : State) (eq : Bool) :
    (steppedPos s eq).toInt =
      bound s.imin.toInt s.imax.toInt s.wrap (s.pos.toInt + stepDelta s.encStep.toInt eq s.leq) := by
  refine toInt_ofInt16 ?_
  have h₁ := toInt_range16 s.imin
  have h₂ := toInt_range16 s.imax
  rcases bound_cases s.imin.toInt s.imax.toInt s.wrap (s.pos.toInt + stepDelta s.encStep.toInt eq s.leq) with e | e | ⟨e, h⟩ <;>
    rw [e] <;> omega

/-- The range lemma for one confirmed step (rule R153). -/
theorem steppedPos_inRange {s : State} (h : RangeInv s) (eq : Bool) : InRange (steppedPos s eq) := by
  obtain ⟨-, ⟨h₁, -⟩, ⟨h₂, -⟩⟩ := h
  unfold InRange at *
  rw [steppedPos_toInt]
  rcases bound_cases s.imin.toInt s.imax.toInt s.wrap (s.pos.toInt + stepDelta s.encStep.toInt eq s.leq) with e | e | ⟨e, h⟩ <;>
    rw [e] <;> omega

theorem bitSymbol_ne_latch (b : Bool) : bitSymbol b ≠ .latch := by cases b <;> simp [bitSymbol]

theorem bitSymbol_isBit (b : Bool) : bitSymbol b = .bit0 ∨ bitSymbol b = .bit1 := by cases b <;> simp [bitSymbol]

theorem pixelBits_length (w : Pixel) : (pixelBits w).length = 24 := by simp [pixelBits]

/-- The symbols of a pixel are those of its bits (rule R93). -/
theorem pixelSymbols_eq (w : Pixel) : pixelSymbols w = (pixelBits w).map bitSymbol := by
  simp [pixelSymbols, pixelBits, bitSymbol, Function.comp_def]

theorem pixelSymbols_length (w : Pixel) : (pixelSymbols w).length = 24 := by simp [pixelSymbols]

/-- The index formula of rule R93 gives the symbols of the eight pixels in order. -/
theorem frameSymbols_eq (fb : Vector Pixel 8) : frameSymbols fb = fb.toList.flatMap pixelSymbols := by
  obtain ⟨⟨l⟩, hl⟩ := fb
  match l, hl with
  | [a, b, c, d, e, f, g, h], _ => rfl

theorem frameSymbols_eq_bits (fb : Vector Pixel 8) : frameSymbols fb = (frameBits fb).map bitSymbol := by
  rw [frameSymbols_eq, frameBits, List.map_flatMap]
  rw [show pixelSymbols = fun w => (pixelBits w).map bitSymbol from funext pixelSymbols_eq]

theorem frameSymbols_length (fb : Vector Pixel 8) : (frameSymbols fb).length = 192 := by simp [frameSymbols]

theorem frameSymbols_isBit (fb : Vector Pixel 8) : ∀ x ∈ frameSymbols fb, x = .bit0 ∨ x = .bit1 := by
  intro x hx
  rw [frameSymbols_eq_bits] at hx
  obtain ⟨b, -, rfl⟩ := List.mem_map.1 hx
  exact bitSymbol_isBit b

/-- Symbols that are no latch extend the segment of a trace (rule R129). -/
theorem segment_append {w xs : List Symbol} (h : ∀ x ∈ xs, x ≠ .latch) : segment (w ++ xs) = segment w ++ xs := by
  unfold segment
  rw [List.reverse_append, List.takeWhile_append_of_pos, List.reverse_append, List.reverse_reverse]
  intro x hx
  simpa using h x (List.mem_reverse.1 hx)

/-- A latch ends the segment (rule R129). -/
theorem segment_latch (w : List Symbol) : segment (w ++ [.latch]) = [] := by simp [segment]

/-- The bits of a pixel word: green, red, blue (rule R91). -/
theorem pixelWord_getLsbD (c : Rgb) (i : Nat) : (pixelWord c).getLsbD i =
    if i < 8 then c.b.getLsbD i else if i < 16 then c.r.getLsbD (i - 8) else c.g.getLsbD (i - 16) := by
  unfold pixelWord
  change @BitVec.getLsbD (8 + 8 + 8) (c.g ++ c.r ++ c.b) i = _
  simp only [BitVec.getLsbD_append]
  split_ifs <;> first | rfl | omega

/-- The 24 symbols of a pixel spell its word (rules R72, R129). -/
theorem pixelOf_symbols (w : Pixel) : pixelOf (pixelSymbols w) = w := by
  have key : ∀ n ≤ 24, ∀ i < 24, (pixelOf ((List.range n).map fun j => if w.getLsbD (23 - j) then .bit1 else .bit0)).getLsbD i =
      if i < n then w.getLsbD (24 - n + i) else false := by
    intro n
    induction n with
    | zero => simp [pixelOf]
    | succ n ih =>
      intro hn i hi
      unfold pixelOf at ih ⊢
      rw [List.range_succ, List.map_append, List.foldl_append]
      simp only [List.map_cons, List.map_nil, List.foldl_cons, List.foldl_nil, BitVec.getLsbD_or, BitVec.getLsbD_shiftLeft]
      cases i with
      | zero =>
        rw [show 24 - (n + 1) + 0 = 23 - n by omega]
        cases w.getLsbD (23 - n) <;> simp
      | succ i =>
        rw [show i + 1 - 1 = i from rfl, ih (by omega) i (by omega), show 24 - (n + 1) + (i + 1) = 24 - n + i by omega]
        cases w.getLsbD (23 - n) <;> simp [hi]
  apply BitVec.eq_of_getLsbD_eq
  intro i hi
  have := key 24 (by omega) i hi
  rw [if_pos hi, Nat.sub_self, Nat.zero_add] at this
  exact this

/-- A frame's symbols spell the eight words of the frame buffer (rules R93, R129). -/
theorem frameOf_symbols (fb : Vector Pixel 8) : frameOf (frameSymbols fb) = some fb.toList := by
  unfold frameOf
  rw [if_pos ⟨frameSymbols_length fb, frameSymbols_isBit fb⟩, frameSymbols_eq]
  have hlen : ∀ w, (pixelSymbols w).length = 24 := by intro w; simp [pixelSymbols]
  have hd : ∀ w n, 24 ≤ n → (pixelSymbols w).drop n = [] := by intro w n h; simp [hlen, h]
  have ht : ∀ w, (pixelSymbols w).take 24 = pixelSymbols w := by intro w; simp [hlen]
  obtain ⟨⟨l⟩, hl⟩ := fb
  match l, hl with
  | [a, b, c, d, e, f, g, h], _ => simp [List.range_succ, List.drop_append, List.take_append, hlen, hd, ht, pixelOf_symbols]

end Sys2Proof.Machine
end

