-- ==== Sys2Proof/Laws/Operations.lean ====
section
/-! SUPPORT. What the shared operations of main context can do under any interference of the other agents, said once. -/

namespace Sys2Proof.Machine

/-- A property each step and a preemption point keep is kept by a sequence of main-context steps. -/
theorem mainSteps_induct {P : State → Prop} {fs : List (State → State)} (hf : ∀ f ∈ fs, ∀ s, P s → P (f s))
    (hp : ∀ s, P s → P (preempt s)) {s : State} (h : P s) : P (mainSteps fs s) := by
  cases fs with
  | nil => exact h
  | cons f rest =>
    have hf' : ∀ g ∈ rest, ∀ t, P t → P (g t) := fun g hg => hf g (List.mem_cons_of_mem _ hg)
    have h' : P (f s) := hf f List.mem_cons_self s h
    show P (rest.foldl (fun t g => g (preempt t)) (f s))
    generalize f s = t at h'
    clear h
    induction rest generalizing t with
    | nil => exact h'
    | cons g rest ih =>
      exact ih (fun f' hf'' => hf f' (by simp at hf'' ⊢; tauto)) (fun g' hg' => hf' g' (List.mem_cons_of_mem _ hg')) _
        (hf' g List.mem_cons_self _ (hp _ h'))

/-- A bit step (rules R121, R124). -/
theorem emit_bit (b : Bool) (s : State) : emit (bitSymbol b) s = { s with wire := s.wire ++ [bitSymbol b], dout := false } := by
  simp [emit, bitSymbol_ne_latch]

/-- Masked bit steps put their symbols on the wire and admit the environment only (rules R82, R124). -/
theorem bitSteps_envOnly (bits : List Bool) : ∀ t : State, t.ie = false → t.dout = false →
    EnvOnly { t with wire := t.wire ++ bits.map bitSymbol }
      ((bits.map fun b => emit (bitSymbol b)).foldl (fun t g => g (preempt t)) t) := by
  induction bits with
  | nil => intro t _ _; constructor <;> simp
  | cons b bits ih =>
    intro t hie hd
    have h := preempt_envOnly hie
    refine EnvOnly.trans ?_ (ih (emit (bitSymbol b) (preempt t)) (by simp [hie]) (by simp))
    rw [emit_bit]
    constructor <;> simp [hd, h.pos, h.la, h.lb, h.leq]

/-- The masked bits of a frame or a pixel: their symbols join the wire, IE is restored, no handler runs (rules R124, R126). -/
theorem sendMasked_envOnly {bits : List Bool} (hb : bits ≠ []) (s : State) :
    EnvOnly { s with wire := s.wire ++ bits.map bitSymbol, dout := false } (sendMasked bits s) := by
  cases bits with
  | nil => exact absurd rfl hb
  | cons b bits =>
    have h := bitSteps_envOnly bits (emit (bitSymbol b) (setIe false s)) (by simp) (by simp)
    show EnvOnly _ (setIe s.ie ((bits.map fun b => emit (bitSymbol b)).foldl (fun t g => g (preempt t))
      (emit (bitSymbol b) (setIe false s))))
    generalize (bits.map fun b => emit (bitSymbol b)).foldl (fun t g => g (preempt t))
      (emit (bitSymbol b) (setIe false s)) = u at h
    rw [emit_bit] at h
    cases h
    constructor <;> simp_all

theorem pixelBits_ne_nil (w : Pixel) : pixelBits w ≠ [] := by simp [pixelBits]

theorem frameBits_ne_nil (fb : Vector Pixel 8) : frameBits fb ≠ [] := by
  intro h
  have := frameSymbols_length fb
  rw [frameSymbols_eq_bits, h] at this
  simp at this

theorem foldl_applyMove_masked (ms : List Move) : ∀ x : State × Bool, x.1.ie = false → (ms.foldl applyMove x).2 = x.2 := by
  induction ms with
  | nil => exact fun _ _ => rfl
  | cons m ms ih =>
    intro x hx
    rw [List.foldl_cons, ih _ (by cases m <;> simp [applyMove, dispatchEnabled, hx])]
    cases m <;> simp [applyMove, dispatchEnabled, hx]

/-- No handler runs at a preemption point with interrupts masked, nor where main context is alone (rules R82, R217, R225). -/
theorem preemptRan_quiet {s : State} (h : Alone s ∨ s.ie = false) : (preemptRan s).2 = false := by
  rcases h with ⟨⟨k, hk⟩, hd⟩ | hie
  · simp [preemptRan, othersMove, hk, hd]
  · have h₁ : dispatchEnabled (othersMove s).1 = false := by simp [dispatchEnabled, hie]
    have h₂ : (othersMove s).2 = false := by
      unfold othersMove
      split
      · rfl
      · split
        · rfl
        · exact foldl_applyMove_masked _ _ hie
    simp [preemptRan, h₁, h₂]

/-- The point between two pixels adds at most one GAP to the wire (rule R127). -/
theorem pixelGap_cases {s : State} (hd : s.dout = false) :
    ∃ g, (g = [] ∨ g = [Symbol.gap]) ∧ OthersOnly { s with wire := s.wire ++ g } (pixelGap s) ∧
      (Alone s ∨ s.ie = false → g = []) := by
  by_cases hran : (preemptRan s).2 = true
  · refine ⟨[.gap], .inr rfl, ?_, fun hq => by simp [preemptRan_quiet hq] at hran⟩
    have e : pixelGap s = emit .gap (preempt s) := by simp [pixelGap, hran, preempt]
    rw [e]
    constructor <;> simp [hd]
  · refine ⟨[], .inl rfl, ?_, fun _ => rfl⟩
    have e : pixelGap s = preempt s := by simp [pixelGap, hran, preempt]
    rw [e]
    constructor <;> simp

theorem OthersOnly.alone {s t : State} (h : OthersOnly s t) (hs : Alone s) (hi : t.ipend = s.ipend) : Alone t := by
  obtain ⟨⟨k, hk⟩, hd⟩ := hs
  exact ⟨⟨k, h.seq.trans hk⟩, by simpa [dispatchEnabled, h.ie, hi] using hd⟩

/-- In script mode the masked bit steps change nothing but the wire and the line (rule R217). -/
theorem sendMasked_script {bits : List Bool} (hb : bits ≠ []) {s : State} {k : Nat} (hk : s.seq = .word k) :
    sendMasked bits s = { s with wire := s.wire ++ bits.map bitSymbol, dout := false } := by
  have key : ∀ (bs : List Bool) (t : State), t.seq = .word k → t.ie = false → t.dout = false →
      ((bs.map fun b => emit (bitSymbol b)).foldl (fun t g => g (preempt t)) t) =
        { t with wire := t.wire ++ bs.map bitSymbol } := by
    intro bs
    induction bs with
    | nil => intro t _ _ _; simp
    | cons b bs ih =>
      intro t hs hie hd
      have ha : preempt t = t := preempt_of_alone ⟨⟨k, hs⟩, by simp [dispatchEnabled, hie]⟩
      rw [List.map_cons, List.foldl_cons, ha, ih _ (by simpa using hs) (by simpa using hie) (by simp), emit_bit]
      simp [hd]
  cases bits with
  | nil => exact absurd rfl hb
  | cons b bits =>
    show setIe s.ie ((bits.map fun b => emit (bitSymbol b)).foldl (fun t g => g (preempt t))
      (emit (bitSymbol b) (setIe false s))) = _
    rw [key _ _ (by simpa using hk) (by simp) (by simp), emit_bit]
    simp [setIe]

theorem pixelGap_of_alone {s : State} (h : Alone s) : pixelGap s = s := by
  have h' := preempt_of_alone h
  unfold preempt at h'
  simp [pixelGap, preemptRan_quiet (.inl h), h']

/-- The later pixels of a frame where main context is alone: no gap, and nothing else changes (rule R127). -/
theorem sendRest_alone (ws : List Pixel) : ∀ t : State, Alone t → t.dout = false →
    ws.foldl (fun t v => sendMasked (pixelBits v) (pixelGap t)) t = { t with wire := t.wire ++ ws.flatMap pixelSymbols } := by
  induction ws with
  | nil => intro t _ _; simp
  | cons w ws ih =>
    intro t ha hd
    obtain ⟨k, hk⟩ := ha.1
    rw [List.foldl_cons, pixelGap_of_alone ha, sendMasked_script (pixelBits_ne_nil w) hk]
    refine (ih { t with wire := t.wire ++ (pixelBits w).map bitSymbol, dout := false } (ha.congr rfl rfl rfl) rfl).trans ?_
    simp [pixelSymbols_eq, hd]

/-- The later pixels of a frame sent pixel by pixel (rule R127). -/
theorem sendRest_cases (ws : List Pixel) : ∀ t : State, t.dout = false →
    ∃ gaps : List (List Symbol), gaps.length = ws.length ∧ (∀ g ∈ gaps, g = [] ∨ g = [Symbol.gap]) ∧
      OthersOnly { t with wire := t.wire ++ (List.zipWith (fun g w => g ++ pixelSymbols w) gaps ws).flatten }
        (ws.foldl (fun t v => sendMasked (pixelBits v) (pixelGap t)) t) ∧
      (Alone t ∨ t.ie = false → ∀ g ∈ gaps, g = []) := by
  induction ws with
  | nil => intro t _; exact ⟨[], rfl, by simp, by constructor <;> simp, by simp⟩
  | cons w ws ih =>
    intro t hd
    obtain ⟨g, hg, hgap, hq⟩ := pixelGap_cases hd
    have hsend := sendMasked_envOnly (pixelBits_ne_nil w) (pixelGap t)
    obtain ⟨gaps, hlen, hall, hrest, hquiet⟩ := ih (sendMasked (pixelBits w) (pixelGap t)) hsend.toOthers.dout
    refine ⟨g :: gaps, by simp [hlen], by simpa using ⟨hg, hall⟩, ?_, ?_⟩
    · have h := hsend.toOthers
      clear hsend hq hquiet ih hlen hall
      cases hgap
      cases h
      cases hrest
      constructor <;> simp_all [pixelSymbols_eq]
    · intro hqt g' hg'
      rcases List.mem_cons.1 hg' with rfl | hg'
      · exact hq hqt
      · refine hquiet ?_ g' hg'
        rcases hqt with ha | hie
        · refine .inl ?_
          have hk := ha
          obtain ⟨⟨k, hk⟩, hde⟩ := hk
          rw [pixelGap_of_alone ha, sendMasked_script (pixelBits_ne_nil w) hk]
          exact ⟨⟨k, hk⟩, hde⟩
        · exact .inr (by rw [hsend.toOthers.ie, hgap.ie]; exact hie)

/-- A frame buffer's eight words, the first apart. -/
theorem fb_toList (fb : Vector Pixel 8) : fb.toList = fb[0] :: fb.toList.tail := by
  obtain ⟨⟨l⟩, hl⟩ := fb
  match l, hl with
  | [_, _, _, _, _, _, _, _], _ => rfl

/-- The bit steps of a whole frame under either mask scope (rules R124, R127). -/
theorem sendFrame_othersOnly (s : State) :
    OthersOnly { s with wire := (sendFrame s).wire, dout := false } (sendFrame s) ∧
      (s.params.maskScope = .frame → EnvOnly { s with wire := s.wire ++ frameSymbols s.fb, dout := false } (sendFrame s)) := by
  unfold sendFrame
  split
  · have h := sendMasked_envOnly (frameBits_ne_nil s.fb) s
    rw [← frameSymbols_eq_bits] at h
    refine ⟨?_, fun _ => h⟩
    cases h
    constructor <;> simp_all
  · rename_i hp
    refine ⟨?_, fun hf => by simp [hp] at hf⟩
    rw [fb_toList]
    simp only [sendPixels]
    have h := sendMasked_envOnly (pixelBits_ne_nil s.fb[0]) s
    obtain ⟨gaps, -, -, hrest, -⟩ := sendRest_cases s.fb.toList.tail _ h.toOthers.dout
    generalize s.fb.toList.tail.foldl (fun t v => sendMasked (pixelBits v) (pixelGap t)) (sendMasked (pixelBits s.fb[0]) s) = u
      at hrest
    cases h
    cases hrest
    constructor <;> simp_all

/-- Empty gaps leave the symbols of the frame (rule R93). -/
theorem gappedFrame_quiet {gaps : List (List Symbol)} (fb : Vector Pixel 8) (hl : gaps.length = 7) (h : ∀ g ∈ gaps, g = []) :
    gappedFrame gaps fb = frameSymbols fb := by
  have key : ∀ (gs : List (List Symbol)) (ws : List Pixel), gs.length = ws.length → (∀ g ∈ gs, g = []) →
      (List.zipWith (fun g w => g ++ pixelSymbols w) gs ws).flatten = ws.flatMap pixelSymbols := by
    intro gs
    induction gs with
    | nil => intro ws h _; cases ws <;> simp at h ⊢
    | cons g gs ih =>
      intro ws hlen hg
      cases ws with
      | nil => simp at hlen
      | cons w ws => simp at hlen hg; simp [hg.1, ih ws hlen hg.2]
  rw [gappedFrame, key _ _ (by simpa using hl) h, frameSymbols_eq]
  conv_rhs => rw [fb_toList]
  simp

/-- The wire after a frame under MASK_SCOPE = PIXEL (rule R127). -/
theorem sendFrame_gaps {s : State} (hm : s.params.maskScope = .pixel) :
    ∃ gaps, IsGaps gaps ∧ (sendFrame s).wire = s.wire ++ gappedFrame gaps s.fb ∧
      (Alone s ∨ s.ie = false → ∀ g ∈ gaps, g = []) := by
  have h₁ := sendMasked_envOnly (pixelBits_ne_nil s.fb[0]) s
  obtain ⟨gaps, hlen, hall, hrest, hquiet⟩ := sendRest_cases s.fb.toList.tail (sendMasked (pixelBits s.fb[0]) s) h₁.dout
  have e : sendFrame s = s.fb.toList.tail.foldl (fun t v => sendMasked (pixelBits v) (pixelGap t)) (sendMasked (pixelBits s.fb[0]) s) := by
    unfold sendFrame; rw [hm]; dsimp only; rw [fb_toList]; rfl
  refine ⟨gaps, ⟨by simpa using hlen, hall⟩, ?_, fun hq => hquiet ?_⟩
  · rw [e, hrest.wire]; dsimp only; rw [h₁.wire]; simp [pixelSymbols_eq, gappedFrame]
  · rcases hq with ⟨⟨k, hk⟩, hd⟩ | hq
    · rw [sendMasked_script (pixelBits_ne_nil _) hk]
      exact .inl ⟨⟨k, hk⟩, hd⟩
    · exact .inr (h₁.ie.trans hq)

/-- The wire after a frame that no handler interrupts (rules R93, R124, R127). -/
theorem sendFrame_wire_quiet {s : State} (h : s.params.maskScope = .frame ∨ Alone s ∨ s.ie = false) :
    (sendFrame s).wire = s.wire ++ frameSymbols s.fb := by
  cases hm : s.params.maskScope with
  | frame => exact ((sendFrame_othersOnly s).2 hm).wire
  | pixel =>
    obtain ⟨gaps, hg, hw, hq⟩ := sendFrame_gaps hm
    rw [hw, gappedFrame_quiet _ hg.1 (hq (h.resolve_left (by simp [hm])))]

/-- PL.TX, in its three cases (rule R124). -/
theorem transmit_latchMissing {s : State} (h : s.lowed = true) : transmit s = .faulted (raise .latchMissing s) := by
  simp [transmit, h]

theorem transmit_unwritten {s : State} (h : s.lowed = false) (hw : frameWritten s = false) :
    transmit s = .faulted (raise .unwrittenFrame s) := by
  simp [transmit, h, hw]

theorem transmit_done {s : State} (h : s.lowed = false) (hw : frameWritten s = true) :
    transmit s = .done { sendFrame s with lowed := true } := by
  simp [transmit, h, hw]

/-- PL.LATCH under any interference (rule R125). -/
theorem latch_othersOnly (s : State) :
    OthersOnly { s with
      wire := s.wire ++ [.latch], dout := false, lowed := false
      displayed := displayAtLatch s.rail (segment s.wire) s.displayed } (latch s) := by
  unfold latch
  constructor <;> simp

section induction

variable {P : State → Prop}
  (hpins : ∀ a b s, P s → P (setPins a b s)) (hbtn : ∀ v s, P s → P (setBtn v s))
  (hint : ∀ s, P s → dispatchEnabled s = true → P (takeInterrupt s)) (hsched : ∀ l s, P s → P { s with sched := l })
  (hemit : ∀ x s, P s → P (emit x s)) (hie : ∀ v s, P s → P (setIe v s))

include hpins hbtn hint hsched hemit hie in
/-- A property that the moves, a handler run, a wire symbol and a write of IE keep is kept by masked bit steps. -/
theorem sendMasked_induct {s : State} (bits : List Bool) (h : P s) : P (sendMasked bits s) := by
  refine hie _ _ (mainSteps_induct ?_ (fun t ht => preempt_induct hpins hbtn hint hsched ht) (hie _ _ h))
  intro f hf t ht
  obtain ⟨b, -, rfl⟩ := List.mem_map.1 hf
  exact hemit _ _ ht

include hpins hbtn hint hsched hemit in
/-- The same of the point between two pixels. -/
theorem pixelGap_induct {s : State} (h : P s) : P (pixelGap s) := by
  have h' : P (preempt s) := preempt_induct hpins hbtn hint hsched h
  unfold pixelGap
  dsimp only
  split
  · exact hemit _ _ h'
  · exact h'

include hpins hbtn hint hsched hemit hie in
/-- The same of the bit steps of a whole frame under either mask scope. -/
theorem sendFrame_induct {s : State} (h : P s) : P (sendFrame s) := by
  unfold sendFrame
  split
  · exact sendMasked_induct hpins hbtn hint hsched hemit hie _ h
  · unfold sendPixels
    split
    · exact h
    · rename_i w rest _
      have h' := sendMasked_induct hpins hbtn hint hsched hemit hie (pixelBits w) h
      revert h'
      generalize sendMasked (pixelBits w) s = t
      clear * - hpins hbtn hint hsched hemit hie
      induction rest generalizing t with
      | nil => exact id
      | cons v rest ih =>
        intro h'
        have hg : P (pixelGap t) := pixelGap_induct hpins hbtn hint hsched hemit h'
        rw [List.foldl_cons]
        exact ih (sendMasked (pixelBits v) (pixelGap t)) (sendMasked_induct hpins hbtn hint hsched hemit hie (pixelBits v) hg)

end induction

theorem frameWritten_iff (s : State) : frameWritten s = true ↔ ∀ i : Fin 8, s.fbw[i] = true := by
  unfold frameWritten
  generalize s.fbw = v
  obtain ⟨⟨l⟩, hl⟩ := v
  match l, hl with
  | [a, b, c, d, e, f, g, h], _ =>
    constructor
    · intro hh i
      simp at hh
      fin_cases i <;> simp [hh]
    · intro hh
      have := hh 0; have := hh 1; have := hh 2; have := hh 3; have := hh 4; have := hh 5; have := hh 6; have := hh 7
      simp_all

end Sys2Proof.Machine
end

