-- ==== Sys2Proof/Laws/Configure.lean ====
section
/-! SUPPORT. Configure under interference (rules R78, R152, R257): what its five writes leave in any order and any interleaving. -/

namespace Sys2Proof.Machine

/-- The picks of CFG_ORDER give each of the five writes once (rule R14). -/
theorem cfgOrder_perm (o : CfgOrder) : o.writes.Perm CfgReg.all := by
  obtain ⟨a, b, c, d⟩ := o
  revert a b c d
  decide

theorem mem_cfgOrder (o : CfgOrder) (r : CfgReg) : r ∈ o.writes :=
  (cfgOrder_perm o).mem_iff.2 (by cases r <;> decide)

theorem cfgOrder_writes_cons (o : CfgOrder) : ∃ r rs, o.writes = r :: rs := ⟨_, _, rfl⟩

section

variable (min max step init : Int) (w : Bool)

theorem cfgWrite_encoderOnly (r : CfgReg) (s : State) : EncoderOnly s (cfgWrite min max step init w r s) := by
  cases r <;> constructor <;> rfl

/-- Configure writes the Encoder's registers only, beside what the other agents change (rule R152). -/
theorem configure_encoderOnly (s : State) : EncoderOnly s (configure min max step init w s) := by
  refine mainSteps_induct (P := EncoderOnly s) ?_ (fun t h => h.trans (preempt_othersOnly t).toEncoder) (.refl s)
  intro f hf t h
  obtain ⟨r, -, rfl⟩ := List.mem_map.1 hf
  exact h.trans (cfgWrite_encoderOnly ..)

/-- A list of configure's writes: each bound, the step and the wrap flag hold what was written, and POS when it is written last. -/
theorem cfgSteps_written (rs : List CfgReg) : ∀ t u : State,
    u = (rs.map (cfgWrite min max step init w)).foldl (fun t g => g (preempt t)) t →
      u.imin = (if .imin ∈ rs then doubled min else t.imin) ∧ u.imax = (if .imax ∈ rs then doubled max else t.imax) ∧
        u.encStep = (if .step ∈ rs then BitVec.ofInt 8 step else t.encStep) ∧ u.wrap = (if .wrap ∈ rs then w else t.wrap) ∧
          (rs.getLast? = some .pos → u.pos = doubled init) := by
  induction rs with
  | nil => rintro t _ rfl; simp
  | cons r rs ih =>
    rintro t u rfl
    obtain ⟨h₁, h₂, h₃, h₄, h₅⟩ := ih (cfgWrite min max step init w r (preempt t)) _ rfl
    rw [List.map_cons, List.foldl_cons]
    refine ⟨?_, ?_, ?_, ?_, ?_⟩
    · rw [h₁]; cases r <;> simp [cfgWrite]
    · rw [h₂]; cases r <;> simp [cfgWrite]
    · rw [h₃]; cases r <;> simp [cfgWrite]
    · rw [h₄]; cases r <;> simp [cfgWrite]
    · intro hl
      cases rs with
      | nil =>
        obtain rfl : r = .pos := by simpa using hl
        rfl
      | cons r' rs' => exact h₅ (by simpa using hl)

/-- What configure leaves, whatever runs between its writes (rules R152, R257). -/
theorem configure_written (s : State) :
    (configure min max step init w s).imin = doubled min ∧ (configure min max step init w s).imax = doubled max ∧
      (configure min max step init w s).encStep = BitVec.ofInt 8 step ∧ (configure min max step init w s).wrap = w ∧
        (PosLast s.params.cfgOrder → (configure min max step init w s).pos = doubled init) := by
  have hm := mem_cfgOrder s.params.cfgOrder
  unfold PosLast
  obtain ⟨r, rs, e⟩ := cfgOrder_writes_cons s.params.cfgOrder
  have hc : configure min max step init w s =
      (rs.map (cfgWrite min max step init w)).foldl (fun t g => g (preempt t)) (cfgWrite min max step init w r s) := by
    rw [configure, e]; rfl
  obtain ⟨h₁, h₂, h₃, h₄, h₅⟩ := cfgSteps_written min max step init w rs _ _ hc
  rw [e] at hm ⊢
  refine ⟨?_, ?_, ?_, ?_, ?_⟩
  · rw [h₁]; have := hm .imin; cases r <;> simp_all [cfgWrite]
  · rw [h₂]; have := hm .imax; cases r <;> simp_all [cfgWrite]
  · rw [h₃]; have := hm .step; cases r <;> simp_all [cfgWrite]
  · rw [h₄]; have := hm .wrap; cases r <;> simp_all [cfgWrite]
  · intro hl
    cases rs with
    | nil =>
      obtain rfl : r = .pos := by simpa using hl
      rw [hc]; rfl
    | cons r' rs' => exact h₅ (by simpa using hl)

/-- Configure alone writes the five registers and nothing else (rules R152, R155, R217). -/
theorem configure_alone {s : State} (h : Alone s) :
    configure min max step init w s =
      { s with pos := doubled init, imin := doubled min, imax := doubled max, encStep := BitVec.ofInt 8 step, wrap := w } := by
  have key : ∀ (rs : List CfgReg) (t : State), Alone t →
      (rs.map (cfgWrite min max step init w)).foldl (fun t g => g (preempt t)) t =
        { t with
          pos := if .pos ∈ rs then doubled init else t.pos
          imin := if .imin ∈ rs then doubled min else t.imin
          imax := if .imax ∈ rs then doubled max else t.imax
          encStep := if .step ∈ rs then BitVec.ofInt 8 step else t.encStep
          wrap := if .wrap ∈ rs then w else t.wrap } := by
    intro rs
    induction rs with
    | nil => intro t _; simp
    | cons r rs ih =>
      intro t ht
      rw [List.map_cons, List.foldl_cons, preempt_of_alone ht, ih]
      · cases r <;> simp [cfgWrite]
      · obtain ⟨⟨k, hk⟩, hd⟩ := ht
        cases r <;> exact ⟨⟨k, hk⟩, hd⟩
  have hm := mem_cfgOrder s.params.cfgOrder
  obtain ⟨r, rs, e⟩ := cfgOrder_writes_cons s.params.cfgOrder
  have hc : configure min max step init w s =
      ((r :: rs).map (cfgWrite min max step init w)).foldl (fun t g => g (preempt t)) s := by
    rw [configure, e, List.map_cons, List.foldl_cons, preempt_of_alone h]; rfl
  rw [hc, key _ _ h]
  rw [e] at hm
  simp [hm]

end

end Sys2Proof.Machine
end

