-- ==== Sys2Proof/Laws/Controller.lean ====
section
/-! SUPPORT. SHOW and the ticks under interference (rules R172, R180 to R184): one lemma for each, saying all it can do. -/

namespace Sys2Proof.Machine

/-- Loads of a list of entries. -/
theorem load_fields (i : Fin 8) (w : Pixel) (s : State) :
    OthersOnly { s with fb := s.fb.set i w, fbw := s.fbw.set i true } (load i w s) := by
  constructor <;> rfl

/-- The eight loads of SHOW fill the frame buffer, and nothing else of main context changes (rule R172). -/
theorem loads_othersOnly (pix : Fin 8 → Rgb) (s : State) :
    ∃ t, t = mainSteps (pixelIndices.map fun i => load i (pixelWord (pix i))) s ∧ FrameIs pix t ∧
      OthersOnly { s with fb := t.fb, fbw := t.fbw } t := by
  refine ⟨_, rfl, ?_, ?_⟩
  · intro i
    fin_cases i <;> simp [mainSteps, pixelIndices]
  · constructor <;> simp [mainSteps, pixelIndices]

theorem FrameIs.congr {pix : Fin 8 → Rgb} {s t : State} (h : FrameIs pix s) (hf : t.fb = s.fb) (hw : t.fbw = s.fbw) :
    FrameIs pix t := by
  intro i; rw [hf, hw]; exact h i

/-- The loads leave main context alone where it was. -/
theorem loads_alone {pix : Fin 8 → Rgb} {s : State} (h : Alone s) :
    Alone (mainSteps (pixelIndices.map fun i => load i (pixelWord (pix i))) s) := by
  refine mainSteps_induct (P := Alone) ?_ (fun t ht => ht.preempt) h
  intro f hf t ht
  obtain ⟨i, -, rfl⟩ := List.mem_map.1 hf
  exact ht.congr rfl rfl rfl

/-- SHOW with no latch owed fills the frame buffer, sends it and latches it (rule R172). -/
theorem render_done {pix : Fin 8 → Rgb} {s : State} (hl : s.lowed = false) :
    ∃ t, render pix s = .done t ∧ FrameIs pix t ∧
      OthersOnly { s with fb := t.fb, fbw := t.fbw, wire := t.wire, dout := false, displayed := t.displayed } t ∧
      FrameShown s t := by
  obtain ⟨u, hu, hframe, hothers⟩ := loads_othersOnly pix s
  have hl' : (preempt u).lowed = false := by rw [preempt_lowed, hothers.lowed]; exact hl
  have hw : frameWritten (preempt u) = true := by
    rw [frameWritten_iff]; intro i; rw [preempt_fbw]; exact (hframe i).2
  have e : render pix s = .done (latch (preempt { sendFrame (preempt u) with lowed := true })) := by
    rw [render, ← hu, transmit_done hl' hw]; rfl
  have h₁ := latch_othersOnly (preempt { sendFrame (preempt u) with lowed := true })
  obtain ⟨h₂, -⟩ := sendFrame_othersOnly (preempt u)
  have hp : (preempt u).params = s.params := by rw [preempt_params, hothers.params]
  have hwire : ∀ syms, (sendFrame (preempt u)).wire = (preempt u).wire ++ syms →
      (latch (preempt { sendFrame (preempt u) with lowed := true })).wire = s.wire ++ syms ++ [.latch] := by
    intro syms hs
    rw [h₁.wire, preempt_wire]
    simp [hs, hothers.wire]
  have hfb : (latch (preempt { sendFrame (preempt u) with lowed := true })).fb = (preempt u).fb := by
    rw [h₁.fb, preempt_fb]; exact h₂.fb
  refine ⟨_, e, hframe.congr ?_ ?_, ?_, ?_, ?_⟩
  · rw [hfb, preempt_fb]
  · rw [h₁.fbw]; simpa using h₂.fbw
  · generalize latch (preempt { sendFrame (preempt u) with lowed := true }) = v at h₁
    clear e hu hw hframe hwire hfb
    cases hothers; cases h₁; cases h₂
    dsimp only at *
    constructor <;> simp_all
  · intro h
    rw [hfb]
    refine hwire _ (sendFrame_wire_quiet ?_)
    rw [hp, preempt_ie, hothers.ie]
    exact h.imp_right (Or.imp_left fun ha => by rw [hu]; exact (loads_alone ha).preempt)
  · intro hm
    obtain ⟨gaps, hg, hw', -⟩ := sendFrame_gaps (s := preempt u) (by rw [hp]; exact hm)
    exact ⟨gaps, hg, by rw [hfb]; exact hwire _ hw'⟩

/-- What precedes SHOW in a tick changes nothing of what FrameShown says. -/
theorem FrameShown.congr {s s' t : State} (h : FrameShown s' t) (hp : s'.params = s.params) (hw : s'.wire = s.wire) (hi : s'.ie = s.ie)
    (ha : Alone s → Alone s') : FrameShown s t := by
  obtain ⟨h₁, h₂⟩ := h
  rw [hp] at h₁ h₂
  rw [hw] at h₁ h₂
  exact ⟨fun h => h₁ (h.imp_right (Or.imp ha fun h' => hi.trans h')), h₂⟩

/-- SHOW with a latch owed makes its eight loads, faults at PL.TX and sends nothing (rules R124, R172; log 19). -/
theorem render_latchMissing {pix : Fin 8 → Rgb} {s : State} (hl : s.lowed = true) :
    ∃ t, render pix s = .faulted t ∧ FrameIs pix t ∧
      OthersOnly { s with fb := t.fb, fbw := t.fbw, faults := s.faults.insert (.latchMissing, s.seq) } t := by
  obtain ⟨u, hu, hframe, hothers⟩ := loads_othersOnly pix s
  have hl' : (preempt u).lowed = true := by rw [preempt_lowed, hothers.lowed]; exact hl
  refine ⟨raise .latchMissing (preempt u), ?_, hframe.congr (by simp) (by simp), ?_⟩
  · rw [render, ← hu, transmit_latchMissing hl']; rfl
  · cases hothers
    constructor <;> simp_all

theorem brightArg_of {b : Reg8} {v : Fin 16} (h : b.toInt = v.val) : brightArg b = some v := by
  have : (v.val : Int) ≤ 15 := by have := v.isLt; omega
  unfold brightArg
  rw [dif_pos ⟨by omega, by omega⟩]
  congr 1; ext; simp [h]

theorem brightArg_none {b : Reg8} : brightArg b = none ↔ b.toInt < 0 ∨ 15 < b.toInt := by
  unfold brightArg
  split_ifs <;> simp <;> omega

theorem brightArg_some {b : Reg8} {v : Fin 16} (h : brightArg b = some v) : b.toInt = v.val := by
  unfold brightArg at h
  split_ifs at h with hb
  obtain rfl := Option.some.inj h
  simp; omega

theorem hueArg_of {h : Reg8} {v : Fin 49} (e : h.toInt = v.val) : hueArg h = some v := by
  have : (v.val : Int) ≤ 48 := by have := v.isLt; omega
  unfold hueArg
  rw [dif_pos ⟨by omega, by omega⟩]
  congr 1; ext; simp [e]

theorem hueArg_none {h : Reg8} : hueArg h = none ↔ h.toInt < 0 ∨ 48 < h.toInt := by
  unfold hueArg
  split_ifs <;> simp <;> omega

end Sys2Proof.Machine
end

