-- ==== Sys2Proof/Laws/Encoding.lean ====
section
/-! SUPPORT. Command words bit by bit, and what the decoder finds in one. -/

namespace Sys2Proof

/-- A level is its one bit. -/
theorem levelBit_getLsbD (v : Bool) (i : Nat) : (levelBit v).getLsbD i = (decide (i = 0) && v) := by
  cases v <;> simp [levelBit, BitVec.getLsbD_one]

/-- The bits of a row's word with every field 0: the opcode at 63..56 (rule R96). -/
theorem pattern_getLsbD (o : Op) (i : Nat) : o.pattern.getLsbD i = if i < 56 then false else o.opcode.getLsbD (i - 56) := by
  unfold Op.pattern
  change @BitVec.getLsbD (8 + 56) (o.opcode ++ 0#56) i = _
  simp only [BitVec.getLsbD_append, BitVec.getLsbD_zero]

/-- The bits of format PIX (rule R98). -/
theorem wordPix_getLsbD (o : Op) (idx : BitVec 3) (px : Pixel) (i : Nat) :
    (wordPix o idx px).getLsbD i = if i < 24 then px.getLsbD i else if i < 48 then false else if i < 51 then idx.getLsbD (i - 48)
      else if i < 56 then false else o.opcode.getLsbD (i - 56) := by
  unfold wordPix
  change @BitVec.getLsbD (8 + 5 + 3 + 24 + 24) (o.opcode ++ 0#5 ++ idx ++ 0#24 ++ px) i = _
  simp only [BitVec.getLsbD_append, BitVec.getLsbD_zero]
  split_ifs <;> first | rfl | omega

/-- The bits of format LVL (rule R101). -/
theorem wordLvl_getLsbD (o : Op) (v : Bool) (i : Nat) :
    (wordLvl o v).getLsbD i = if i = 0 then v else if i < 56 then false else o.opcode.getLsbD (i - 56) := by
  unfold wordLvl
  change @BitVec.getLsbD (8 + 55 + 1) (o.opcode ++ 0#55 ++ levelBit v) i = _
  simp only [BitVec.getLsbD_append, BitVec.getLsbD_zero, levelBit_getLsbD]
  split_ifs <;> first | omega | exact congrArg _ (by omega) | simp_all

/-- The bits of format PIN (rule R100). -/
theorem wordPin_getLsbD (o : Op) (a b : Bool) (i : Nat) :
    (wordPin o a b).getLsbD i = if i = 0 then b else if i = 1 then a else if i < 56 then false
      else o.opcode.getLsbD (i - 56) := by
  unfold wordPin
  change @BitVec.getLsbD (8 + 54 + 1 + 1) (o.opcode ++ 0#54 ++ levelBit a ++ levelBit b) i = _
  simp only [BitVec.getLsbD_append, BitVec.getLsbD_zero, levelBit_getLsbD]
  split_ifs <;> first | omega | exact congrArg _ (by omega) | simp_all

/-- The bits of format CFG (rule R99). -/
theorem wordCfg_getLsbD (o : Op) (mn mx st ini : Int) (w : Bool) (i : Nat) :
    (wordCfg o mn mx st ini w).getLsbD i =
      if i < 8 then (BitVec.ofInt 8 ini).getLsbD i else if i < 16 then (BitVec.ofInt 8 st).getLsbD (i - 8)
      else if i < 24 then (BitVec.ofInt 8 mx).getLsbD (i - 16) else if i < 32 then (BitVec.ofInt 8 mn).getLsbD (i - 24)
      else if i = 32 then w else if i < 56 then false else o.opcode.getLsbD (i - 56) := by
  unfold wordCfg
  change @BitVec.getLsbD (8 + 23 + 1 + 8 + 8 + 8 + 8) (o.opcode ++ 0#23 ++ levelBit w ++ BitVec.ofInt 8 mn ++ BitVec.ofInt 8 mx ++
    BitVec.ofInt 8 st ++ BitVec.ofInt 8 ini) i = _
  simp only [BitVec.getLsbD_append, BitVec.getLsbD_zero, levelBit_getLsbD]
  split_ifs <;> first | rfl | omega | exact congrArg _ (by omega) | simp_all

/-- The bits a format checks: all but its operand fields (rules R97 to R101). -/
theorem mask_getLsbD (f : Format) {i : Nat} (h : i < 64) : f.mask.getLsbD i =
    match f with
    | .n => true
    | .pix => decide (24 ≤ i ∧ i < 48 ∨ 51 ≤ i)
    | .cfg => decide (33 ≤ i)
    | .pin => decide (2 ≤ i)
    | .lvl => decide (1 ≤ i) := by
  have key : ∀ (f : Format) (i : Fin 64), f.mask.getLsbD i.val =
      match f with
      | .n => true
      | .pix => decide (24 ≤ i.val ∧ i.val < 48 ∨ 51 ≤ i.val)
      | .cfg => decide (33 ≤ i.val)
      | .pin => decide (2 ≤ i.val)
      | .lvl => decide (1 ≤ i.val) := by
    intro f; cases f <;> decide
  exact key f ⟨i, h⟩

/-- A word matches a row when the bits the row checks are the row's (rule R102). -/
theorem accepts_iff (o : Op) (w : CommandWord) :
    o.accepts w = true ↔ ∀ i < 64, o.format.mask.getLsbD i = true → w.getLsbD i = o.pattern.getLsbD i := by
  unfold Op.accepts
  rw [beq_iff_eq]
  constructor
  · intro h i _ hm
    have := congrArg (fun x => BitVec.getLsbD x i) h
    simpa [hm] using this
  · intro h
    apply BitVec.eq_of_getLsbD_eq
    intro i hi
    rw [BitVec.getLsbD_and]
    cases hm : o.format.mask.getLsbD i with
    | true => simp [h i hi hm]
    | false =>
      rw [Bool.and_false, pattern_getLsbD]
      split_ifs with h56
      · rfl
      · rw [mask_getLsbD _ hi] at hm
        exfalso
        revert hm
        cases o.format <;> simp <;> omega

theorem opcode_injective : ∀ o o' : Op, o.opcode = o'.opcode → o = o' := by
  intro o o'; cases o <;> cases o' <;> decide

/-- A word that matches a row carries its opcode. -/
theorem opcode_of_accepts {o : Op} {w : CommandWord} (h : o.accepts w = true) : opcodeOf w = o.opcode := by
  rw [accepts_iff] at h
  apply BitVec.eq_of_getLsbD_eq
  intro i hi
  have hm : o.format.mask.getLsbD (56 + i) = true := by
    rw [mask_getLsbD _ (by omega)]
    cases o.format <;> simp <;> omega
  have := h (56 + i) (by omega) hm
  rw [pattern_getLsbD, if_neg (by omega)] at this
  simpa [opcodeOf, BitVec.getLsbD_extractLsb', hi] using this

/-- The decoder finds the one row of a known opcode (rule R102). -/
theorem find_opcode (o : Op) : (Op.all.find? fun o' => o'.opcode == o.opcode) = some o := by cases o <;> decide

/-- What the decoder finds: the row of the word's opcode, or none (rule R105). -/
theorem find_cases (w : CommandWord) :
    (∃ o : Op, opcodeOf w = o.opcode ∧ (Op.all.find? fun o' => o'.opcode == opcodeOf w) = some o) ∨
      ((∀ o : Op, o.opcode ≠ opcodeOf w) ∧ (Op.all.find? fun o' => o'.opcode == opcodeOf w) = none) := by
  by_cases h : ∃ o : Op, o.opcode = opcodeOf w
  · obtain ⟨o, ho⟩ := h
    exact .inl ⟨o, ho.symm, by rw [← ho]; exact find_opcode o⟩
  · push Not at h
    exact .inr ⟨h, List.find?_eq_none.2 fun o _ => by simpa using h o⟩

/-- A word that matches a row decodes to that row's operation (rule R104). -/
theorem decode_of_accepts {o : Op} {w : CommandWord} (h : o.accepts w = true) : decode w = .ok (o.assemble w) := by
  unfold decode
  rw [opcode_of_accepts h, find_opcode o]
  simp [h]

/-- What decodes is a row's operation (rule R104). -/
theorem accepts_of_decode {w : CommandWord} {i : Instr} (h : decode w = .ok i) :
    ∃ o : Op, o.accepts w = true ∧ i = o.assemble w := by
  unfold decode at h
  rcases find_cases w with ⟨o, -, e⟩ | ⟨-, e⟩ <;> rw [e] at h
  · dsimp only at h
    split_ifs at h with ha
    exact ⟨o, ha, (Except.ok.inj h).symm⟩
  · cases h

/-- The bits the row of an operation checks are the row's in the operation's word. -/
theorem accepts_of_getLsbD {o : Op} {w : CommandWord}
    (h : ∀ i < 64, o.format.mask.getLsbD i = true → w.getLsbD i = if i < 56 then false else o.opcode.getLsbD (i - 56)) :
    o.accepts w = true :=
  (accepts_iff o w).2 fun i hi hm => (h i hi hm).trans (pattern_getLsbD o i).symm

/-- The words the encoder makes match their rows, format by format (rules R97 to R101). -/
theorem accepts_wordN {o : Op} : o.accepts (wordN o) = true :=
  (accepts_iff o _).2 fun _ _ _ => rfl

theorem accepts_wordPix {o : Op} (hf : o.format = .pix) (idx : BitVec 3) (px : Pixel) : o.accepts (wordPix o idx px) = true := by
  refine accepts_of_getLsbD fun i hi hm => ?_
  rw [hf, mask_getLsbD _ hi] at hm
  rw [wordPix_getLsbD]
  simp at hm
  split_ifs <;> first | rfl | omega

theorem accepts_wordLvl {o : Op} (hf : o.format = .lvl) (v : Bool) : o.accepts (wordLvl o v) = true := by
  refine accepts_of_getLsbD fun i hi hm => ?_
  rw [hf, mask_getLsbD _ hi] at hm
  rw [wordLvl_getLsbD]
  simp at hm
  split_ifs <;> first | rfl | omega

theorem accepts_wordPin {o : Op} (hf : o.format = .pin) (a b : Bool) : o.accepts (wordPin o a b) = true := by
  refine accepts_of_getLsbD fun i hi hm => ?_
  rw [hf, mask_getLsbD _ hi] at hm
  rw [wordPin_getLsbD]
  simp at hm
  split_ifs <;> first | rfl | omega

theorem accepts_wordCfg {o : Op} (hf : o.format = .cfg) (mn mx st ini : Int) (w : Bool) :
    o.accepts (wordCfg o mn mx st ini w) = true := by
  refine accepts_of_getLsbD fun i hi hm => ?_
  rw [hf, mask_getLsbD _ hi] at hm
  rw [wordCfg_getLsbD]
  simp at hm
  split_ifs <;> first | rfl | omega

end Sys2Proof
end

