-- ==== Sys2Proof/Laws/Ticks.lean ====
section
/-! SUPPORT. PL.TX, SHOW, the entry actions and the ticks: the cases of each, and what each leaves unchanged in every case. -/

namespace Sys2Proof.Machine

@[simp] theorem frameWritten_of_fbw {s t : State} (h : t.fbw = s.fbw) : frameWritten t = frameWritten s := by
  simp [frameWritten, h]

/-- PL.TX in every case: what it may change, and that it keeps IE and the frame buffer (rules R124, R127). -/
theorem transmit_frame (s : State) :
    OthersOnly { s with
      wire := (transmit s).state.wire, lowed := (transmit s).state.lowed, dout := (transmit s).state.dout
      faults := (transmit s).state.faults } (transmit s).state := by
  cases hl : s.lowed with
  | true => rw [transmit_latchMissing hl]; constructor <;> simp [Flow.state]
  | false =>
    cases hw : frameWritten s with
    | false => rw [transmit_unwritten hl hw]; constructor <;> simp [Flow.state]
    | true =>
      rw [transmit_done hl hw]
      have h := (sendFrame_othersOnly s).1
      dsimp only [Flow.state]
      exact ⟨h.encStep, h.imin, h.imax, h.wrap, h.state, h.bright, h.hue, h.aphase, h.acnt, h.rail, h.fb, h.fbw, rfl, rfl, rfl,
        h.ie, h.seq, h.reads, rfl, h.refused, h.program, h.displayed, h.params, h.place, h.turns⟩

/-- SHOW in every case (rule R172). -/
theorem render_frame (pix : Fin 8 → Rgb) (s : State) :
    OthersOnly { s with
      fb := (render pix s).state.fb, fbw := (render pix s).state.fbw, wire := (render pix s).state.wire
      lowed := (render pix s).state.lowed, dout := (render pix s).state.dout
      displayed := (render pix s).state.displayed, faults := (render pix s).state.faults } (render pix s).state := by
  cases hl : s.lowed with
  | false =>
    obtain ⟨t, e, -, h, -⟩ := render_done (pix := pix) hl
    rw [e]; dsimp only [Flow.state]
    exact ⟨h.encStep, h.imin, h.imax, h.wrap, h.state, h.bright, h.hue, h.aphase, h.acnt, h.rail, rfl, rfl, rfl, rfl, rfl,
      h.ie, h.seq, h.reads, rfl, h.refused, h.program, rfl, h.params, h.place, h.turns⟩
  | true =>
    obtain ⟨t, e, -, h⟩ := render_latchMissing (pix := pix) hl
    rw [e]; dsimp only [Flow.state]
    exact ⟨h.encStep, h.imin, h.imax, h.wrap, h.state, h.bright, h.hue, h.aphase, h.acnt, h.rail, rfl, rfl, rfl, rfl, rfl,
      h.ie, h.seq, h.reads, rfl, h.refused, h.program, rfl, h.params, h.place, h.turns⟩

/-- TICK_WHITE's two cases (rule R182). -/
theorem tickWhite_some {s : State} {b : Fin 16} (h : brightArg (position s) = some b) :
    tickWhite s = render (fun _ => Config.white b) (preempt (storeBright (position s) (preempt (get s)))) := by
  simp only [tickWhite, readTick, whiteEnd, h]

theorem tickWhite_none {s : State} (h : brightArg (position s) = none) :
    tickWhite s = .faulted (raise .colourDomain (storeBright (position s) (preempt (get s)))) := by
  simp only [tickWhite, readTick, whiteEnd, h]

/-- TICK_ANIMATE's three cases (rule R183). -/
theorem tickAnimate_idle {s : State} (h : ((s.acnt + 1).toNat : Int) < (position s).toInt) :
    tickAnimate s = .done (preempt (storeCount (s.acnt + 1) (preempt (get s)))) := by
  simp only [tickAnimate, readTick, animateEnd, preempt_acnt, get_acnt, if_neg (Int.not_le.2 h)]

theorem tickAnimate_some {s : State} {b : Fin 16} (h : (position s).toInt ≤ ((s.acnt + 1).toNat : Int))
    (hb : brightArg s.bright = some b) :
    tickAnimate s = render (fun i => Config.hue2rgb (animateHue (nextPhase s.aphase) i) b)
      (preempt (startFrame (preempt (get s)))) := by
  simp only [tickAnimate, readTick, animateEnd, preempt_acnt, get_acnt, if_pos h, preempt_bright, get_bright, hb, preempt_aphase,
    get_aphase]

theorem tickAnimate_none {s : State} (h : (position s).toInt ≤ ((s.acnt + 1).toNat : Int)) (hb : brightArg s.bright = none) :
    tickAnimate s = .faulted (raise .colourDomain (startFrame (preempt (get s)))) := by
  simp only [tickAnimate, readTick, animateEnd, preempt_acnt, get_acnt, if_pos h, preempt_bright, get_bright, hb]

/-- TICK_SOLID's two cases (rule R184). -/
theorem tickSolid_some {s : State} {h : Fin 49} {b : Fin 16} (hh : hueArg (position s) = some h)
    (hb : brightArg s.bright = some b) :
    tickSolid s = render (fun _ => Config.hue2rgb h b) (preempt (storeHue (position s) (preempt (get s)))) := by
  simp only [tickSolid, readTick, solidEnd, hh, preempt_bright, get_bright, hb]

theorem tickSolid_none {s : State} (h : hueArg (position s) = none ∨ brightArg s.bright = none) :
    tickSolid s = .faulted (raise .colourDomain (storeHue (position s) (preempt (get s)))) := by
  cases hh : hueArg (position s) with
  | none => simp only [tickSolid, readTick, solidEnd, hh]
  | some v =>
    have hb : brightArg s.bright = none := h.resolve_left (by simp [hh])
    simp only [tickSolid, readTick, solidEnd, hh, preempt_bright, get_bright, hb]

/-- A tick, in whatever state, leaves these alone: the rail, the Controller state, the Encoder's configuration, IE, SEQ, the refusal,
the script and the parameters (rules R172, R181 to R184). -/
theorem tick_frame (s : State) :
    OthersOnly { s with
      bright := (tick s).state.bright, hue := (tick s).state.hue, acnt := (tick s).state.acnt, aphase := (tick s).state.aphase
      reads := (tick s).state.reads, fb := (tick s).state.fb, fbw := (tick s).state.fbw, wire := (tick s).state.wire
      lowed := (tick s).state.lowed, dout := (tick s).state.dout, displayed := (tick s).state.displayed
      faults := (tick s).state.faults } (tick s).state := by
  have key : ∀ t u : State, OthersOnly { t with
      fb := u.fb, fbw := u.fbw, wire := u.wire, lowed := u.lowed, dout := u.dout, displayed := u.displayed, faults := u.faults } u →
      t.encStep = s.encStep → t.imin = s.imin → t.imax = s.imax → t.wrap = s.wrap → t.state = s.state → t.rail = s.rail →
      t.ie = s.ie → t.seq = s.seq → t.refused = s.refused → t.program = s.program → t.params = s.params → t.place = s.place →
      t.turns = s.turns →
      OthersOnly { s with
        bright := u.bright, hue := u.hue, acnt := u.acnt, aphase := u.aphase, reads := u.reads, fb := u.fb, fbw := u.fbw
        wire := u.wire, lowed := u.lowed, dout := u.dout, displayed := u.displayed, faults := u.faults } u := by
    intro t u h h₁ h₂ h₃ h₄ h₅ h₆ h₇ h₈ h₉ h₁₀ h₁₁ h₁₂ h₁₃
    exact ⟨h.encStep.trans h₁, h.imin.trans h₂, h.imax.trans h₃, h.wrap.trans h₄, h.state.trans h₅, rfl, rfl, rfl, rfl,
      h.rail.trans h₆, rfl, rfl, rfl, rfl, rfl, h.ie.trans h₇, h.seq.trans h₈, rfl, rfl, h.refused.trans h₉,
      h.program.trans h₁₀, rfl, h.params.trans h₁₁, h.place.trans h₁₂, h.turns.trans h₁₃⟩
  unfold tick
  split
  · constructor <;> rfl
  · cases hb : brightArg (position s) with
    | some b => rw [tickWhite_some hb]; apply key _ _ (render_frame _ _) <;> simp
    | none => rw [tickWhite_none hb]; constructor <;> simp [Flow.state]
  · by_cases hn : ((s.acnt + 1).toNat : Int) < (position s).toInt
    · rw [tickAnimate_idle hn]; constructor <;> simp [Flow.state]
    · have hn' := Int.not_lt.1 hn
      cases hb : brightArg s.bright with
      | some b => rw [tickAnimate_some hn' hb]; apply key _ _ (render_frame _ _) <;> simp
      | none => rw [tickAnimate_none hn' hb]; constructor <;> simp [Flow.state]
  · by_cases hn : hueArg (position s) = none ∨ brightArg s.bright = none
    · rw [tickSolid_none hn]; constructor <;> simp [Flow.state]
    · obtain ⟨h, hh⟩ := Option.ne_none_iff_exists'.1 (not_or.1 hn).1
      obtain ⟨b, hb⟩ := Option.ne_none_iff_exists'.1 (not_or.1 hn).2
      rw [tickSolid_some hh hb]; apply key _ _ (render_frame _ _) <;> simp

/-- The tick where main context has a step (rule R180). -/
theorem exec_ctlTick {s : State} (h : tickBlocked s = false) : exec .ctlTick s = .next (tick s).state := by
  simp [exec, execCtlTick, h]

/-- An entry action changes the Encoder's registers, the rail and, with the rail off, the display (rules R176 to R179). -/
theorem entry_encoderOnly (s : State) :
    EncoderOnly { s with rail := (entry s).rail, displayed := (entry s).displayed } (entry s) := by
  unfold entry
  split
  · constructor <;> rfl
  · have h := (preempt_othersOnly (setRail true s)).toEncoder.trans
      (configure_encoderOnly 2 15 1 (preempt (setRail true s)).bright.toInt false (preempt (setRail true s)))
    exact ⟨h.state, h.bright, h.hue, h.aphase, h.acnt, rfl, h.fb, h.fbw, h.dout, h.wire, h.lowed, h.ie, h.seq, h.reads, h.faults,
      h.refused, h.program, rfl, h.params, h.place, h.turns⟩
  · constructor <;> rfl
  · have h := configure_encoderOnly 0 48 1 s.hue.toInt true s
    exact ⟨h.state, h.bright, h.hue, h.aphase, h.acnt, rfl, h.fb, h.fbw, h.dout, h.wire, h.lowed, h.ie, h.seq, h.reads, h.faults,
      h.refused, h.program, rfl, h.params, h.place, h.turns⟩

end Sys2Proof.Machine
end

