-- ==== Sys2Proof/Laws/Kept.lean ====
section
/-! SUPPORT. Induction over the operations that other agents interrupt: a property that the preemption points, the masked bit steps and the
own writes keep is kept by PL.TX, PL.LATCH and the ticks as a whole. -/

namespace Sys2Proof.Machine

/-- `t` is `s` but for the registers that PL.TX, PL.LATCH and the ticks write themselves (rule R47). -/
structure TickOnly (s t : State) : Prop where
  pos : t.pos = s.pos
  encStep : t.encStep = s.encStep
  imin : t.imin = s.imin
  imax : t.imax = s.imax
  wrap : t.wrap = s.wrap
  la : t.la = s.la
  lb : t.lb = s.lb
  leq : t.leq = s.leq
  state : t.state = s.state
  rail : t.rail = s.rail
  ie : t.ie = s.ie
  seq : t.seq = s.seq
  ipend : t.ipend = s.ipend
  pinA : t.pinA = s.pinA
  pinB : t.pinB = s.pinB
  pinBtn : t.pinBtn = s.pinBtn
  refused : t.refused = s.refused
  program : t.program = s.program
  params : t.params = s.params
  sched : t.sched = s.sched
  place : t.place = s.place
  turns : t.turns = s.turns

section

variable {P : State → Prop} (hpre : ∀ s, P s → P (preempt s)) (hsend : ∀ bits s, bits ≠ [] → P s → P (sendMasked bits s))
  (hown : ∀ s t, TickOnly s t → P s → P t)
include hpre hsend hown

/-- What a property kept by the other agents' moves, by masked bit steps and by those own writes keeps: the bit steps of a frame. -/
theorem sendFrame_kept {s : State} (h : P s) : P (sendFrame s) := by
  unfold sendFrame
  split
  · exact hsend _ _ (frameBits_ne_nil _) h
  · unfold sendPixels
    split
    · exact h
    · rename_i w rest hwr
      clear hwr
      have h₁ := hsend _ _ (pixelBits_ne_nil w) h
      generalize sendMasked (pixelBits w) s = t at h₁
      induction rest generalizing t with
      | nil => exact h₁
      | cons v rest ih =>
        have hgap : P (pixelGap t) := by
          unfold pixelGap
          dsimp only
          split
          · exact hown (preempt t) _ (by constructor <;> simp [preempt]) (hpre _ h₁)
          · exact hpre _ h₁
        rw [List.foldl_cons]
        exact ih (sendMasked (pixelBits v) (pixelGap t)) (hsend _ _ (pixelBits_ne_nil v) hgap)

/-- … PL.TX, in every case. -/
theorem transmit_kept {s : State} (h : P s) : P (transmit s).state := by
  unfold transmit
  split_ifs
  · exact hown _ _ (by constructor <;> simp [Flow.state]) h
  · exact hown _ _ (by constructor <;> simp [Flow.state]) h
  · exact hown _ _ (by constructor <;> simp [Flow.state]) (sendFrame_kept hpre hsend hown h)

omit hsend in
/-- … PL.LATCH. -/
theorem latch_kept {s : State} (h : P s) : P (latch s) := by
  have h₁ := hpre _ (hown s { s with dout := false } (by constructor <;> rfl) h)
  exact hown _ _ (by constructor <;> rfl) h₁

/-- … SHOW, in every case. -/
theorem render_kept {s : State} (pix : Fin 8 → Rgb) (h : P s) : P (render pix s).state := by
  have h₁ : P (mainSteps (pixelIndices.map fun i => load i (pixelWord (pix i))) s) := by
    refine mainSteps_induct ?_ hpre h
    intro f hf t ht
    obtain ⟨i, -, rfl⟩ := List.mem_map.1 hf
    exact hown _ _ (by constructor <;> rfl) ht
  have h₂ := transmit_kept hpre hsend hown (hpre _ h₁)
  unfold render
  generalize transmit (preempt (mainSteps (pixelIndices.map fun i => load i (pixelWord (pix i))) s)) = x at h₂
  cases x with
  | done u => exact latch_kept hpre hown (hpre _ h₂)
  | faulted u => exact h₂

/-- … a tick, in every case. -/
theorem tick_kept {s : State} (h : P s) : P (tick s).state := by
  have hg : P (preempt (get s)) := hpre _ (hown _ _ (by constructor <;> rfl) h)
  unfold tick
  split
  · exact h
  · cases hb : brightArg (position s) with
    | some b =>
      rw [tickWhite_some hb]
      exact render_kept hpre hsend hown _ (hpre _ (hown _ _ (by constructor <;> rfl) hg))
    | none => rw [tickWhite_none hb]; exact hown _ _ (by constructor <;> simp [Flow.state]) hg
  · by_cases hn : ((s.acnt + 1).toNat : Int) < (position s).toInt
    · rw [tickAnimate_idle hn]; exact hpre _ (hown _ _ (by constructor <;> rfl) hg)
    · cases hb : brightArg s.bright with
      | some b =>
        rw [tickAnimate_some (Int.not_lt.1 hn) hb]
        exact render_kept hpre hsend hown _ (hpre _ (hown _ _ (by constructor <;> rfl) hg))
      | none => rw [tickAnimate_none (Int.not_lt.1 hn) hb]; exact hown _ _ (by constructor <;> simp [Flow.state]) hg
  · by_cases hn : hueArg (position s) = none ∨ brightArg s.bright = none
    · rw [tickSolid_none hn]; exact hown _ _ (by constructor <;> simp [Flow.state]) hg
    · obtain ⟨v, hv⟩ := Option.ne_none_iff_exists'.1 (not_or.1 hn).1
      obtain ⟨b, hb⟩ := Option.ne_none_iff_exists'.1 (not_or.1 hn).2
      rw [tickSolid_some hv hb]
      exact render_kept hpre hsend hown _ (hpre _ (hown _ _ (by constructor <;> rfl) hg))

end

end Sys2Proof.Machine
end

