-- ==== Sys2Proof/Laws/PerInstr.lean ====
section
/-! SUPPORT. Statements for every operation, one lemma for each constructor of Instr. -/

namespace Sys2Proof.Laws.EncodedInRow

/-- The word an operation encodes to matches the operation's row of the operation map: the opcode and every reserved bit are the
row's (rules R97 to R102, R108). -/
def Statement (i : Instr) : Prop := i.op.accepts (encode i) = true

theorem plLoad (idx : Fin 8) (pixel : Pixel) : Statement (.plLoad idx pixel) := accepts_wordPix rfl _ _

theorem plTx : Statement .plTx := accepts_wordN

theorem plLatch : Statement .plLatch := accepts_wordN

theorem encEdge : Statement .encEdge := accepts_wordN

theorem encGet : Statement .encGet := accepts_wordN

theorem encCfg (min max step init : Int) (wrap : Bool) : Statement (.encCfg min max step init wrap) := accepts_wordCfg rfl _ _ _ _ _

theorem ctlRail (level : Bool) : Statement (.ctlRail level) := accepts_wordLvl rfl _

theorem ctlAdv : Statement .ctlAdv := accepts_wordN

theorem ctlEntry : Statement .ctlEntry := accepts_wordN

theorem ctlTick : Statement .ctlTick := accepts_wordN

theorem sysCli : Statement .sysCli := accepts_wordN

theorem sysSei : Statement .sysSei := accepts_wordN

theorem envPins (a b : Bool) : Statement (.envPins a b) := accepts_wordPin rfl _ _

theorem envBtn (level : Bool) : Statement (.envBtn level) := accepts_wordLvl rfl _

end Sys2Proof.Laws.EncodedInRow
end

