-- ==== Sys2Proof/Laws/Range.lean ====
section
/-! SUPPORT. The range lemma (rule R153) for each shared operation, and the operands of what decodes. -/

namespace Sys2Proof.Machine

variable {s t : State}

theorem RangeInv.congr (h : RangeInv s) (hp : t.pos = s.pos) (hi : t.imin = s.imin) (ha : t.imax = s.imax) : RangeInv t :=
  ⟨by rw [hp]; exact h.pos, by rw [hi]; exact h.imin, by rw [ha]; exact h.imax⟩

theorem RangeInv.edge (h : RangeInv s) : RangeInv (edge s) := by
  obtain ⟨la, lb, leq, pos, e, hp⟩ := edge_cases s
  rw [e]
  refine ⟨?_, h.imin, h.imax⟩
  rcases hp with rfl | ⟨eq, rfl⟩
  · exact h.pos
  · exact steppedPos_inRange h eq

theorem RangeInv.takeInterrupt (h : RangeInv s) : RangeInv (takeInterrupt s) :=
  (RangeInv.edge (s := enterHandler s) (h.congr rfl rfl rfl)).congr rfl rfl rfl

theorem RangeInv.othersMove (h : RangeInv s) : RangeInv (othersMove s).1 :=
  othersMove_induct (P := RangeInv) (fun _ _ _ h => h.congr rfl rfl rfl) (fun _ _ h => h.congr rfl rfl rfl)
    (fun _ h _ => h.takeInterrupt) (fun _ _ h => h.congr rfl rfl rfl) h

theorem RangeInv.preempt (h : RangeInv s) : RangeInv (preempt s) :=
  preempt_induct (P := RangeInv) (fun _ _ _ h => h.congr rfl rfl rfl) (fun _ _ h => h.congr rfl rfl rfl)
    (fun _ h _ => h.takeInterrupt) (fun _ _ h => h.congr rfl rfl rfl) h

theorem RangeInv.sendFrame (h : RangeInv s) : RangeInv (sendFrame s) :=
  sendFrame_induct (P := RangeInv) (fun _ _ _ h => h.congr rfl rfl rfl) (fun _ _ h => h.congr rfl rfl rfl)
    (fun _ h _ => h.takeInterrupt) (fun _ _ h => h.congr rfl rfl rfl) (fun _ _ h => h.congr rfl rfl rfl)
    (fun _ _ h => h.congr rfl rfl rfl) h

theorem RangeInv.configure (h : RangeInv s) {min max step init : Int} {w : Bool} (hmin : InInt8 min) (hmax : InInt8 max)
    (hinit : InInt8 init) : RangeInv (configure min max step init w s) := by
  refine mainSteps_induct (P := RangeInv) ?_ (fun s h => h.preempt) h
  intro f hf t ht
  obtain ⟨r, -, rfl⟩ := List.mem_map.1 hf
  cases r
  · exact ⟨(doubled_isBound hinit).1, ht.imin, ht.imax⟩
  · exact ⟨ht.pos, doubled_isBound hmin, ht.imax⟩
  · exact ⟨ht.pos, ht.imin, doubled_isBound hmax⟩
  · exact ht.congr rfl rfl rfl
  · exact ht.congr rfl rfl rfl

/-- What decodes has operands that fit their fields (rule R103). -/
theorem int8Field_inInt8 (w : CommandWord) (low : Nat) : InInt8 (int8Field w low) := toInt_range8 _

end Sys2Proof.Machine
end

