-- ==== Sys2Proof/Laws/Step.lean ====
section
/-! SUPPORT. What one step can be: the turn of the interrupt context, or main context's at each of its points. -/

namespace Sys2Proof.Machine

theorem stopped_none {s : State} : stopped s = none ↔ halted s = false := by
  unfold stopped halted
  cases hr : s.refused <;> cases hf : s.faults <;> simp

theorem halted_congr {s t : State} (hf : t.faults = s.faults) (hr : t.refused = s.refused) : halted t = halted s := by
  simp [halted, hf, hr]

@[simp] theorem halted_othersMove (s : State) : halted (othersMove s).1 = halted s := halted_congr (by simp) (by simp)

theorem moveSeq_running {p : Point} {s : State} (h : halted s = false) (hp : s.place = .between) :
    moveSeq p s = { s with seq := p } := by
  simp [moveSeq, h, hp]

theorem moveSeq_halted {p : Point} {s : State} (h : halted s = true) : moveSeq p s = s := by simp [moveSeq, h]

theorem moveSeq_inside {p : Point} {s : State} (h : s.place ≠ .between) : moveSeq p s = s := by simp [moveSeq, h]

theorem singleTurns_false {s : State} : singleTurns s = false ↔ WholePace s := by simp [singleTurns, WholePace]

/-- At the pace of whole operations a running machine's step is the turn after the environment's moves (rules R215, R225). -/
theorem step_whole {s : State} (h : halted s = false) (hw : WholePace s) : step s = agentTurn (othersMove s).1 := by
  simp [step, stopped_none.2 h, singleTurns_false.2 hw]

/-- At the pace of single turns a running machine's step is one turn. -/
theorem step_single {s : State} (h : halted s = false) (hs : singleTurns s = true) : step s = turnStep s := by
  simp [step, stopped_none.2 h, hs]

/-- What a step that answers a next state is: at the pace of whole operations a dispatch or main context's turn, else one turn
(rules R221, R222, R225). -/
theorem step_next {s t : State} (h : step s = .next t) :
    halted s = false ∧
      ((WholePace s ∧ ∃ u, u = (othersMove s).1 ∧
          (dispatchEnabled u = true ∧ t = takeInterrupt u ∨ dispatchEnabled u = false ∧ mainTurn exec u = .next t)) ∨
        (singleTurns s = true ∧ turnStep s = .next t)) := by
  have hs : halted s = false := by
    by_contra hc
    rw [step] at h
    cases hx : stopped s with
    | none => exact hc (stopped_none.1 hx)
    | some x =>
      rw [hx] at h
      revert hx
      unfold stopped
      split <;> intro hx <;> simp at hx
      · rw [← hx] at h; cases h
      · rw [← hx] at h; cases h
  refine ⟨hs, ?_⟩
  cases hp : singleTurns s with
  | true => rw [step_single hs hp] at h; exact .inr ⟨rfl, h⟩
  | false =>
    have hw := singleTurns_false.1 hp
    rw [step_whole hs hw] at h
    refine .inl ⟨hw, _, rfl, ?_⟩
    unfold agentTurn at h
    split at h <;> rename_i hd
    · injection h with h; exact .inl ⟨hd, h.symm⟩
    · exact .inr ⟨by simpa using hd, h⟩

theorem thenSeq_next {p : Point} {x : Host.Outcome State Fault Refusal} {t : State} (h : thenSeq p x = .next t) :
    ∃ u, x = .next u ∧ t = moveSeq p u := by
  cases x with
  | next u => injection h with h; exact ⟨u, rfl, h.symm⟩
  | fault f => cases h
  | refused r => cases h

/-- Main context's turn at a script's word (rules R217, R222). -/
theorem scriptTurn_next {run : Runner} {s t : State} {k : Nat} (h : scriptTurn run k s = .next t) :
    ∃ w, s.program[k]? = some w ∧
      ((∃ r, decode w = .error r ∧ t = refuse r s) ∨
        ∃ i u, decode w = .ok i ∧ run i s = .next u ∧ t = moveSeq (.word (k + 1)) u) := by
  unfold scriptTurn at h
  split at h
  · cases h
  · rename_i w hw
    refine ⟨w, hw, ?_⟩
    split at h
    · rename_i r hr
      injection h with h; exact .inl ⟨r, hr, h.symm⟩
    · rename_i i hi
      obtain ⟨u, he, ht⟩ := thenSeq_next h
      exact .inr ⟨i, u, hi, he, ht⟩

/-- Main context's turn, point by point, at either pace (rules R185, R217). -/
theorem mainTurn_next {run : Runner} {s t : State} (h : mainTurn run s = .next t) :
    (s.seq = .boot ∧ t = bootPoint s) ∨
    (s.seq = .entry ∧ ∃ u, run .ctlEntry s = .next u ∧ t = moveSeq .poll u) ∨
    (s.seq = .poll ∧ t = moveSeq (if s.pinBtn then .deb1 else .tick) s) ∨
    (s.seq = .tick ∧ tickBlocked s = true ∧ t = s) ∨
    (s.seq = .tick ∧ tickBlocked s = false ∧ ∃ u, run .ctlTick s = .next u ∧ t = moveSeq .poll u) ∨
    (s.seq = .deb1 ∧ t = moveSeq .wrel s) ∨
    (s.seq = .wrel ∧ t = if s.pinBtn then s else moveSeq .deb2 s) ∨
    (s.seq = .deb2 ∧ t = moveSeq .adv s) ∨
    (s.seq = .adv ∧ ∃ u, run .ctlAdv s = .next u ∧ t = moveSeq .entry u) ∨
    ∃ k, s.seq = .word k ∧ scriptTurn run k s = .next t := by
  unfold mainTurn at h
  split at h <;> rename_i hs
  · injection h with h; simp [hs, h]
  · obtain ⟨u, he, ht⟩ := thenSeq_next h; exact .inr (.inl ⟨hs, u, he, ht⟩)
  · injection h with h; simp [hs, h]
  · split at h <;> rename_i hb
    · injection h with h; exact .inr (.inr (.inr (.inl ⟨hs, hb, h.symm⟩)))
    · obtain ⟨u, he, ht⟩ := thenSeq_next h
      exact .inr (.inr (.inr (.inr (.inl ⟨hs, by simpa using hb, u, he, ht⟩))))
  · injection h with h; simp [hs, h]
  · injection h with h; simp [hs, h]
  · injection h with h; simp [hs, h]
  · obtain ⟨u, he, ht⟩ := thenSeq_next h
    exact .inr (.inr (.inr (.inr (.inr (.inr (.inr (.inr (.inl ⟨hs, u, he, ht⟩))))))))
  · exact .inr (.inr (.inr (.inr (.inr (.inr (.inr (.inr (.inr ⟨_, hs, h⟩))))))))

/-- Main context's turn at the pace of single turns: at its point, or from its place inside an operation. -/
theorem mainPart_next {s t : State} (h : mainPart s = .next t) :
    (s.place = .between ∧ mainTurn start s = .next t) ∨ (s.place ≠ .between ∧ t = moveSeq s.seq.after (resume s)) := by
  unfold mainPart at h
  split at h <;> rename_i hp
  · exact .inl ⟨hp, h⟩
  · injection h with h; exact .inr ⟨hp, h.symm⟩

/-- One turn: the environment's outside script mode, the interrupt context's, or main context's (rules R215, R217, R225). The pace stays. -/
theorem turnStep_next {s t : State} (h : turnStep s = .next t) :
    ∃ l, (s.turns.isSome = true → l.isSome = true) ∧
      (((∀ k, s.seq ≠ .word k) ∧ ((∃ a b, t = setPins a b { s with turns := l }) ∨ ∃ v, t = setBtn v { s with turns := l })) ∨
        (dispatchEnabled s = true ∧ t = handlerTurn { s with turns := l }) ∨
        (dispatchEnabled s = false ∧ mainPart { s with turns := l } = .next t)) := by
  have own : ∀ l, ownTurn { s with turns := l } = .next t →
      (dispatchEnabled s = true ∧ t = handlerTurn { s with turns := l }) ∨
        (dispatchEnabled s = false ∧ mainPart { s with turns := l } = .next t) := by
    intro l h
    unfold ownTurn at h
    split at h <;> rename_i hd
    · injection h with h; exact .inl ⟨hd, h.symm⟩
    · exact .inr ⟨by simpa [dispatchEnabled] using hd, h⟩
  have turn : ∀ x l, takeTurn x { s with turns := l } = .next t →
      ((∀ k, s.seq ≠ .word k) ∧ ((∃ a b, t = setPins a b { s with turns := l }) ∨ ∃ v, t = setBtn v { s with turns := l })) ∨
      (dispatchEnabled s = true ∧ t = handlerTurn { s with turns := l }) ∨
      (dispatchEnabled s = false ∧ mainPart { s with turns := l } = .next t) := by
    intro x l h
    unfold takeTurn at h
    split at h
    · exact .inr (own l h)
    · exact .inr (own l h)
    · exact .inr (own l h)
    · rename_i hw
      injection h with h; exact .inl ⟨fun k hk => hw k hk, .inl ⟨_, _, h.symm⟩⟩
    · rename_i hw
      injection h with h; exact .inl ⟨fun k hk => hw k hk, .inr ⟨_, h.symm⟩⟩
  unfold turnStep at h
  split at h
  · exact ⟨_, fun _ => rfl, turn _ _ h⟩
  · rename_i hl; exact ⟨some [], fun _ => rfl, by simpa [hl] using turn .own s.turns (by simpa using h)⟩
  · rename_i hl; exact ⟨none, by simp [hl], by simpa [hl] using turn .own s.turns (by simpa using h)⟩

end Sys2Proof.Machine
end

