-- ==== Sys2Proof/Laws/Turns.lean ====
section
/-! SUPPORT. The parts of the operations between two preemption points: they leave SEQ and the list of turns alone, and a whole operation
leaves main context's place and the list of turns alone. -/

namespace Sys2Proof.Machine

/-- Runs of steps join. -/
theorem steps_append (m n : Nat) (x y : State) (h : steps m x = some y) : steps (m + n) x = steps n y := by
  induction m generalizing x with
  | zero => simp [steps] at h; simp [h]
  | succ m ih =>
    rw [Nat.succ_add]
    simp only [steps] at h ⊢
    split at h
    · exact ih _ h
    · cases h
    · cases h

@[simp] theorem halted_takeInterrupt (s : State) : halted (takeInterrupt s) = halted s := halted_congr (by simp) (by simp)

@[simp] theorem halted_preempt (s : State) : halted (preempt s) = halted s := halted_congr (by simp) (by simp)

/-- After a preemption point no dispatch is enabled (rules R225, R226). -/
theorem preempt_quiet (s : State) : dispatchEnabled (preempt s) = false := by
  unfold preempt preemptRan
  dsimp only
  split
  · obtain ⟨la, lb, leq, pos, h, -⟩ := takeInterrupt_cases (othersMove s).1
    rw [h]; simp [dispatchEnabled]
  · rename_i h; simpa only [Bool.not_eq_true] using h

/-- A whole operation ends where it began: between two operations, at the same pace. -/
theorem exec_place {i : Instr} {s t : State} (h : exec i s = .next t) : t.place = s.place ∧ t.turns = s.turns := by
  cases i
  case ctlTick =>
    simp only [exec, execCtlTick] at h
    split_ifs at h
    injection h with h; subst h
    exact ⟨(tick_frame s).place, (tick_frame s).turns⟩
  all_goals injection h with h; subst h
  case plTx => exact ⟨(transmit_frame s).place, (transmit_frame s).turns⟩
  case plLatch => exact ⟨(latch_othersOnly s).place, (latch_othersOnly s).turns⟩
  case encEdge => exact ⟨edge_place s, edge_turns s⟩
  case encCfg mn mx st ini w => exact ⟨(configure_encoderOnly mn mx st ini w s).place, (configure_encoderOnly mn mx st ini w s).turns⟩
  case ctlEntry => exact ⟨(entry_encoderOnly s).place, (entry_encoderOnly s).turns⟩
  all_goals exact ⟨rfl, rfl⟩

/-- PL.TX's first part, in its cases (rule R124). -/
theorem startTx_latchMissing (a) {s : State} (h : s.lowed = true) : startTx a s = leave (raise .latchMissing s) := by simp [startTx, h]

theorem startTx_unwritten (a) {s : State} (h : s.lowed = false) (hw : frameWritten s = false) :
    startTx a s = leave (raise .unwrittenFrame s) := by
  simp [startTx, h, hw]

theorem startTx_written (a) {s : State} (h : s.lowed = false) (hw : frameWritten s = true) :
    startTx a s = match s.params.maskScope with
      | .frame => startBits (frameBits s.fb) [] a s
      | .pixel => nextPixel false s.fb.toList a s := by
  unfold startTx
  rw [h, hw]
  cases s.params.maskScope <;> rfl

/-! The parts leave SEQ alone: it moves when the operation ends (rule R228). -/
theorem seq_unmask (a b c x) : (unmask a b c x).seq = x.seq := by unfold unmask; split_ifs <;> rfl

theorem seq_bitStep (a b c d x) : (bitStep a b c d x).seq = x.seq := by
  unfold bitStep; split
  · exact seq_unmask ..
  · split_ifs
    · rw [seq_unmask]; rfl
    · rfl

theorem seq_startBits (a b c x) : (startBits a b c x).seq = x.seq := by unfold startBits; rw [seq_bitStep]; rfl

theorem seq_nextPixel (a b c x) : (nextPixel a b c x).seq = x.seq := by
  unfold nextPixel; split
  · rfl
  · rw [seq_startBits]; split_ifs <;> rfl

theorem seq_startTx (a x) : (startTx a x).seq = x.seq := by
  unfold startTx; split_ifs
  · rfl
  · rfl
  · split
    · exact seq_startBits ..
    · exact seq_nextPixel ..

theorem seq_startCfg (mn mx st ini w) (b : State) : (startCfg mn mx st ini w b).seq = b.seq := by
  unfold startCfg cfgStep; split
  · rfl
  · rename_i r _ _; cases r <;> rfl

/-! The parts do not read the list of turns. -/

/-- The state with this list of turns. -/
@[simps] def atPace (l : Option (List Turn)) (s : State) : State := { s with turns := l }

theorem edge_atPace (x : State) (l) : edge (atPace l x) = atPace l (edge x) := by
  unfold atPace edge sample; dsimp only; split_ifs <;> rfl

theorem cfgStep_atPace (todo mn mx st ini w) (x : State) (l) :
    cfgStep todo mn mx st ini w (atPace l x) = atPace l (cfgStep todo mn mx st ini w x) := by
  unfold cfgStep; split
  · rfl
  · rename_i r rest; cases r <;> rfl

theorem unmask_atPace (a b c) (x : State) (l) : unmask a b c (atPace l x) = atPace l (unmask a b c x) := by
  unfold atPace unmask; split_ifs <;> rfl

theorem bitStep_atPace (a b c d) (x : State) (l) : bitStep a b c d (atPace l x) = atPace l (bitStep a b c d x) := by
  unfold bitStep; split
  · exact unmask_atPace ..
  · split_ifs
    · exact unmask_atPace _ _ _ (emit _ x) l
    · rfl

theorem startBits_atPace (a b c) (x : State) (l) : startBits a b c (atPace l x) = atPace l (startBits a b c x) :=
  bitStep_atPace _ _ _ _ (setIe false x) l

theorem nextPixel_atPace (a b c) (x : State) (l) : nextPixel a b c (atPace l x) = atPace l (nextPixel a b c x) := by
  unfold nextPixel; split
  · rfl
  · split_ifs
    · exact bitStep_atPace _ _ _ _ (setIe false (emit .gap x)) l
    · exact startBits_atPace ..

theorem startTx_atPace (a) (x : State) (l) : startTx a (atPace l x) = atPace l (startTx a x) := by
  cases hl : x.lowed with
  | true => rw [startTx_latchMissing a hl, startTx_latchMissing (s := atPace l x) a hl]; rfl
  | false =>
    cases hw : frameWritten x with
    | false => rw [startTx_unwritten a hl hw, startTx_unwritten (s := atPace l x) a hl hw]; rfl
    | true =>
      rw [startTx_written a hl hw, startTx_written (s := atPace l x) a hl hw, atPace_params, atPace_fb]
      cases x.params.maskScope
      · exact startBits_atPace ..
      · exact nextPixel_atPace ..

theorem afterRead_atPace (v) (x : State) (l) : afterRead v (atPace l x) = atPace l (afterRead v x) := by
  have e : tickEnd v (atPace l x) = (atPace l (tickEnd v x).1, (tickEnd v x).2) := by
    unfold tickEnd whiteEnd animateEnd solidEnd
    rw [atPace_state]
    cases x.state
    · rfl
    · rfl
    · dsimp only; rw [atPace_acnt]; split_ifs <;> rfl
    · rfl
  unfold afterRead
  rw [e]
  dsimp only
  cases (tickEnd v x).2 <;> rfl

theorem loadStep_atPace (a) (x : State) (l) : loadStep a (atPace l x) = atPace l (loadStep a x) := by
  unfold loadStep; split <;> rfl

theorem resume_atPace (x : State) (l) : resume (atPace l x) = atPace l (resume x) := by
  unfold resume; rw [atPace_place]
  cases x.place
  all_goals dsimp only
  · exact cfgStep_atPace ..
  · exact cfgStep_atPace ..
  · exact afterRead_atPace ..
  · rfl
  · exact loadStep_atPace ..
  · exact startTx_atPace ..
  · exact bitStep_atPace ..
  · exact nextPixel_atPace ..
  · rfl
  · rfl

theorem start_atPace (i : Instr) (x : State) (l) {y} (h : start i x = .next y) :
    start i (atPace l x) = .next (atPace l y) := by
  cases i
  all_goals (try (injection h with h; subst h; try rfl))
  · exact congrArg _ (startTx_atPace _ _ _)
  · simp only [start, exec, execEncEdge]; rw [edge_atPace]
  · exact congrArg _ (cfgStep_atPace ..)
  · unfold start startEntry entryOff entryAnimate
    rw [atPace_state]
    cases x.state
    · rfl
    · rfl
    · rfl
    · exact congrArg _ (cfgStep_atPace ..)
  · unfold start at h ⊢
    rw [show tickBlocked (atPace l x) = tickBlocked x from rfl]
    split_ifs at h ⊢
    injection h with h; subst h
    unfold startTick
    rw [atPace_state]
    cases x.state <;> rfl

end Sys2Proof.Machine
end

