-- ==== Sys2Proof/Machine/Assembler.lean ====
section
/-! DEFINITION. The spec's assembler: pseudo-instructions (rule R109), the syntax of one line read (rule R108) and written. The block
itself has no toolchain; no step uses this file. -/

namespace Sys2Proof.Assembler

/-- A pixel word from its channels in the syntax's order, green first (rules R91, R108). -/
def channels (g r b : BitVec 8) : Pixel := g ++ r ++ b

/-- `pl.fill` (rule R109). -/
def fill (g r b : BitVec 8) : List Instr := (List.finRange 8).map fun i => .plLoad i (channels g r b)

/-- `pl.show` (rule R109). -/
def showFrame : List Instr := [.plTx, .plLatch]

/-- `env.cw`: one CW detent from rest at `00` (rules R94, R109). -/
def cw : List Instr := [.envPins true false, .envPins true true, .envPins false true, .envPins false false]

/-- `env.ccw`: one CCW detent from rest at `00` (rules R94, R109). -/
def ccw : List Instr := [.envPins false true, .envPins true true, .envPins true false, .envPins false false]

/-- `env.press` (rule R109). -/
def press : List Instr := [.envBtn true, .envBtn false]

/-- `ctl.step`: one state transition, as the main loop does it (rule R109). -/
def ctlStep : List Instr := [.ctlAdv, .ctlEntry]

/-- The value of a digit in a base up to 16; a hexadecimal letter in either case (DESIGN CHOICE, log 32). -/
def digit (base : Nat) (c : Char) : Option Nat :=
  let n := c.toNat
  let v := if 48 ≤ n ∧ n ≤ 57 then n - 48
    else if 97 ≤ n ∧ n ≤ 102 then n - 87
    else if 65 ≤ n ∧ n ≤ 70 then n - 55
    else 16
  if v < base then some v else none

/-- The number a non-empty list of digits spells. -/
def digits (base : Nat) (cs : List Char) : Option Nat :=
  if cs = [] then none
  else cs.foldl (fun acc c => do
    let a ← acc
    let d ← digit base c
    pure (a * base + d)) (some 0)

/-- A numeric literal: decimal, possibly negative, or hexadecimal after `0x` (rule R108). -/
def literal : List Char → Option Int
  | '0' :: 'x' :: cs => (digits 16 cs).map Int.ofNat
  | '-' :: cs => (digits 10 cs).map fun n => -(n : Int)
  | cs => (digits 10 cs).map Int.ofNat

/-- A literal of an unsigned field below `bnd`. The spec does not say what a value outside the field does: DESIGN CHOICE, the line is
rejected (log 32). -/
def unsigned (bnd : Nat) (cs : List Char) : Option Nat := do
  let v ← literal cs
  if 0 ≤ v ∧ v < bnd then some v.toNat else none

/-- A literal of an `int8` field. The spec does not say what a value outside -128..127 does, such as `0xF6`, of which the column `MIN8` of
rule R108 would take the low 8 bits: DESIGN CHOICE, the line is rejected (log 32). -/
def signed8 (cs : List Char) : Option Int := do
  let v ← literal cs
  if InInt8 v then some v else none

/-- A level, `0` or `1`, by its value in any form of literal; another value rejects the line (DESIGN CHOICE, log 32). -/
def level (cs : List Char) : Option Bool := (unsigned 2 cs).map (· == 1)

/-- Blanks at both ends removed; a blank is a space (DESIGN CHOICE, log 32). -/
def trim (cs : List Char) : List Char := ((cs.dropWhile (· == ' ')).reverse.dropWhile (· == ' ')).reverse

/-- A line without its comment (rule R108). -/
def uncomment (cs : List Char) : List Char := cs.takeWhile (· != ';')

/-- The operands of a line, separated by commas. -/
def operands (cs : List Char) : List (List Char) := if trim cs = [] then [] else (cs.splitOn ',').map trim

/-- The value of the keyword operand `k=` among the operands: exactly one such operand stands there, with no blank around its sign
(DESIGN CHOICE, log 32). -/
def keyword (k : Char) (ops : List (List Char)) : Option (BitVec 8) :=
  match ops.filter fun o => o.take 2 == [k, '='] with
  | [o] => (unsigned 256 (o.drop 2)).map (BitVec.ofNat 8)
  | _ => none

/-- The three channel keywords, in any order (rule R108). -/
def pixelOperands (ops : List (List Char)) : Option (BitVec 8 × BitVec 8 × BitVec 8) :=
  if ops.length = 3 then do
    let g ← keyword 'g' ops
    let r ← keyword 'r' ops
    let b ← keyword 'b' ops
    pure (g, r, b)
  else none

/-- The wrap operand of `enc.cfg` (rule R108). -/
def wrapOperand (cs : List Char) : Option Bool :=
  if cs = "wrap".toList then some true else if cs = "nowrap".toList then some false else none

/-- An operation that takes no operand. -/
def bare (ops : List (List Char)) (is : List Instr) : Option (List Instr) := if ops = [] then some is else none

/-- The operations a mnemonic with its operands stands for (rules R108, R109). -/
def lineOps (mnemonic : String) (ops : List (List Char)) : Option (List Instr) :=
  match mnemonic with
  | "pl.load" =>
    match ops with
    | i :: px => do
      let idx ← unsigned 8 i
      let (g, r, b) ← pixelOperands px
      pure [.plLoad (Fin.ofNat 8 idx) (channels g r b)]
    | [] => none
  | "pl.tx" => bare ops [.plTx]
  | "pl.latch" => bare ops [.plLatch]
  | "enc.edge" => bare ops [.encEdge]
  | "enc.get" => bare ops [.encGet]
  | "enc.cfg" =>
    match ops with
    | [mn, mx, st, ini, w] => do
      let mn ← signed8 mn
      let mx ← signed8 mx
      let st ← signed8 st
      let ini ← signed8 ini
      let w ← wrapOperand w
      pure [.encCfg mn mx st ini w]
    | _ => none
  | "ctl.rail" =>
    match ops with
    | [v] => (level v).map fun v => [.ctlRail v]
    | _ => none
  | "ctl.adv" => bare ops [.ctlAdv]
  | "ctl.entry" => bare ops [.ctlEntry]
  | "ctl.tick" => bare ops [.ctlTick]
  | "sys.cli" => bare ops [.sysCli]
  | "sys.sei" => bare ops [.sysSei]
  | "env.pins" =>
    match ops with
    | [a, b] => do
      let a ← level a
      let b ← level b
      pure [.envPins a b]
    | _ => none
  | "env.btn" =>
    match ops with
    | [v] => (level v).map fun v => [.envBtn v]
    | _ => none
  | "pl.fill" => (pixelOperands ops).map fun (g, r, b) => fill g r b
  | "pl.show" => bare ops showFrame
  | "env.cw" => bare ops cw
  | "env.ccw" => bare ops ccw
  | "env.press" => bare ops press
  | "ctl.step" => bare ops ctlStep
  | _ => none

/-- The words of one source line, `none` where the file rejects it; a blank or comment line has none (rule R108; log 32). -/
def assembleLine (line : String) : Option (List CommandWord) :=
  let cs := trim (uncomment line.toList)
  if cs = [] then some []
  else (lineOps (String.ofList (cs.takeWhile (· != ' '))) (operands (cs.dropWhile (· != ' ')))).map fun is => is.map encode

/-- The words of a program, one source line each; a rejected line rejects the program (DESIGN CHOICE, log 32). -/
def assemble (lines : List String) : Option (List CommandWord) := (lines.mapM assembleLine).map List.flatten

/-- A level as the syntax writes it. -/
def levelText (v : Bool) : String := if v then "1" else "0"

/-- An operation as the syntax writes it (rule R108). -/
def print : Instr → String
  | .plLoad idx px => "pl.load " ++ toString idx.val ++ ", g=" ++ toString (px.extractLsb' 16 8).toNat ++ ", r=" ++
      toString (px.extractLsb' 8 8).toNat ++ ", b=" ++ toString (px.extractLsb' 0 8).toNat
  | .plTx => "pl.tx"
  | .plLatch => "pl.latch"
  | .encEdge => "enc.edge"
  | .encGet => "enc.get"
  | .encCfg mn mx st ini w => "enc.cfg " ++ toString mn ++ ", " ++ toString mx ++ ", " ++ toString st ++ ", " ++ toString ini ++
      (if w then ", wrap" else ", nowrap")
  | .ctlRail v => "ctl.rail " ++ levelText v
  | .ctlAdv => "ctl.adv"
  | .ctlEntry => "ctl.entry"
  | .ctlTick => "ctl.tick"
  | .sysCli => "sys.cli"
  | .sysSei => "sys.sei"
  | .envPins a b => "env.pins " ++ levelText a ++ ", " ++ levelText b
  | .envBtn v => "env.btn " ++ levelText v

end Sys2Proof.Assembler
end

