-- ==== Sys2Proof/Tests/Slice0.lean ====
section
/-! SUPPORT. Tests. Expected values come from spec file 95_test_vectors.md (the vector's id is named) or from the rule named; the
theorems `test_meets_<Name>` show states and operands that meet the hypotheses of `Obligations.<Name>`. -/

namespace Sys2Proof.Tests

open Sys2Proof.Machine

/-! Helpers -/

/-- A script's launch with zero draws: SEQ = 0, IE = 1. -/
def script : State := State.launchScript Draws.zero Params.spec []

/-- `CFG_W5` of the vectors at history `H_CW`, lines `00`. -/
def w5 : State := { script with pos := 10, imin := 4, imax := 30, encStep := 1, lb := true }

/-- `CFG_W5` at history `H_CCW`. -/
def w5ccw : State := { script with pos := 10, imin := 4, imax := 30, encStep := 1, leq := true }

/-- `CFG_S` at history `H_CW`. -/
def solid : State := { script with state := .solid, imin := 0, imax := 96, encStep := 1, wrap := true, lb := true }

/-- Every entry of the frame buffer written with one word. -/
def filled (w : Pixel) (s : State) : State := { s with fb := Vector.replicate 8 w, fbw := Vector.replicate 8 true }

/-- Autonomous mode at a point, interrupts enabled, with a schedule. -/
def auto (p : Point) (sched : List (List Move)) (s : State) : State := { s with seq := p, ie := true, sched := sched }

/-- The next state of an outcome. -/
def next : Host.Outcome State Fault Refusal → Option State
  | .next s => some s
  | .fault _ => none
  | .refused _ => none

/-- The state an operation leaves. -/
def after (i : Instr) (s : State) : Option State := next (exec i s)

/-- POS after each edge's handler run. -/
def positions (lines : List (Bool × Bool)) (s : State) : List Int :=
  match lines with
  | [] => []
  | x :: rest => let t := edge (setPins x.1 x.2 s); t.pos.toInt :: positions rest t

/-- POS, IMIN, IMAX, STEP and WRAP. -/
def encoder (s : State) : Int × Int × Int × Int × Bool := (s.pos.toInt, s.imin.toInt, s.imax.toInt, s.encStep.toInt, s.wrap)

/-- An order of configure's writes that puts POS last. -/
def posLast : CfgOrder := ⟨1, 1, 1, 1⟩

/-- `n` equal symbols. -/
def run (n : Nat) (x : Symbol) : List Symbol := List.replicate n x

/-! Well-formedness: each check refuses (rule R104) -/

theorem test_illFormed_min : (Instr.encCfg (-129) 0 0 0 false).wellFormed = false := by decide

theorem test_illFormed_max : (Instr.encCfg 0 128 0 0 false).wellFormed = false := by decide

theorem test_illFormed_step : (Instr.encCfg 0 0 128 0 false).wellFormed = false := by decide

theorem test_illFormed_init : (Instr.encCfg 0 0 0 (-129) false).wellFormed = false := by decide

/-! Words written out from the encodings (rules R97 to R102) -/

theorem test_decode_plLoad : decode 0x1107000000FFFFFF = .ok (.plLoad 7 0xFFFFFF) := by decide   -- X11

theorem test_decode_plTx : decode 0x1200000000000000 = .ok .plTx := by decide

theorem test_decode_plLatch : decode 0x1300000000000000 = .ok .plLatch := by decide

theorem test_decode_encEdge : decode 0x2100000000000000 = .ok .encEdge := by decide

theorem test_decode_encGet : decode 0x2200000000000000 = .ok .encGet := by decide

theorem test_decode_encCfg : decode 0x23000000F60A0100 = .ok (.encCfg (-10) 10 1 0 false) := by decide   -- X10

theorem test_decode_encCfg_wrap : decode 0x23000001807F8000 = .ok (.encCfg (-128) 127 (-128) 0 true) := by decide   -- X9

theorem test_decode_ctlRail : decode 0x3100000000000001 = .ok (.ctlRail true) := by decide

theorem test_decode_ctlAdv : decode 0x3200000000000000 = .ok .ctlAdv := by decide

theorem test_decode_ctlEntry : decode 0x3300000000000000 = .ok .ctlEntry := by decide

theorem test_decode_ctlTick : decode 0x3400000000000000 = .ok .ctlTick := by decide

theorem test_decode_sysCli : decode 0x4100000000000000 = .ok .sysCli := by decide

theorem test_decode_sysSei : decode 0x4200000000000000 = .ok .sysSei := by decide

theorem test_decode_envPins : decode 0xE100000000000002 = .ok (.envPins true false) := by decide

theorem test_decode_envBtn : decode 0xE200000000000001 = .ok (.envBtn true) := by decide

/-- X1 and X2. -/
theorem test_decode_illegalOpcode :
    decode 0 = .error .illegalOpcode ∧ decode 0xFF00000000000000 = .error .illegalOpcode ∧ Invalid.illegalOpcode.code = 16 := by
  decide

/-- X3 to X7, one for each format. -/
theorem test_decode_reservedBits :
    decode 0x1200000000000001 = .error .reservedBits ∧ decode 0x1108000000000000 = .error .reservedBits ∧
      decode 0x2300000200000000 = .error .reservedBits ∧ decode 0xE100000000000004 = .error .reservedBits ∧
        decode 0x3100000000000002 = .error .reservedBits ∧ Invalid.reservedBits.code = 17 := by
  decide

theorem test_decodeTableWord : decodeTableWord 64 0x23000000020F0105 = some (.encCfg 2 15 1 5 false) := by decide

/-- A word placed after power-on runs at the next step (log 28). -/
theorem test_withFetchWord :
    (next (step (State.reset.withFetchWord 64 0x3100000000000001))).map (fun t => (t.rail, t.seq)) = some (true, .word 1) := by
  decide

/-! PixelLink -/

/-- V2. -/
theorem test_plLoad :
    (after (.plLoad 3 0x123456) script).map (fun t => (t.fb[3], t.fbw.toList)) =
      some (0x123456, [false, false, false, true, false, false, false, false]) := by
  decide

/-- V11, V8, V3 and V4: the bits of a frame, and the tests in the rule's order. -/
theorem test_plTx :
    (after .plTx (filled 0 script)).map (fun t => t.wire) = some (run 192 .bit0) ∧
    (after .plTx { filled 0 script with fb := (Vector.replicate 8 0).set 0 0x800001 }).map (fun t => t.wire) =
      some ([.bit1] ++ run 22 .bit0 ++ [.bit1] ++ run 168 .bit0) ∧
    (after .plTx { filled 0 script with lowed := true, seq := .word 9 }).map (fun t => (t.faults, t.wire)) =
      some ([(.latchMissing, .word 9)], []) ∧
    (after .plTx { filled 0 script with fbw := (Vector.replicate 8 true).set 7 false, seq := .word 7 }).map
      (fun t => (t.faults, t.lowed)) = some ([(.unwrittenFrame, .word 7)], false) := by
  decide +kernel

/-- V5. -/
theorem test_plLatch :
    ((after .plTx (filled 0x00FF00 { script with rail := true })).bind (after .plLatch)).map (fun t => (t.displayed, t.lowed)) =
      some (some (List.replicate 8 0x00FF00), false) := by
  decide +kernel

/-- V12 starts here: MASK_SCOPE = PIXEL, an edge in pixel 2. The schedule is counted in preemption points: 23 in each pixel and one
after it. -/
def pixelScope : State :=
  auto .tick (List.replicate 60 [] ++ [[.pins true false]]) (filled 0 { w5 with params := { Params.spec with maskScope := .pixel } })

/-- V12 and V7: a handler run between pixel 2 and pixel 3 leaves GAP after symbol 71; with MASK_SCOPE = FRAME the same edge stays
pending and the frame has no gap. -/
theorem test_plTx_masks :
    (after .plTx pixelScope).map (fun t => t.wire) = some (run 72 .bit0 ++ [.gap] ++ run 120 .bit0) ∧
      (after .plTx pixelScope).map (fun t => (t.pos, t.ipend)) = some (11, false) ∧
        (after .plTx { pixelScope with params := Params.spec }).map (fun t => (t.wire, t.pos, t.ipend, t.ie)) =
          some (run 192 .bit0, 10, true, true) := by
  decide +kernel

/-! Encoder -/

/-- E2 and E21a to E21c: one edge, and MIN above MAX. -/
theorem test_encEdge :
    (after .encEdge { w5 with pinA := true }).map (fun t => (t.pos.toInt, history t)) = some (11, true, false, false) ∧
      positions [(true, false)] { w5 with pos := 14, imin := 20, imax := 10 } = [10] ∧
        positions [(true, false)] { w5 with pos := 14, imin := 20, imax := 10, wrap := true } = [20] ∧
          positions [(false, true), (true, true)] { w5ccw with pos := 14, imin := 20, imax := 10 } = [14, 10] := by
  decide

/-- E3 to E10, E12, E13, E23a and E28: detents, reversals, clamps and wraps. -/
theorem test_encEdge_detents :
    positions cwLines w5 = [11, 11, 12, 12] ∧ positions ccwLines w5ccw = [10, 9, 9, 8] ∧
      positions ccwLines w5 = [10, 10, 10, 8] ∧ positions cwLines w5ccw = [10, 10, 12, 12] ∧
        positions cwLines { w5 with pos := 30 } = [30, 30, 30, 30] ∧ positions ccwLines { w5ccw with pos := 4 } = [4, 4, 4, 4] ∧
          positions cwLines { w5 with lb := false } = [10, 10, 11, 11] ∧
            positions ccwLines { w5 with lb := false } = [10, 8, 8, 7] ∧
              positions cwLines { solid with pos := 96 } = [0, 0, 1, 1] ∧
                positions ccwLines { solid with lb := false, leq := true } = [0, 96, 96, 95] ∧
                  positions ccwLines solid = [0, 0, 0, 96] ∧
                    positions ccwLines { w5ccw with pos := 4, wrap := true } = [4, 30, 30, 29] := by
  decide

/-- E19 and E20: a negative POS under both divisions, and the whole range. -/
theorem test_encGet :
    (after .encGet { w5 with pos := -1 }).map (fun t => t.reads) = some [0] ∧
      (after .encGet { w5 with pos := -1, params := { Params.spec with getDiv := .floor } }).map (fun t => t.reads) = some [-1] ∧
        positions (cwLines ++ cwLines) { w5 with pos := 0, imin := -256, imax := 254, encStep := -128, wrap := true } =
          [-128, -128, -256, -256, 254, 254, 126, 126] := by
  decide

/-- E1 and E20. -/
theorem test_encCfg :
    (after (.encCfg 2 15 1 5 false) script).map encoder = some (10, 4, 30, 1, false) ∧
      (after (.encCfg (-128) 127 (-128) 0 true) script).map encoder = some (0, -256, 254, -128, true) := by
  decide

/-- E17, steps 2 to 4: with POS written first, a detent between the first two writes leaves POS = 32 outside the new bounds. The two
preemption points before it are the calls of ENTRY_WHITE and of ENC.CFG. -/
theorem test_ctlEntry_race :
    (after .ctlEntry (auto .entry
      [[], [.pins true false, .handler, .pins true true, .handler, .pins false true, .handler, .pins false false, .handler]]
      { solid with state := .white, bright := 15, pos := 60 })).map (fun t => (encoder t, history t)) =
        some ((32, 4, 30, 1, false), hCw) := by
  decide

/-! Controller -/

theorem test_ctlRail : (after (.ctlRail true) script).map (fun t => t.rail) = some true := by decide   -- T1

theorem test_ctlAdv :   -- T2
    (after .ctlAdv solid).map (fun t => t.state) = some .off ∧ (after .ctlAdv script).map (fun t => t.state) = some .white := by
  decide

/-- T5, T7 and T6. -/
theorem test_ctlEntry :
    (after .ctlEntry { script with state := .white, bright := 15 }).map (fun t => t.rail) = some true ∧
      (after .ctlEntry { script with state := .white, bright := 15 }).map encoder = some (30, 4, 30, 1, false) ∧
        (after .ctlEntry { solid with hue := 47 }).map encoder = some (94, 0, 96, 1, true) ∧
          after .ctlEntry { w5 with state := .animate } = some { w5 with state := .animate } :=
  ⟨by decide, by decide, by decide, rfl⟩

/-- T10, T14, T12a to T12c: the stored values, the count and the phase, and one frame with its latch on the wire. -/
theorem test_ctlTick :
    (after .ctlTick { w5 with state := .white, pos := 21 }).map (fun t => (t.bright, t.reads, t.wire.length, t.lowed)) =
      some (10, [10], 193, false) ∧
    (after .ctlTick { solid with pos := 96 }).map (fun t => (t.hue, t.wire.length, t.faults)) = some (48, 193, []) ∧
    (after .ctlTick { w5 with state := .animate, pos := 4 }).map (fun t => (t.acnt, t.aphase, t.wire)) = some (1, 0, []) ∧
    (after .ctlTick { w5 with state := .animate, pos := 4, acnt := 1, aphase := 47 }).map (fun t => (t.acnt, t.aphase, t.wire.length)) =
      some (0, 0, 193) ∧
    (List.finRange 8).map (fun i => (animateHue 11 i).val) = [11, 17, 23, 29, 35, 41, 47, 5] := by
  decide +kernel

/-- T11, T13, T16 and T8b: the faults, with the writes before them, and the stuck wait. -/
theorem test_ctlTick_stops :
    (after .ctlTick { w5 with state := .white, pos := 32 }).map (fun t => (t.bright, t.faults, t.wire)) =
      some (16, [(.colourDomain, .word 0)], []) ∧
    (after .ctlTick { w5 with state := .animate, pos := 4, acnt := 1, bright := 16 }).map (fun t => (t.acnt, t.aphase, t.faults)) =
      some (0, 1, [(.colourDomain, .word 0)]) ∧
    (after .ctlTick { solid with pos := 20, bright := 16 }).map (fun t => (t.hue, t.faults)) =
      some (10, [(.colourDomain, .word 0)]) ∧
    exec .ctlTick script = .fault .stuckInWait :=
  ⟨by decide +kernel, by decide +kernel, by decide +kernel, rfl⟩

/-! System, environment, interrupts -/

/-- Y1. -/
theorem test_sysCli : (after .sysCli { script with ipend := true }).map (fun t => (t.ie, t.ipend)) = some (false, true) := by decide

/-- The state after two steps. -/
def twoSteps (s : State) : Option State := (next (step s)).bind fun t => next (step t)

/-- Y2: the step after SYS.SEI is the handler's. -/
theorem test_sysSei :
    (twoSteps { w5 with program := [0x4200000000000000], ie := false, ipend := true, pinA := true }).map
      (fun t => (t.ie, t.ipend, t.pos, t.seq)) = some (true, false, 11, .word 1) := by
  decide

/-- Y3 and Y4. -/
theorem test_envPins :
    (after (.envPins true false) script).map (fun t => (t.pinA, t.pinB, t.ipend)) = some (true, false, true) ∧
      (after (.envPins false false) script).map (fun t => t.ipend) = some false := by
  decide

/-- Y5. -/
theorem test_envBtn : (after (.envBtn true) script).map (fun t => (t.pinBtn, t.ipend)) = some (true, false) := by decide

/-- E15, step 4: two edges in one masked window leave one handler run, which samples `11` and confirms no step. -/
theorem test_pending_collapse :
    (next (step (setPins true true (setPins true false w5)))).map (fun t => (t.pos.toInt, history t, t.ipend)) =
      some (10, (true, true, false), false) := by
  decide

/-- X12: the refusal at word 1, and the stop that follows. -/
theorem test_refusal :
    step { script with seq := .word 1, program := [0x3100000000000001, 0x1200000000000001] } =
        .next { script with
          seq := .word 1, program := [0x3100000000000001, 0x1200000000000001], refused := some (.reservedBits, .word 1) } ∧
      step { script with refused := some (.reservedBits, .word 1) } = .refused .reservedBits :=
  ⟨rfl, rfl⟩

/-- T17: POLL, WREL and the wait on the release. -/
theorem test_button :
    (next (step (auto .poll [[.btn true]] w5))).map (fun t => t.seq) = some .deb1 ∧
      (next (step { auto .wrel [] w5 with pinBtn := true })).map (fun t => t.seq) = some .wrel ∧
        (next (step (auto .wrel [] w5))).map (fun t => t.seq) = some .deb2 := by
  decide

/-- Y10. -/
theorem test_boot :
    (twoSteps State.reset).map (fun t => (t.ie, t.rail, t.seq, t.wire)) = some (true, false, .poll, []) ∧
      (twoSteps State.reset).map encoder = some (encoder State.reset) := by
  decide

/-! The assembler -/

/-- Examples of rules R108 and R109. -/
theorem test_assemble :
    Assembler.assemble ["pl.load 3, g=0x12, r=0x34, b=0x56 ; one entry", "enc.cfg -10, 10, 1, 0, nowrap", "env.cw"] =
      some [0x1103000000123456, 0x23000000F60A0100, 0xE100000000000002, 0xE100000000000003, 0xE100000000000001,
        0xE100000000000000] := by
  decide +kernel

/-! States and operands that meet the hypotheses of the obligations, at boundary values -/

theorem test_meets_DecodeOfEncode :
    (Instr.encCfg (-128) 127 (-128) 127 true).wellFormed = true ∧ (Instr.plLoad 7 0xFFFFFF).wellFormed = true := by decide

theorem test_meets_EncodeOfDecode : decode 0x230000017F80FF00 = .ok (.encCfg 127 (-128) (-1) 0 true) := by decide

theorem test_meets_OneRowPerWord : Op.encCfg.accepts 0x23000001FFFFFFFF = true ∧ Op.plLoad.accepts 0x1107000000FFFFFF = true := by
  decide

/-- One word for each clause: opcodes beside the map's, the lowest and the highest reserved bit, and a row's own word. -/
theorem test_meets_InvalidWordsRefuse :
    (∀ o : Op, o.opcode ≠ opcodeOf 0x1000000000000000) ∧ (∀ o : Op, o.opcode ≠ opcodeOf 0xE300000000000000) ∧
    (Op.plTx.opcode = opcodeOf 0x1200000000000001 ∧ (0x1200000000000001 : CommandWord) &&& Op.plTx.format.mask ≠ Op.plTx.pattern) ∧
    (Op.encCfg.opcode = opcodeOf 0x2380000000000000 ∧
      (0x2380000000000000 : CommandWord) &&& Op.encCfg.format.mask ≠ Op.encCfg.pattern) ∧
    (Op.encCfg.opcode = opcodeOf 0x23000001FFFFFFFF ∧
      (0x23000001FFFFFFFF : CommandWord) &&& Op.encCfg.format.mask = Op.encCfg.pattern) := by
  refine ⟨?_, ?_, by decide, by decide, by decide⟩ <;> intro o <;> cases o <;> decide

/-- A script of one word. -/
def scriptOf (w : CommandWord) (s : State) : State := { s with program := [w] }

theorem test_meets_InvalidWordsRefuse_step :
    halted (scriptOf 0 script) = false ∧ WholePace (scriptOf 0 script) ∧ dispatchEnabled (scriptOf 0 script) = false ∧ (scriptOf 0 script).seq = .word 0 ∧
      (scriptOf 0 script).program[0]? = some 0 ∧ decode 0 = .error .illegalOpcode :=
  ⟨rfl, ⟨rfl, rfl⟩, rfl, rfl, rfl, by decide⟩

/-- The shortest times, one unit apart. -/
theorem test_meets_BitShapesTakeOnePeriod :
    (0 < 1 ∧ 1 < 2 ∧ 2 < 3) ∧ (Timing.mk 1 1 1 1 1 1).t0H = 1 ∧ (Timing.mk 1 1 1 1 1 1).t1H = 2 ∧ (Timing.mk 1 1 1 1 1 1).tBit = 3 ∧
      waveform ⟨1, 1, 1, 1, 1, 1⟩ .bit1 = [(true, 2), (false, 1)] := by
  decide

theorem test_meets_StepRunsDecodedWord :
    halted (scriptOf 0x3200000000000000 script) = false ∧ WholePace (scriptOf 0x3200000000000000 script) ∧
      dispatchEnabled (scriptOf 0x3200000000000000 script) = false ∧ (scriptOf 0x3200000000000000 script).seq = .word 0 ∧
        (scriptOf 0x3200000000000000 script).program[0]? = some 0x3200000000000000 ∧ decode 0x3200000000000000 = .ok .ctlAdv :=
  ⟨rfl, ⟨rfl, rfl⟩, rfl, rfl, rfl, by decide⟩

/-- Every point, with the OFF wait blocked and not blocked. -/
theorem test_meets_MainLoopStep :
    ∀ p ∈ [Point.boot, .entry, .poll, .tick, .deb1, .wrel, .deb2, .adv],
      halted (auto p [[.btn true]] script) = false ∧ (auto p [[.btn true]] script).turns = none ∧
        (auto p [[.btn true]] script).place = .between ∧ dispatchEnabled (othersMove (auto p [[.btn true]] script)).1 = false ∧
        (othersMove (auto p [[.btn true]] script)).1.pinBtn = true ∧
          (othersMove (auto p [] script)).1.state = .off ∧ (othersMove (auto p [] script)).1.pinBtn = false := by
  decide

theorem test_meets_DispatchGoesFirst :
    halted (auto .poll [[.pins true true]] w5) = false ∧ (auto .poll [[.pins true true]] w5).turns = none ∧
      (auto .poll [[.pins true true]] w5).place = .between ∧ (othersMove (auto .poll [[.pins true true]] w5)).1.ie = true ∧
      (othersMove (auto .poll [[.pins true true]] w5)).1.ipend = true := by
  decide

theorem test_meets_HaltedMachineStops :
    (refuse .illegalOpcode script).refused = some (.illegalOpcode, .word 0) ∧ (raise .colourDomain script).refused = none ∧
      (raise .colourDomain script).faults = [(.colourDomain, .word 0)] := by
  decide

/-- A final state, and a stuck one. -/
theorem test_meets_FinalAndStuckRuns :
    Final script ∧ halted (scriptOf 0x3400000000000000 script) = false ∧ dispatchEnabled (scriptOf 0x3400000000000000 script) = false ∧
      (scriptOf 0x3400000000000000 script).program[0]? = some 0x3400000000000000 :=
  ⟨⟨⟨⟨0, rfl, Nat.le_refl 0⟩, rfl, rfl⟩, rfl, rfl⟩, rfl, rfl, rfl⟩

theorem test_meets_OnlyTheOffWaitStops :
    (script.state = .off ∧ script.pinBtn = false) ∧ ¬(solid.state = .off ∧ solid.pinBtn = false) := by decide

/-- A confirmed step from each side: the sums 31, 30, 3 and 4 against the bounds 4 and 30. -/
theorem test_meets_EdgeHandlerEffect :
    w5.pinA = w5.la ∧
    ({ w5ccw with pinA := true }.pinA ≠ w5ccw.la ∧ { w5ccw with pinA := true }.pinB = w5ccw.lb) ∧
    ({ w5 with pinA := true }.pinA ≠ w5.la ∧ { w5 with pinA := true }.pinB ≠ w5.lb) ∧
    ([30, 29].map fun p => (edge { w5 with pinA := true, pos := p }).pos) = [30, 30] ∧
    ([4, 5].map fun p => (edge { w5ccw with pinA := true, pinB := true, pos := p }).pos) = [4, 4] := by
  decide

/-- Equal bounds, with the position outside them. -/
theorem test_meets_ConfirmedStepRestoresBounds :
    ({ w5 with imin := 30, pinA := true }.imin.toInt ≤ { w5 with imin := 30, pinA := true }.imax.toInt) ∧
      { w5 with pinA := true }.pinA ≠ w5.la ∧ { w5 with pinA := true }.pinB ≠ w5.lb := by
  decide

/-- Both histories, the bound met exactly. -/
theorem test_meets_DetentMovesTwoSteps :
    (w5.pinA = false ∧ w5.pinB = false ∧ history w5 = hCw ∧ history w5ccw = hCcw) ∧
      ({ w5 with pos := 28 }.pos.toInt + 2 * w5.encStep.toInt = w5.imax.toInt) ∧
        ({ w5 with pos := 6 }.pos.toInt - 2 * w5.encStep.toInt = w5.imin.toInt) := by
  decide

theorem test_meets_GetReadsHalfThePosition :
    InRange (-256) ∧ InRange 254 ∧ script.params.getDiv = .trunc ∧
      (position { script with pos := -256 }).toInt = -128 ∧ (position { script with pos := 254 }).toInt = 127 ∧
        (0 : Int) ≤ { script with pos := 0 }.pos.toInt := by
  decide

theorem test_meets_ConfigureAloneWritesFive : Alone script ∧ InInt8 (-128) ∧ InInt8 127 := ⟨⟨⟨0, rfl⟩, rfl⟩, by decide, by decide⟩

theorem test_meets_ConfigureUnderInterference : PosLast posLast ∧ InInt8 (-128) ∧ InInt8 127 := by
  refine ⟨?_, by decide, by decide⟩
  unfold PosLast
  decide

theorem test_meets_TransmitSendsTheFrame :
    (filled 0 script).params.maskScope = .frame ∧ (filled 0 script).lowed = false ∧ (∀ i : Fin 8, (filled 0 script).fbw[i] = true) ∧
      (filled 0 { script with ipend := true }).ipend = true ∧ (filled 0 script).seq = .word 0 := by
  decide

theorem test_meets_TransmitPerPixel :
    pixelScope.params.maskScope = .pixel ∧ pixelScope.lowed = false ∧ (∀ i : Fin 8, pixelScope.fbw[i] = true) ∧
      Alone { pixelScope with seq := .word 0 } :=
  ⟨by decide, by decide, by decide, ⟨0, rfl⟩, rfl⟩

/-- A script with a handler pending at its PL.TX: the GAP stands after the first pixel. -/
theorem test_meets_TransmitPerPixel_pending :
    ({ pixelScope with seq := .word 0, ipend := true }.ie = true ∧ { pixelScope with seq := .word 0, ipend := true }.ipend = true) ∧
      (after .plTx { pixelScope with seq := .word 0, ipend := true }).map (fun t => t.wire) =
        some (run 24 .bit0 ++ [.gap] ++ run 168 .bit0) := by
  decide +kernel

theorem test_meets_TransmitFaults :
    { filled 0 script with lowed := true }.lowed = true ∧ script.lowed = false ∧ (∃ i : Fin 8, script.fbw[i] = false) := by decide

theorem test_meets_LatchAppendsOneSymbol : { script with ie := false }.ie = false := by decide

theorem test_meets_LatchedFrameIsDisplayed :
    (filled 0 script).params.maskScope = .frame ∧ (filled 0 script).lowed = false ∧ (∀ i : Fin 8, (filled 0 script).fbw[i] = true) ∧
      Machine.segment (run 3 .bit0 ++ [.latch]) = [] ∧ (filled 0 script).rail = false ∧
        (filled 0 { script with rail := true }).rail = true := by
  decide

/-- One symbol short, and one GAP in place of a bit. -/
theorem test_meets_BrokenSegmentIsUnspecified :
    (segment (run 191 .bit0) ≠ [] ∧ (segment (run 191 .bit0)).length ≠ 192) ∧
      (segment (run 191 .bit0 ++ [.gap]) ≠ [] ∧ Symbol.gap ∈ segment (run 191 .bit0 ++ [.gap])) := by
  decide +kernel

theorem test_meets_EntryOffAndAnimate : script.state = .off ∧ { script with state := .animate }.state = .animate := by decide

theorem test_meets_EntryWhiteConfigures :
    { script with state := .white }.state = .white ∧ Alone { script with state := .white } := ⟨rfl, ⟨0, rfl⟩, rfl⟩

theorem test_meets_EntrySolidConfigures : solid.state = .solid ∧ Alone solid := ⟨rfl, ⟨0, rfl⟩, rfl⟩

theorem test_meets_TickOffPassesWhenPressed : script.state = .off ∧ { script with pinBtn := true }.pinBtn = true := by decide

/-- Brightness 0 and 15, the ends of its domain. -/
theorem test_meets_TickWhiteShowsBrightness :
    { w5 with state := .white }.state = .white ∧ w5.lowed = false ∧
      (position { w5 with pos := 0 }).toInt = (0 : Fin 16).val ∧ (position { w5 with pos := 31 }).toInt = (15 : Fin 16).val := by
  decide

theorem test_meets_TickWhiteFaultsOutsideDomain :
    (position { w5 with pos := -2 }).toInt < 0 ∧ 15 < (position { w5 with pos := 32 }).toInt := by decide

theorem test_meets_TickAnimateIdles :
    { w5 with state := .animate }.state = .animate ∧
      (({ w5 with acnt := 3 }.acnt + 1).toNat : Int) < (position { w5 with acnt := 3 }).toInt := by
  decide

/-- The count meets the read value exactly; brightness 0 and 15. -/
theorem test_meets_TickAnimateAdvances :
    { w5 with state := .animate }.state = .animate ∧ w5.lowed = false ∧
      (({ w5 with bright := 15 }.bright.toInt : Int) = (15 : Fin 16).val) ∧ (({ w5 with bright := 0 }.bright.toInt : Int) = (0 : Fin 16).val) ∧
        (position { w5 with acnt := 4 }).toInt ≤ (({ w5 with acnt := 4 }.acnt + 1).toNat : Int) := by
  decide

theorem test_meets_TickAnimateFaultsOutsideDomain :
    { w5 with bright := -1 }.bright.toInt < 0 ∧ 15 < { w5 with bright := 16 }.bright.toInt ∧
      (position { w5 with acnt := 4 }).toInt ≤ (({ w5 with acnt := 4 }.acnt + 1).toNat : Int) := by
  decide

/-- Hue 48 and brightness 15, the ends of their domains. -/
theorem test_meets_TickSolidShowsHue :
    solid.state = .solid ∧ solid.lowed = false ∧ (position { solid with pos := 97 }).toInt = (48 : Fin 49).val ∧
      (({ solid with bright := 15 }.bright.toInt : Int) = (15 : Fin 16).val) := by
  decide

theorem test_meets_TickSolidFaultsOutsideDomain :
    (position { solid with pos := -2 }).toInt < 0 ∧ 48 < (position { solid with pos := 98 }).toInt ∧
      { solid with bright := -1 }.bright.toInt < 0 ∧ 15 < { solid with bright := 16 }.bright.toInt := by
  decide

/-- A tick of a script with a latch owed, in each state that shows a frame, and one without. -/
theorem test_meets_TicksLoadBeforeTheySend :
    TickShows { w5 with state := .white, lowed := true } (fun _ => Config.white 5) ∧
    TickShows { w5 with state := .animate, lowed := true, acnt := 4 } (fun i => Config.hue2rgb (animateHue 1 i) 5) ∧
    TickShows { solid with lowed := true, pos := 96 } (fun _ => Config.hue2rgb 48 5) ∧
    ∃ t, exec .ctlTick { w5 with state := .white } = .next t :=
  ⟨.inl ⟨rfl, 5, by decide, rfl⟩, .inr (.inl ⟨rfl, by decide, 5, by decide, rfl⟩), .inr (.inr ⟨rfl, 48, 5, by decide, by decide, rfl⟩),
    _, rfl⟩

/-- FrameShown under each scope: alone, and per pixel with interrupts enabled. -/
theorem test_meets_FrameShown :
    (w5.params.maskScope = .frame ∧ Alone w5) ∧ { w5 with params := { Params.spec with maskScope := .pixel } }.params.maskScope = .pixel :=
  ⟨⟨rfl, ⟨0, rfl⟩, rfl⟩, rfl⟩

theorem test_meets_PinChangeSetsPending : true ≠ script.pinA ∧ false = script.pinB := by decide

theorem test_meets_PendingEdgesCollapse : halted script = false ∧ script.turns = none ∧ script.place = .between ∧ script.seq = .word 0 ∧ script.ie = true ∧ true ≠ script.pinA := by
  decide

theorem test_meets_DeferredEdgeRunsAfterSei :
    halted (scriptOf 0x4200000000000000 { w5 with ie := false, ipend := true }) = false ∧
      (scriptOf 0x4200000000000000 { w5 with ie := false, ipend := true }).turns = none ∧
      (scriptOf 0x4200000000000000 { w5 with ie := false, ipend := true }).place = .between ∧
      (scriptOf 0x4200000000000000 { w5 with ie := false, ipend := true }).program[0]? = some 0x4200000000000000 ∧
        decode 0x4200000000000000 = .ok .sysSei := by
  decide

theorem test_meets_MaskedOperationsRunNoHandler :
    { w5 with ie := false, ipend := true }.ie = false ∧
      ∃ t, exec .plLatch { w5 with ie := false, ipend := true, pinA := true } = .next t :=
  ⟨rfl, _, rfl⟩

/-- A script's ENC.CFG with a dispatch enabled: a handler run clears IPEND inside it, the lines stay. -/
theorem test_meets_ScriptInputsStay :
    (∃ t, exec (.encCfg 2 15 1 5 false) { w5 with ipend := true, pinA := true } = .next t) ∧
      (after (.encCfg 2 15 1 5 false) { w5 with ipend := true, pinA := true }).map (fun t => (t.ipend, t.pinA)) = some (false, true) :=
  ⟨⟨_, rfl⟩, by decide⟩

/-- Each register changes by an operation the matrix names, those of the other agents where main context is alone. -/
theorem test_meets_OnlyTheseOperationsWrite :
    (after .ctlAdv script).map (fun t => t.state) ≠ some script.state ∧
    (after .ctlTick { w5 with state := .white }).map (fun t => (t.bright, t.wire.length, t.reads.length)) ≠ some (6, 0, 0) ∧
    (after .ctlEntry { script with state := .white }).map (fun t => (t.rail, t.imin)) ≠ some (script.rail, script.imin) ∧
    (after .sysCli script).map (fun t => t.ie) ≠ some script.ie ∧
    (after .plLatch { script with dout := true }).map (fun t => t.dout) = some false ∧
    (after .encEdge { w5 with pinA := true }).map (fun t => (t.pos, t.la)) = some (11, true) := by
  decide +kernel

theorem test_meets_OnlyTheseOperationsWrite_alone : Alone { w5 with pinA := true } := ⟨⟨0, rfl⟩, rfl⟩

theorem test_meets_PowerOnValues : script = State.launchScript Draws.zero Params.spec [] := rfl

theorem test_meets_InvariantsAtPowerOn : Draws.zero.legal ∧ PosLast posLast := ⟨by decide, by unfold PosLast; decide⟩

/-- A frame sent and not yet latched, the position at the low end of its range: the next step is the latch. -/
def owed : State :=
  { scriptOf 0x1300000000000000 (filled 0 script) with pos := -256, imin := -256, imax := 254, lowed := true, wire := run 192 .bit0, acnt := 127 }

/-- V7's start: inside PL.TX after bit step 50, IE = 0 with 1 saved, at the pace of single turns. -/
def sending (l : List Turn) : State :=
  { filled 0 (auto .tick [] w5) with
    state := .white, rail := true, ie := false, wire := run 50 .bit0, place := .sending (List.replicate 142 false) [] true true, turns := some l }

/-- The invariant at a latch owed and inside PL.TX. -/
theorem test_meets_InvIsKept :
    (Inv owed ∧ ∃ t, step owed = .next t) ∧ Inv (sending [.own, .own]) ∧ (∃ t, step (sending [.own, .own]) = .next t) ∧
      ∃ t, steps 2 (sending [.own, .own]) = some t := by
  refine ⟨⟨⟨⟨by decide, by decide, by decide⟩, by decide, rfl, fun _ => rfl, fun _ => rfl, trivial, fun _ => ?_⟩, _, rfl⟩,
    ⟨⟨by decide, by decide, by decide⟩, by decide, rfl, fun _ => rfl, fun _ => rfl, ⟨rfl, rfl, by decide⟩, fun _ => ?_⟩, ⟨_, rfl⟩, _, rfl⟩
  · show IsFrame (segment owed.wire)
    unfold IsFrame
    decide +kernel
  · show [] = [] ∧ IsFrame (segment (sending [.own, .own]).wire ++ (List.replicate 142 false).map bitSymbol)
    unfold IsFrame
    decide +kernel

/-- V7: an edge between two bit steps sets IPEND and no handler runs; the next turn sends one bit with IE = 0. -/
theorem test_turn_bit :
    (next (step (sending [.pins true false]))).map (fun t => (t.ipend, t.ie, t.wire.length, t.pos)) = some (true, false, 50, 10) ∧
      (next (step { sending [.own] with ipend := true })).map (fun t => (t.ipend, t.ie, t.wire.length, t.pos)) =
        some (true, false, 51, 10) := by
  decide

/-- E17 between its steps 2 and 3: POS is written, the bounds are not. -/
def configuring (l : List Turn) : State :=
  { auto .entry [] solid with
    state := .white, rail := true, bright := 15, pos := 30, place := .configuring [.imin, .imax, .step, .wrap] 2 15 1 15 false, turns := some l }

/-- E17: the handler runs with the old bounds, and the next turn writes one bound. -/
theorem test_turn_configure :
    (next (step { configuring [.own] with pinA := true, ipend := true })).map encoder = some (31, 0, 96, 1, true) ∧
      (next (step { configuring [.own] with pinA := true, ipend := true })).map (fun t => t.place) = some (configuring []).place ∧
      (next (step (configuring [.own]))).map encoder = some (30, 4, 96, 1, true) := by
  decide

/-- Every clause: an environment turn, and a handler's at a place inside an operation and in a gap. -/
theorem test_meets_OneTurnOfOneAgent :
    (halted (sending [.btn true]) = false ∧ (sending [.btn true]).turns = some [.btn true] ∧ (sending [.btn true]).seq = .tick) ∧
      dispatchEnabled { configuring [.own] with ipend := true } = true ∧
        dispatchEnabled { configuring [.own] with ipend := true, place := .gap false [0] true } = true := by
  decide

/-- A script's PL.TX at the pace of single turns. -/
def transmitTurn : State := { scriptOf 0x1200000000000000 (filled 0 script) with turns := some [.own] }

/-- The clauses of PL.TX: a script's start under either mask, SHOW's, a bit step inside, the last of a frame and of a pixel, and the gap. -/
theorem test_meets_MainContextGoesPointByPoint :
    (halted transmitTurn = false ∧ dispatchEnabled transmitTurn = false ∧ AtWord .plTx transmitTurn ∧ transmitTurn.lowed = false ∧
      (∀ i : Fin 8, transmitTurn.fbw[i] = true)) ∧
    ((next (step transmitTurn)).map fun t => (t.wire.length, t.ie)) = some (1, false) ∧
    ((next (step { transmitTurn with params := { Params.spec with maskScope := .pixel } })).map fun t => (t.wire.length, t.ie)) = some (1, false) ∧
    dispatchEnabled { sending [.own] with place := .loaded, ie := true } = false ∧
    (dispatchEnabled (sending [.own]) = false ∧
      (sending [.own]).place = .sending (false :: List.replicate 141 false) [] true true) ∧
    ((next (step { transmitTurn with place := .sending [true] [] true false })).map fun t => (t.wire, t.lowed, t.seq)) =
      some ([.bit1], true, .word 1) ∧
    ((next (step { sending [.own] with place := .sending [false] [1, 2] true true })).map fun t => (t.ie, t.lowed, t.place)) =
      some (true, false, .gap false [1, 2] true) ∧
    ((next (step { transmitTurn with place := .gap true [1, 2] false })).map fun t => (t.wire, t.ie)) = some ([.gap, .bit0], false) :=
  ⟨⟨by decide, by decide, ⟨rfl, 0, _, rfl, rfl, by decide⟩, by decide, by decide⟩, by decide⟩

/-- Its other clauses: a script's configure at its first write and one at its last, and the latch before and after its delay. -/
theorem test_meets_MainContextGoesPointByPoint_others :
    (dispatchEnabled (configuring [.own]) = false ∧
      (configuring [.own]).place = .configuring (.imin :: [.imax, .step, .wrap]) 2 15 1 15 false) ∧
    (∃ w, AtWord (.encCfg 2 15 1 5 false) { transmitTurn with program := [w] }) ∧
    Params.spec.cfgOrder.writes = .pos :: [.imin, .imax, .step, .wrap] ∧
    ((next (step { configuring [.own] with place := .configuring [.wrap] 2 15 1 15 false })).map fun t => (t.wrap, t.place, t.seq)) =
      some (false, .between, .poll) ∧
    (∃ w, AtWord .plLatch { transmitTurn with program := [w] }) ∧
    ((next (step { transmitTurn with place := .latching })).map fun t => (t.wire, t.seq)) = some ([.latch], .word 1) :=
  ⟨by decide, ⟨encode (.encCfg 2 15 1 5 false), rfl, 0, _, rfl, rfl, by decide⟩, by decide, by decide,
    ⟨encode .plLatch, rfl, 0, _, rfl, rfl, by decide⟩, by decide⟩

theorem test_meets_WholeStepIsRunOfTurns : WholePace owed ∧ ∃ t, step owed = .next t := ⟨⟨rfl, rfl⟩, _, rfl⟩

/-- WHITE at its tick with the position at the upper bound, and configure with POS last. -/
def whiteTick : State := { auto .tick [] w5 with state := .white, rail := true, pos := 30, params := { Params.spec with cfgOrder := posLast } }

/-- The entry action of WHITE with POS alone still to write. -/
def whiteEntry : State :=
  { whiteTick with seq := .entry, bright := 15, pos := 96, place := .configuring [.pos] 2 15 1 15 false, turns := some [.own] }

theorem test_meets_AutonomousInvIsKept :
    (AutonomousInv whiteTick ∧ ∃ t, step whiteTick = .next t) ∧ AutonomousInv whiteEntry ∧ ∃ t, step whiteEntry = .next t :=
  ⟨⟨⟨rfl, rfl, rfl, rfl, rfl, rfl⟩, _, rfl⟩, ⟨rfl, rfl, rfl, .inl ⟨rfl, rfl, rfl, rfl, by decide, rfl⟩, by decide, by decide, by decide,
    by decide⟩, _, rfl⟩

theorem test_meets_ControllerNeverFaults : ControllerInv whiteTick ∧ ControllerInv whiteEntry :=
  ⟨⟨test_meets_AutonomousInvIsKept.1.1, test_meets_InvariantsAtPowerOn.2, by decide, by decide,
    fun _ _ => (by decide : 4 ≤ whiteTick.pos.toInt ∧ whiteTick.pos.toInt ≤ 30), (fun h => nomatch h), trivial, (fun h => nomatch h), rfl⟩,
   ⟨test_meets_AutonomousInvIsKept.2.1, test_meets_InvariantsAtPowerOn.2, by decide, by decide, (fun _ h => absurd rfl h),
    (fun _ h => nomatch h), rfl, (fun h => nomatch h), rfl⟩⟩

theorem test_meets_ScriptAndParametersAreFixed : ∃ t, step (scriptOf 0x1200000000000000 (filled 0 script)) = .next t := ⟨_, rfl⟩

/-- A step that records a fault. -/
theorem test_meets_RecordsGrowAndNameTheirSite :
    (next (step (scriptOf 0x1200000000000000 script))).map halted = some true := by decide

/-! Colour hypotheses -/

/-- A ramp between 15 and 240 at full brightness, attenuated by 20/21 for each brightness below. -/
def sampleRamp : Ramp :=
  { rising := fun step b => 15 * (step.val + 1) * 20 ^ (15 - b.val) / 21 ^ (15 - b.val)
    falling := fun step b => 15 * (16 - step.val) * 20 ^ (15 - b.val) / 21 ^ (15 - b.val) }

/-- The wheel of that ramp: red to green to blue to red. -/
def sampleHue (h : Fin 49) (b : Fin 16) : Rgb :=
  let step : Fin 16 := ⟨h.val % 16, by omega⟩
  let up := BitVec.ofNat 8 (sampleRamp.rising step b)
  let down := BitVec.ofNat 8 (sampleRamp.falling step b)
  if h.val < 16 then ⟨down, up, 0⟩ else if h.val < 32 then ⟨0, down, up⟩ else ⟨up, 0, down⟩

/-- CP1, CP2 and CP3 can hold together (rule R171). -/
theorem test_colour_wheel : Config.CP1 sampleHue sampleRamp ∧ Config.CP2 sampleHue sampleRamp ∧ Config.CP3 sampleHue sampleRamp := by
  have wheel : Config.FollowsRamp sampleHue sampleRamp :=
    ⟨fun | 0 => .red | 1 => .green | 2 => .blue, by decide, by decide +kernel⟩
  refine ⟨⟨wheel, fun b => ⟨21 ^ (15 - b.val), 15 * 20 ^ (15 - b.val), 15 * 20 ^ (15 - b.val), 16 * (15 * 20 ^ (15 - b.val)),
      15 * 20 ^ (15 - b.val), by positivity, by positivity, by positivity, by omega, fun step => ⟨?_, ?_⟩⟩⟩,
    ⟨wheel, 20, 21, fun b => 15 - b.val, fun step => 15 * (step.val + 1), fun step => 15 * (16 - step.val), by decide, by decide,
      fun b b' h => (by omega : 15 - b'.val < 15 - b.val), fun _ _ => ⟨rfl, rfl⟩⟩, ?_⟩
  · exact congrArg (· / _) (by ring)
  · exact congrArg (· / _) (by rw [mul_right_comm, Nat.mul_sub, mul_comm _ 16])
  · exact wheel.cp3 (by decide +kernel)

end Sys2Proof.Tests
end

/-! Proofs of the scope's parameters: the order of configure's writes (rule R14) and the division of the read (rule R10). -/

namespace Sys2Proof

/-- The first write of an order of the writes still to do is one of their picks, and the rest orders what that pick leaves
(rule R14). -/
theorem exists_pick_of_cons_perm {r : CfgReg} {rest todo : List CfgReg} (h : (r :: rest).Perm todo) :
    ∃ pick : Fin (rest.length + 1), todo.getD pick .pos = r ∧ rest.Perm (todo.eraseIdx pick) := by
  obtain ⟨k, hk, rfl⟩ := List.getElem_of_mem (h.mem_iff.1 List.mem_cons_self)
  have hrest : rest.Perm (todo.eraseIdx k) := (h.trans (List.getElem_cons_eraseIdx_perm hk).symm).cons_inv
  exact ⟨⟨k, hk.trans_eq h.length_eq.symm⟩, List.getD_eq_getElem _ _ hk, hrest⟩

/-- Every permutation of the five writes is the order of some picks: each write is picked from those still to do (rule R14). -/
theorem exists_cfgOrder_of_perm {l : List CfgReg} (h : l.Perm CfgReg.all) : ∃ o : CfgOrder, o.writes = l := by
  match l, h.length_eq with
  | [r₁, r₂, r₃, r₄, r₅], _ =>
    obtain ⟨first, e₁, h₁⟩ := exists_pick_of_cons_perm h
    obtain ⟨second, e₂, h₂⟩ := exists_pick_of_cons_perm h₁
    obtain ⟨third, e₃, h₃⟩ := exists_pick_of_cons_perm h₂
    obtain ⟨fourth, e₄, h₄⟩ := exists_pick_of_cons_perm h₃
    have left : [r₅] = _ := List.singleton_perm.1 h₄
    refine ⟨⟨first, second, third, fourth⟩, ?_⟩
    simp only [CfgOrder.writes]
    rw [e₁, e₂, e₃, e₄, ← left]
    rfl

/-- Settles O9: a permutation is the order of its picks, and the picks permute the writes (`cfgOrder_perm`). -/
theorem cfgOrderIsEveryPermutation : Obligations.CfgOrderIsEveryPermutation := by
  unfold Obligations.CfgOrderIsEveryPermutation
  exact fun l => ⟨exists_cfgOrder_of_perm, fun ⟨o, ho⟩ => ho ▸ Machine.cfgOrder_perm o⟩

end Sys2Proof

namespace Sys2Proof.Machine

/-- On a value that is not negative both divisions are the floor of the half (rule R10). -/
theorem div2_eq_ediv_of_nonneg {v : Int} (h : 0 ≤ v) (d : GetDiv) : div2 d v = v / 2 := by
  cases d with
  | trunc => exact Int.tdiv_eq_ediv_of_nonneg h
  | floor => exact Int.fdiv_eq_ediv_of_nonneg v two_pos.le

/-- Half of a value in −256..254 fits 8 bits, whichever the division (rules R151, R153). -/
theorem div2_inInt8 {v : Int} (h : -256 ≤ v ∧ v ≤ 254) (d : GetDiv) : InInt8 (div2 d v) := by
  unfold InInt8
  cases d with
  | trunc =>
    rw [div2, Int.tdiv_eq_ediv, Int.sign_eq_one_of_pos two_pos]
    split <;> omega
  | floor =>
    rw [div2, Int.fdiv_eq_ediv_of_nonneg v two_pos.le]
    omega

/-- The read loses nothing in its narrowing while the position is in range (rules R151, R153, log 18). -/
theorem position_toInt {s : State} (h : InRange s.pos) : (position s).toInt = div2 s.params.getDiv s.pos.toInt :=
  toInt_ofInt8 (div2_inInt8 h _)

/-- The read of a position that is not negative depends on the position alone, not on GET_DIV (rule R10). -/
theorem position_eq_of_pos_eq_of_nonneg {s t : State} (hst : s.pos = t.pos) (h : 0 ≤ s.pos.toInt) : position s = position t := by
  simp only [position, ← hst, div2_eq_ediv_of_nonneg h]

/-- ENC.GET appends the value read and writes nothing else (rule R151). -/
theorem exec_encGet (s : State) : exec .encGet s = .next { s with reads := s.reads ++ [position s] } := rfl

/-- Settles O22: the frame, the exact halving of a position in range, and the agreement of the two divisions. -/
theorem getReadsHalfThePosition : Obligations.GetReadsHalfThePosition := by
  unfold Obligations.GetReadsHalfThePosition
  intro s
  refine ⟨exec_encGet s, fun hpos => ⟨fun hd => ?_, fun hd => ?_⟩, fun hpos d d' => ?_⟩
  · rw [position_toInt hpos, hd, div2]
  · rw [position_toInt hpos, hd, div2]
  · exact position_eq_of_pos_eq_of_nonneg rfl hpos

end Sys2Proof.Machine


/-! Proofs of the machine's state, the invariant that every step keeps (rules R36, R38, R93, R124 to R129, R153, R183, R218). -/

namespace Sys2Proof.Machine

variable {s t : State}

/-! Main context outside the bit steps of PL.TX: the invariant without its place. -/

/-- A place outside the bit steps of PL.TX, where the invariant asks nothing of IE. -/
def Place.resting : Place → Bool
  | .sending _ _ _ _ => false
  | .gap _ _ _ => false
  | _ => true

/-- The invariant as it stands between two operations, whatever the place. -/
def RestInv (s : State) : Prop := Inv (leave s)

/-- At a resting place the wire is framed as it is between two operations. -/
theorem wireFramed_iff_leave (hp : s.place.resting = true) : WireFramed s ↔ WireFramed (leave s) := by
  unfold WireFramed
  cases hs : s.place <;> simp_all [Place.resting]

theorem Inv.rest (h : Inv s) (hp : s.place.resting = true) : RestInv s :=
  ⟨h.range.congr rfl rfl rfl, h.acnt, h.line, h.written, h.dark, trivial, fun hf => (wireFramed_iff_leave hp).1 (h.framed hf)⟩

theorem RestInv.standAt {p : Place} (h : RestInv s) (hp : p.resting = true) (hplace : PlaceInv (standAt p s)) :
    Inv (standAt p s) :=
  ⟨h.range.congr rfl rfl rfl, h.acnt, h.line, h.written, h.dark, hplace, fun hf => (wireFramed_iff_leave hp).2 (h.framed hf)⟩

theorem RestInv.inv (h : RestInv s) (hp : s.place = .between) : Inv s := by
  have hs : leave s = s := by rw [leave, ← hp]
  rwa [RestInv, hs] at h

/-- What leaves the link's registers, the rail, the display and the parameters alone keeps the invariant when it keeps the ranges and
the count. -/
theorem RestInv.congr (h : RestInv s) (hrange : RangeInv t) (hacnt : t.acnt.toNat ≤ 127) (hdout : t.dout = s.dout := by rfl)
    (hlowed : t.lowed = s.lowed := by rfl) (hfbw : t.fbw = s.fbw := by rfl) (hrail : t.rail = s.rail := by rfl)
    (hdisplayed : t.displayed = s.displayed := by rfl) (hwire : t.wire = s.wire := by rfl)
    (hparams : t.params = s.params := by rfl) : RestInv t := by
  obtain ⟨-, -, hline, hwritten, hdark, -, hframed⟩ := h
  refine ⟨hrange.congr rfl rfl rfl, hacnt, hdout.trans hline, ?_, ?_, trivial, ?_⟩
  · simpa [frameWritten, hlowed, hfbw] using hwritten
  · simpa [hrail, hdisplayed] using hdark
  · simpa [WireFramed, hparams, hlowed, hwire] using hframed

/-- What configure and the other agents change keeps the invariant when it keeps the ranges (rules R47, R152). -/
theorem RestInv.encoder (h : RestInv s) (he : EncoderOnly s t) (hrange : RangeInv t) : RestInv t :=
  h.congr hrange (he.acnt ▸ h.acnt) he.dout he.lowed he.fbw he.rail he.displayed he.wire he.params

theorem RestInv.rangeInv (h : RestInv s) : RangeInv s := h.range.congr rfl rfl rfl

theorem RestInv.segment_eq_nil (h : RestInv s) (hf : s.params.maskScope = .frame) (hl : s.lowed = false) : segment s.wire = [] := by
  simpa [WireFramed, hl] using h.framed hf

/-! The own writes of the operations, which both paces share. -/

theorem RestInv.preempt (h : RestInv s) : RestInv (preempt s) := h.encoder (preempt_othersOnly s).toEncoder h.rangeInv.preempt

theorem RestInv.edge (h : RestInv s) : RestInv (edge s) := h.encoder (edge_othersOnly s).toEncoder h.rangeInv.edge

theorem RestInv.get (h : RestInv s) : RestInv (get s) := h.congr (h.range.congr rfl rfl rfl) h.acnt

theorem RestInv.raise (h : RestInv s) (k : FaultKind) : RestInv (raise k s) := h.congr (h.range.congr rfl rfl rfl) h.acnt

theorem RestInv.lowerLine (h : RestInv s) : RestInv { s with dout := false } :=
  h.congr (h.range.congr rfl rfl rfl) h.acnt h.line.symm

theorem frameWritten_load (i : Fin 8) (w : Pixel) (h : frameWritten s = true) : frameWritten (load i w s) = true := by
  rw [frameWritten_iff] at h ⊢
  intro j
  simp only [load_fbw, Fin.getElem_fin, Vector.getElem_set]
  split
  · rfl
  · exact h j

theorem RestInv.load (h : RestInv s) (i : Fin 8) (w : Pixel) : RestInv (load i w s) :=
  ⟨h.range.congr rfl rfl rfl, h.acnt, h.line, fun hl => frameWritten_load i w (h.written hl), h.dark, trivial, h.framed⟩

theorem RestInv.setRail (h : RestInv s) (v : Bool) : RestInv (setRail v s) :=
  ⟨h.range.congr rfl rfl rfl, h.acnt, h.line, h.written, fun hv => if_neg (by simpa using hv), trivial, h.framed⟩

theorem RangeInv.cfgWrite (h : RangeInv s) {min max init : Int} (step : Int) (w : Bool) (hmin : InInt8 min) (hmax : InInt8 max)
    (hinit : InInt8 init) (r : CfgReg) : RangeInv (cfgWrite min max step init w r s) := by
  cases r with
  | pos => exact ⟨(doubled_isBound hinit).1, h.imin, h.imax⟩
  | imin => exact ⟨h.pos, doubled_isBound hmin, h.imax⟩
  | imax => exact ⟨h.pos, h.imin, doubled_isBound hmax⟩
  | step => exact h.congr rfl rfl rfl
  | wrap => exact h.congr rfl rfl rfl

theorem RestInv.configure (h : RestInv s) {min max init : Int} (step : Int) (w : Bool) (hmin : InInt8 min) (hmax : InInt8 max)
    (hinit : InInt8 init) : RestInv (configure min max step init w s) :=
  h.encoder (configure_encoderOnly min max step init w s) (h.rangeInv.configure hmin hmax hinit)

/-- The latch symbol ends the segment, and with the rail off it shows nothing specified (rules R125, R129). -/
theorem RestInv.emit_latch (h : RestInv s) : RestInv { emit .latch s with lowed := false } where
  range := h.range.congr rfl rfl rfl
  acnt := h.acnt
  line := rfl
  written := nofun
  dark := fun hr => by simp_all [displayAtLatch]
  place := trivial
  framed := fun _ => segment_latch s.wire

theorem frameSymbols_isFrame (fb : Vector Pixel 8) : IsFrame (frameSymbols fb) :=
  ⟨frameSymbols_length fb, frameSymbols_isBit fb⟩

theorem frameSymbols_ne_latch {fb : Vector Pixel 8} : ∀ x ∈ frameSymbols fb, x ≠ .latch := by
  intro x hx
  rcases frameSymbols_isBit fb x hx with rfl | rfl <;> decide

/-- A frame whose bits no latch interrupts is the whole segment after it (rules R93, R124). -/
theorem RestInv.sendFrame (h : RestInv s) (hl : s.lowed = false) (hw : frameWritten s = true) :
    RestInv { sendFrame s with lowed := true } := by
  obtain ⟨ho, hwire⟩ := sendFrame_othersOnly s
  refine ⟨h.rangeInv.sendFrame.congr rfl rfl rfl, ?_, ho.dout, fun _ => ?_, fun hr => ?_, trivial, fun hf => ?_⟩
  · exact ho.acnt ▸ h.acnt
  · exact (frameWritten_of_fbw ho.fbw).trans hw
  · exact ho.displayed.trans (h.dark (ho.rail ▸ hr))
  · have hf : s.params.maskScope = .frame := ho.params ▸ hf
    show IsFrame (segment (Machine.sendFrame s).wire)
    rw [(hwire hf).wire, segment_append frameSymbols_ne_latch, h.segment_eq_nil hf hl]
    exact frameSymbols_isFrame s.fb

/-! The whole operations. -/

theorem RestInv.transmit (h : RestInv s) : RestInv (transmit s).state := by
  cases hl : s.lowed with
  | true => rw [transmit_latchMissing hl]; exact h.raise _
  | false =>
    cases hw : frameWritten s with
    | false => rw [transmit_unwritten hl hw]; exact h.raise _
    | true => rw [transmit_done hl hw]; exact h.sendFrame hl hw

theorem RestInv.latch (h : RestInv s) : RestInv (latch s) := h.lowerLine.preempt.emit_latch

theorem RestInv.render (h : RestInv s) (pix : Fin 8 → Rgb) : RestInv (render pix s).state := by
  have hloads : RestInv (mainSteps (pixelIndices.map fun i => Machine.load i (pixelWord (pix i))) s) := by
    refine mainSteps_induct ?_ (fun u hu => hu.preempt) h
    intro f hf u hu
    obtain ⟨i, -, rfl⟩ := List.mem_map.1 hf
    exact hu.load i _
  have htx := hloads.preempt.transmit
  unfold Machine.render
  cases hx : Machine.transmit (Machine.preempt (mainSteps (pixelIndices.map fun i => Machine.load i (pixelWord (pix i))) s)) with
  | done u => rw [hx] at htx; exact htx.preempt.latch
  | faulted u => rw [hx] at htx; exact htx

/-- A count below an `int8` value read is at most 127 (rule R183). -/
theorem RestInv.animateEnd (h : RestInv s) (n : Reg8) : RestInv (animateEnd n s).1 := by
  unfold Machine.animateEnd
  split
  · exact h.congr (h.range.congr rfl rfl rfl) (Nat.zero_le _)
  · have hn := (toInt_range8 n).2
    exact h.congr (h.range.congr rfl rfl rfl) (show (s.acnt + 1).toNat ≤ 127 by omega)

theorem RestInv.whiteEnd (h : RestInv s) (v : Reg8) : RestInv (whiteEnd v s).1 := h.congr (h.range.congr rfl rfl rfl) h.acnt

theorem RestInv.solidEnd (h : RestInv s) (v : Reg8) : RestInv (solidEnd v s).1 := h.congr (h.range.congr rfl rfl rfl) h.acnt

theorem RestInv.tickEnd (h : RestInv s) (v : Reg8) : RestInv (tickEnd v s).1 := by
  unfold Machine.tickEnd
  split
  · exact h
  · exact h.whiteEnd v
  · exact h.animateEnd v
  · exact h.solidEnd v

theorem RestInv.readTick {rest : Reg8 → State → State × TickEnd} (hrest : ∀ v u, RestInv u → RestInv (rest v u).1)
    (h : RestInv s) : RestInv (readTick rest s).state := by
  have hx := hrest (position s) _ h.get.preempt
  unfold Machine.readTick
  dsimp only
  split
  · exact hx.raise _
  · exact hx.preempt
  · exact hx.preempt.render _

theorem RestInv.tick (h : RestInv s) : RestInv (tick s).state := by
  unfold Machine.tick
  split
  · exact h
  · exact h.readTick fun v _ hu => hu.whiteEnd v
  · exact h.readTick fun v _ hu => hu.animateEnd v
  · exact h.readTick fun v _ hu => hu.solidEnd v

theorem RestInv.entry (h : RestInv s) : RestInv (entry s) := by
  unfold Machine.entry
  split
  · exact h.setRail false
  · exact (h.setRail true).preempt.configure 1 false (by decide) (by decide) (toInt_range8 _)
  · exact h
  · exact h.configure 1 true (by decide) (by decide) (toInt_range8 _)

theorem operands_of_wellFormed {min max step init : Int} {w : Bool} (h : (Instr.encCfg min max step init w).wellFormed = true) :
    InInt8 min ∧ InInt8 max ∧ InInt8 init := by
  simp only [Instr.wellFormed, Bool.and_eq_true, decide_eq_true_eq] at h
  exact ⟨h.1.1.1, h.1.1.2, h.2⟩

/-- A tick that answers a next state answers the tick's (rules R180, R181). -/
theorem eq_tick_of_exec (h : exec .ctlTick s = .next t) : t = (tick s).state := by
  simp only [exec, execCtlTick] at h
  split_ifs at h
  injection h with h
  exact h.symm

/-- Every whole operation that a word can spell keeps the invariant. -/
theorem RestInv.exec {i : Instr} (h : RestInv s) (hi : i.wellFormed = true) (he : exec i s = .next t) : RestInv t := by
  cases i
  case ctlTick =>
    obtain rfl := eq_tick_of_exec he
    exact h.tick
  all_goals injection he with he; subst he
  case plLoad idx pixel => exact h.load idx pixel
  case plTx => exact h.transmit
  case plLatch => exact h.latch
  case encEdge => exact h.edge
  case encGet => exact h.get
  case encCfg =>
    obtain ⟨hmin, hmax, hinit⟩ := operands_of_wellFormed hi
    exact h.configure _ _ hmin hmax hinit
  case ctlRail level => exact h.setRail level
  case ctlEntry => exact h.entry
  case ctlAdv | sysCli | sysSei | envPins | envBtn => exact h.congr (h.range.congr rfl rfl rfl) h.acnt

theorem RestInv.exec_inv {i : Instr} (h : RestInv s) (hp : s.place = .between) (hi : i.wellFormed = true)
    (he : Machine.exec i s = .next t) : Inv t :=
  (h.exec hi he).inv ((exec_place he).1.trans hp)

/-! The parts of the operations between two preemption points. -/

theorem RestInv.cfgStep (h : RestInv s) (todo : List CfgReg) {min max init : Int} (step : Int) (w : Bool) (hmin : InInt8 min)
    (hmax : InInt8 max) (hinit : InInt8 init) : Inv (cfgStep todo min max step init w s) := by
  unfold Machine.cfgStep
  split
  · exact h
  · rename_i r rest
    have hr := h.encoder (cfgWrite_encoderOnly min max step init w r s) (h.rangeInv.cfgWrite step w hmin hmax hinit r)
    split
    · exact hr
    · exact hr.standAt rfl ⟨hmin, hmax, hinit⟩

theorem RestInv.startLatch (h : RestInv s) : Inv (startLatch s) := h.lowerLine.standAt rfl trivial

theorem RestInv.startEntry (h : RestInv s) (hp : s.place = .between) : Inv (startEntry s) := by
  unfold Machine.startEntry
  split
  · exact (h.setRail false).inv hp
  · exact (h.setRail true).standAt rfl trivial
  · exact h.inv hp
  · exact h.cfgStep _ 1 true (by decide) (by decide) (toInt_range8 _)

theorem RestInv.startTick (h : RestInv s) (hp : s.place = .between) : Inv (startTick s) := by
  unfold Machine.startTick
  split
  · exact h.inv hp
  all_goals exact h.get.standAt rfl trivial

theorem RestInv.afterRead (h : RestInv s) (v : Reg8) : Inv (afterRead v s) := by
  have hx := h.tickEnd v
  unfold Machine.afterRead
  dsimp only
  split
  · exact hx.raise _
  · exact hx.standAt rfl trivial
  · exact hx.standAt rfl trivial

theorem RestInv.loadStep (h : RestInv s) (todo : List (Fin 8 × Pixel)) : Inv (loadStep todo s) := by
  unfold Machine.loadStep
  split
  · exact h.standAt rfl trivial
  · split
    · exact (h.load _ _).standAt rfl trivial
    · exact (h.load _ _).standAt rfl trivial

/-- The invariant inside PL.TX with these bits of this masked run and these pixels still to send, but for the mask itself, which holds
from the first bit step on. -/
def SendInv (bits : List Bool) (later : List Pixel) (s : State) : Prop :=
  Inv (standAt (.sending bits later false false) (setIe false s))

/-- A frame may start where the frame buffer is written and no latch is owed (rule R124). -/
theorem RestInv.send_frame (h : RestInv s) (hl : s.lowed = false) (hw : frameWritten s = true) : SendInv (frameBits s.fb) [] s where
  range := h.range.congr rfl rfl rfl
  acnt := h.acnt
  line := h.line
  written := fun _ => hw
  dark := h.dark
  place := ⟨rfl, hl, hw⟩
  framed := fun hf => ⟨rfl, by
    rw [standAt_wire, setIe_wire, h.segment_eq_nil hf hl, ← frameSymbols_eq_bits]
    exact frameSymbols_isFrame s.fb⟩

/-- Under MASK_SCOPE = PIXEL nothing is asked of the wire. -/
theorem RestInv.send_pixel (h : RestInv s) (hpix : s.params.maskScope = .pixel) (hl : s.lowed = false) (hw : frameWritten s = true)
    (bits : List Bool) (later : List Pixel) : SendInv bits later s where
  range := h.range.congr rfl rfl rfl
  acnt := h.acnt
  line := h.line
  written := fun _ => hw
  dark := h.dark
  place := ⟨rfl, hl, hw⟩
  framed := fun hf => nomatch hpix.symm.trans hf

/-- A bit step moves one bit from those still to send to the wire (rules R93, R124). -/
theorem SendInv.emit {b : Bool} {bits : List Bool} {later : List Pixel} (h : SendInv (b :: bits) later s) :
    SendInv bits later (emit (bitSymbol b) s) where
  range := h.range.congr rfl rfl rfl
  acnt := h.acnt
  line := rfl
  written := h.written
  dark := fun hr => (if_neg (bitSymbol_ne_latch b)).trans (h.dark hr)
  place := h.place
  framed := fun hf => by
    obtain ⟨hlater, hframe⟩ := h.framed hf
    refine ⟨hlater, ?_⟩
    rw [standAt_wire, setIe_wire, emit_wire, segment_append (by simpa using bitSymbol_ne_latch b), List.append_assoc]
    exact hframe

theorem SendInv.sending {bits : List Bool} {later : List Pixel} (h : SendInv bits later s) (hie : s.ie = false)
    (saved shown : Bool) : Inv (standAt (.sending bits later saved shown) s) :=
  ⟨h.range.congr rfl rfl rfl, h.acnt, h.line, h.written, h.dark, ⟨hie, h.place.2⟩, h.framed⟩

/-- The end of a masked run: after the last pixel a latch is owed for a whole frame (rules R38, R93, R124). -/
theorem SendInv.unmask {later : List Pixel} (h : SendInv [] later s) (saved shown : Bool) : Inv (unmask later saved shown s) := by
  obtain ⟨hrange, hacnt, hline, -, hdark, ⟨-, hlowed, hwritten⟩, hframed⟩ := h
  unfold Machine.unmask
  split
  · refine RestInv.standAt ⟨hrange.congr rfl rfl rfl, hacnt, hline, fun _ => hwritten, hdark, trivial, fun hf => ?_⟩ ?_ ?_
    · simpa [WireFramed] using (hframed hf).2
    · cases shown <;> rfl
    · cases shown <;> trivial
  · rename_i hlater
    exact ⟨hrange.congr rfl rfl rfl, hacnt, hline, fun _ => hwritten, hdark, ⟨hlowed, hwritten⟩, fun hf => hlater (hframed hf).1⟩

theorem SendInv.bitStep {bits : List Bool} {later : List Pixel} (h : SendInv bits later s) (hie : s.ie = false)
    (saved shown : Bool) : Inv (bitStep bits later saved shown s) := by
  unfold Machine.bitStep
  split
  · exact h.unmask saved shown
  · split
    · rename_i hrest
      subst hrest
      exact h.emit.unmask saved shown
    · exact h.emit.sending hie saved shown

theorem SendInv.startBits {bits : List Bool} {later : List Pixel} (h : SendInv bits later s) (shown : Bool) :
    Inv (startBits bits later shown s) :=
  SendInv.bitStep (s := setIe false s) h rfl s.ie shown

/-- Under MASK_SCOPE = PIXEL the marker of a handler run keeps the invariant (rule R127). -/
theorem RestInv.emit_gap (h : RestInv s) (hpix : s.params.maskScope = .pixel) : RestInv (emit .gap s) :=
  ⟨h.range.congr rfl rfl rfl, h.acnt, rfl, h.written, h.dark, trivial, fun hf => nomatch hpix.symm.trans hf⟩

theorem RestInv.nextPixel (h : RestInv s) (hpix : s.params.maskScope = .pixel) (hl : s.lowed = false) (hw : frameWritten s = true)
    (ran : Bool) (later : List Pixel) (shown : Bool) : Inv (nextPixel ran later shown s) := by
  unfold Machine.nextPixel
  split
  · exact h
  · cases ran with
    | false => exact (h.send_pixel hpix hl hw _ _).startBits shown
    | true => exact ((h.emit_gap hpix).send_pixel hpix hl hw _ _).startBits shown

theorem RestInv.startTx (h : RestInv s) (shown : Bool) : Inv (startTx shown s) := by
  cases hl : s.lowed with
  | true => rw [startTx_latchMissing shown hl]; exact h.raise _
  | false =>
    cases hw : frameWritten s with
    | false => rw [startTx_unwritten shown hl hw]; exact h.raise _
    | true =>
      rw [startTx_written shown hl hw]
      cases hm : s.params.maskScope with
      | frame => exact (h.send_frame hl hw).startBits shown
      | pixel => exact h.nextPixel hm hl hw false _ shown

/-- An operation's first part, for those that have more than one (rule R226). -/
theorem start_next {i : Instr} (h : start i s = .next t) :
    (i = .plTx ∧ t = startTx false s) ∨ (i = .plLatch ∧ t = Machine.startLatch s) ∨
    (∃ min max step init w, i = .encCfg min max step init w ∧ t = startCfg min max step init w s) ∨
    (i = .ctlEntry ∧ t = startEntry s) ∨ (i = .ctlTick ∧ t = startTick s) ∨ exec i s = .next t := by
  cases i
  case ctlTick =>
    simp only [start] at h
    split_ifs at h
    injection h with h
    simp [h]
  case plTx => exact .inl ⟨rfl, (Host.Outcome.next.inj h).symm⟩
  case plLatch => exact .inr (.inl ⟨rfl, (Host.Outcome.next.inj h).symm⟩)
  case encCfg => exact .inr (.inr (.inl ⟨_, _, _, _, _, rfl, (Host.Outcome.next.inj h).symm⟩))
  case ctlEntry => exact .inr (.inr (.inr (.inl ⟨rfl, (Host.Outcome.next.inj h).symm⟩)))
  all_goals exact .inr (.inr (.inr (.inr (.inr h))))

/-- Every operation that a word can spell keeps the invariant up to its first preemption point. -/
theorem RestInv.start {i : Instr} (h : RestInv s) (hp : s.place = .between) (hi : i.wellFormed = true)
    (he : start i s = .next t) : Inv t := by
  rcases start_next he with ⟨-, rfl⟩ | ⟨-, rfl⟩ | ⟨min, max, step, init, w, rfl, rfl⟩ | ⟨-, rfl⟩ | ⟨-, rfl⟩ | he
  · exact h.startTx false
  · exact h.startLatch
  · obtain ⟨hmin, hmax, hinit⟩ := operands_of_wellFormed hi
    exact h.cfgStep _ step w hmin hmax hinit
  · exact h.startEntry hp
  · exact h.startTick hp
  · exact h.exec_inv hp hi he

theorem Inv.sendInv {bits : List Bool} {later : List Pixel} {saved shown : Bool} (h : Inv s)
    (hp : s.place = .sending bits later saved shown) : SendInv bits later s ∧ s.ie = false := by
  obtain ⟨hrange, hacnt, hline, hwritten, hdark, hplace, hframed⟩ := h
  simp only [PlaceInv, WireFramed, hp] at hplace hframed
  exact ⟨⟨hrange.congr rfl rfl rfl, hacnt, hline, hwritten, hdark, ⟨rfl, hplace.2⟩, hframed⟩, hplace.1⟩

/-- Between two pixels the mask scope is PIXEL (rule R127). -/
theorem Inv.at_gap {ran shown : Bool} {later : List Pixel} (h : Inv s) (hp : s.place = .gap ran later shown) :
    RestInv s ∧ s.params.maskScope = .pixel ∧ s.lowed = false ∧ frameWritten s = true := by
  obtain ⟨hrange, hacnt, hline, hwritten, hdark, hplace, hframed⟩ := h
  simp only [PlaceInv, WireFramed, hp] at hplace hframed
  refine ⟨⟨hrange.congr rfl rfl rfl, hacnt, hline, hwritten, hdark, trivial, fun hf => (hframed hf).elim⟩, ?_, hplace⟩
  cases hm : s.params.maskScope with
  | frame => exact (hframed hm).elim
  | pixel => rfl

/-- Main context's part from any place keeps the invariant. -/
theorem Inv.resume (h : Inv s) : Inv (resume s) := by
  unfold Machine.resume
  cases hp : s.place
  case between => exact h
  case sending bits later saved shown =>
    obtain ⟨hsend, hie⟩ := h.sendInv hp
    exact hsend.bitStep hie saved shown
  case gap ran later shown =>
    obtain ⟨hrest, hpix, hl, hw⟩ := h.at_gap hp
    exact hrest.nextPixel hpix hl hw ran later shown
  all_goals have hrest : RestInv s := h.rest (by rw [hp]; rfl)
  case configuring todo min max step init w =>
    have hplace := h.place
    simp only [PlaceInv, hp] at hplace
    obtain ⟨hmin, hmax, hinit⟩ := hplace
    exact hrest.cfgStep todo step w hmin hmax hinit
  case whiteRail => exact hrest.cfgStep _ 1 false (by decide) (by decide) (toInt_range8 _)
  case read v => exact hrest.afterRead v
  case idling => exact hrest
  case loading todo => exact hrest.loadStep todo
  case loaded => exact hrest.startTx true
  case sent => exact hrest.startLatch
  case latching => exact hrest.emit_latch

/-! The turns. -/

/-- What the other agents change keeps the invariant at every place when it keeps the ranges. -/
theorem Inv.others (h : Inv s) (ho : OthersOnly s t) (hrange : RangeInv t) : Inv t := by
  obtain ⟨-, hacnt, hline, hwritten, hdark, hplace, hframed⟩ := h
  refine ⟨hrange, ho.acnt ▸ hacnt, ho.dout.trans hline, ?_, ?_, ?_, ?_⟩
  · simpa [ho.lowed, frameWritten_of_fbw ho.fbw] using hwritten
  · simpa [ho.rail, ho.displayed] using hdark
  · simpa only [PlaceInv, ho.place, ho.ie, ho.lowed, frameWritten_of_fbw ho.fbw] using hplace
  · simpa only [WireFramed, ho.place, ho.params, ho.lowed, ho.wire] using hframed

theorem Inv.othersMove (h : Inv s) : Inv (othersMove s).1 := h.others (othersMove_othersOnly s) h.range.othersMove

theorem Inv.takeInterrupt (h : Inv s) : Inv (takeInterrupt s) := h.others (takeInterrupt_othersOnly s) h.range.takeInterrupt

theorem Inv.setPins (h : Inv s) (a b : Bool) : Inv (setPins a b s) :=
  h.others (setPins_envOnly a b s).toOthers (h.range.congr rfl rfl rfl)

theorem Inv.setBtn (h : Inv s) (v : Bool) : Inv (setBtn v s) := h.others (setBtn_envOnly v s).toOthers (h.range.congr rfl rfl rfl)

theorem Inv.atPace (h : Inv s) (l : Option (List Turn)) : Inv (atPace l s) :=
  ⟨h.range.congr rfl rfl rfl, h.acnt, h.line, h.written, h.dark, h.place, h.framed⟩

theorem Inv.moveSeq (h : Inv s) (p : Point) : Inv (moveSeq p s) :=
  ⟨h.range.congr rfl rfl rfl, h.acnt, h.line, h.written, h.dark, h.place, h.framed⟩

theorem Inv.boot (h : Inv s) (hp : s.place = .between) : Inv (bootPoint s) :=
  RestInv.inv ((h.rest (by rw [hp]; rfl)).congr (h.range.congr rfl rfl rfl) h.acnt) hp

theorem Inv.refuse (h : Inv s) (r : Invalid) : Inv (refuse r s) :=
  ⟨h.range.congr rfl rfl rfl, h.acnt, h.line, h.written, h.dark, h.place, h.framed⟩

theorem handlerTurn_eq_takeInterrupt (hp : s.place.afterHandler = s.place) : handlerTurn s = takeInterrupt s := by
  rw [handlerTurn, hp, ← takeInterrupt_place]; rfl

/-- A handler run takes note of itself between two pixels only (rules R127, R228). -/
theorem Inv.handlerTurn (h : Inv s) : Inv (handlerTurn s) := by
  have ht := h.takeInterrupt
  cases hs : s.place
  case gap =>
    obtain ⟨hrest, hpix, hl, hw⟩ := ht.at_gap ((takeInterrupt_place s).trans hs)
    rw [Machine.handlerTurn, hs]
    exact ⟨hrest.range.congr rfl rfl rfl, hrest.acnt, hrest.line, hrest.written, hrest.dark, ⟨hl, hw⟩,
      fun hf => nomatch hpix.symm.trans hf⟩
  all_goals
    rw [handlerTurn_eq_takeInterrupt (by rw [hs]; rfl)]
    exact ht

/-- What a word spells has operands that fit their fields (rules R103, R104). -/
theorem wellFormed_of_decode {w : CommandWord} {i : Instr} (h : decode w = .ok i) : i.wellFormed = true := by
  obtain ⟨o, -, rfl⟩ := accepts_of_decode h
  cases o
  case encCfg =>
    have hfield : ∀ low, decide (InInt8 (int8Field w low)) = true := fun low => decide_eq_true (int8Field_inInt8 w low)
    simp only [Op.assemble, Instr.wellFormed, hfield, Bool.and_self]
  all_goals rfl

/-- What holds after main context's turn at its point, at either pace: it holds after BOOT, where nothing has changed, after a move of
SEQ, after a refusal, and after each operation that a word can spell, with SEQ moved (rules R185, R217, R222). -/
theorem mainTurn_induct {P : State → Prop} {run : Runner} (hboot : P (bootPoint s)) (hself : P s) (hseq : ∀ p, P (moveSeq p s))
    (hrefuse : ∀ r, P (refuse r s)) (hrun : ∀ i u p, i.wellFormed = true → run i s = .next u → P (moveSeq p u))
    (he : mainTurn run s = .next t) : P t := by
  rcases mainTurn_next he with ⟨-, rfl⟩ | ⟨-, u, hu, rfl⟩ | ⟨-, rfl⟩ | ⟨-, -, rfl⟩ | ⟨-, -, u, hu, rfl⟩ | ⟨-, rfl⟩ |
    ⟨-, rfl⟩ | ⟨-, rfl⟩ | ⟨-, u, hu, rfl⟩ | ⟨k, -, hk⟩
  · exact hboot
  · exact hrun _ u _ rfl hu
  · exact hseq _
  · exact hself
  · exact hrun _ u _ rfl hu
  · exact hseq _
  · split
    · exact hself
    · exact hseq _
  · exact hseq _
  · exact hrun _ u _ rfl hu
  · obtain ⟨w, -, ⟨r, -, rfl⟩ | ⟨i, u, hi, hu, rfl⟩⟩ := scriptTurn_next hk
    · exact hrefuse r
    · exact hrun i u _ (wellFormed_of_decode hi) hu

theorem Inv.mainTurn {run : Runner} (hp : s.place = .between) (hrun : ∀ i u, i.wellFormed = true → run i s = .next u → Inv u)
    (h : Inv s) (he : mainTurn run s = .next t) : Inv t :=
  mainTurn_induct (h.boot hp) h h.moveSeq h.refuse (fun i u p hi hu => (hrun i u hi hu).moveSeq p) he

theorem Inv.mainPart (h : Inv s) (he : mainPart s = .next t) : Inv t := by
  rcases mainPart_next he with ⟨hp, he⟩ | ⟨-, rfl⟩
  · exact h.mainTurn hp (fun i u hi hu => (h.rest (by rw [hp]; rfl)).start hp hi hu) he
  · exact h.resume.moveSeq _

theorem Inv.turnStep (h : Inv s) (he : turnStep s = .next t) : Inv t := by
  obtain ⟨l, -, ⟨-, ⟨a, b, rfl⟩ | ⟨v, rfl⟩⟩ | ⟨-, rfl⟩ | ⟨-, he⟩⟩ := turnStep_next he
  · exact (h.atPace l).setPins a b
  · exact (h.atPace l).setBtn v
  · exact (h.atPace l).handlerTurn
  · exact (h.atPace l).mainPart he

theorem Inv.step (h : Inv s) (he : step s = .next t) : Inv t := by
  obtain ⟨-, ⟨⟨-, hp⟩, u, rfl, ⟨-, rfl⟩ | ⟨-, he⟩⟩ | ⟨-, he⟩⟩ := step_next he
  · exact h.othersMove.takeInterrupt
  · have hp' : (Machine.othersMove s).1.place = .between := (othersMove_place s).trans hp
    exact h.othersMove.mainTurn hp' (fun i u hi hu => (h.othersMove.rest (by rw [hp']; rfl)).exec_inv hp' hi hu) he
  · exact h.turnStep he

/-- What every step keeps holds in every state of a run (rules R216, R218). -/
theorem ReachedFrom.induct {P : State → Prop} (hstep : ∀ s t, P s → step s = .next t → P t) (h : P s)
    (hr : ReachedFrom s t) : P t := by
  obtain ⟨n, hn⟩ := hr
  induction n generalizing s with
  | zero => exact Option.some.inj hn ▸ h
  | succ n ih =>
    rw [steps] at hn
    split at hn
    · rename_i u hu
      exact ih (hstep s u h hu) hn
    · cases hn
    · cases hn

/-- Settles O56: every part of a step keeps the invariant (`Inv.step`), and so does a run. -/
theorem invIsKept : Obligations.InvIsKept := by
  unfold Obligations.InvIsKept
  exact fun s t h => ⟨h.step, ReachedFrom.induct (fun _ _ => Inv.step) h⟩

end Sys2Proof.Machine


/-! Proofs of the single statements of the state: a confirmed step, the cycle of the Controller state, and the power-on. -/

namespace Sys2Proof.Machine

/-- Settles O20: POS is what BOUND answers (`bound_mem`). -/
theorem confirmedStepRestoresBounds : Obligations.ConfirmedStepRestoresBounds := by
  unfold Obligations.ConfirmedStepRestoresBounds
  intro s hordered ha hb
  refine ⟨edge s, rfl, ?_⟩
  rw [edge_of_confirmed ha hb]
  show _ ≤ (steppedPos s _).toInt ∧ (steppedPos s _).toInt ≤ _
  rw [steppedPos_toInt]
  exact bound_mem hordered _ _

/-- The next state's code is one more modulo 4 (rules R29, R174). -/
theorem AppState.code_next (a : AppState) : a.next.code.toNat = (a.code.toNat + 1) % 4 := by cases a <;> rfl

theorem AppState.next_four (a : AppState) : a.next.next.next.next = a := by cases a <;> rfl

/-- Settles O33: one step of the cycle, and four (`AppState.next_four`). -/
theorem advanceCyclesTheState : Obligations.AdvanceCyclesTheState := by
  unfold Obligations.AdvanceCyclesTheState
  intro s
  refine ⟨_, _, _, _, rfl, rfl, rfl, rfl, rfl, s.state.code_next, ?_⟩
  simp only [advance, s.state.next_four]

/-- Settles O53: both launches are `State.powerOn`. -/
theorem powerOnValues : Obligations.PowerOnValues := by
  unfold Obligations.PowerOnValues
  rintro d p program sched s (rfl | rfl)
  all_goals refine ⟨rfl, rfl, rfl, rfl, rfl, rfl, fun i => ?_, rfl, rfl, rfl, rfl, rfl, rfl, rfl, ?_, ?_⟩
  · exact Vector.getElem_replicate _
  · exact fun _ => rfl
  · exact fun h => nomatch congrArg State.seq h
  · exact Vector.getElem_replicate _
  · exact fun h => nomatch congrArg State.seq h
  · exact fun _ => ⟨rfl, rfl⟩

/-- At every legal draw the power-on state meets the machine's invariant (rules R46, R153). -/
theorem inv_powerOn {d : Draws} (h : d.legal) (p : Params) (ie : Bool) (seq : Point) (program : List CommandWord)
    (sched : List (List Move)) (turns : Option (List Turn)) : Inv (atPace turns (State.powerOn d p ie seq program sched)) where
  range := ⟨h.1, h.2.1, h.2.2⟩
  acnt := Nat.zero_le _
  line := rfl
  written := nofun
  dark := fun _ => rfl
  place := trivial
  framed := fun _ => rfl

/-- An autonomous launch meets the Controller's invariant where configure writes POS last (rules R189, R252, R257). -/
theorem controllerInv_launch {p : Params} (h : PosLast p.cfgOrder) (d : Draws) (sched : List (List Move))
    (turns : Option (List Turn)) : ControllerInv (atPace turns (State.launch d p sched)) where
  auto := rfl
  posLast := h
  bright := (by decide : 2 ≤ (5 : Reg8).toInt ∧ (5 : Reg8).toInt ≤ 15)
  hue := (by decide : 0 ≤ (0 : Reg8).toInt ∧ (0 : Reg8).toInt ≤ 48)
  pos := fun hboot => absurd rfl hboot
  posEntry := nofun
  place := trivial
  latched := nofun
  running := rfl

/-- Settles O55: both launches at every draw, and the reset state's draw is legal. -/
theorem invariantsAtPowerOn : Obligations.InvariantsAtPowerOn := by
  unfold Obligations.InvariantsAtPowerOn
  refine ⟨inv_powerOn (d := Draws.zero) (by decide) _ _ _ _ _ none, fun d p program sched turns => ?_⟩
  refine ⟨fun hd => ?_, rfl, fun hp => ?_⟩
  · exact ⟨inv_powerOn hd _ _ _ _ _ turns, inv_powerOn hd _ _ _ _ _ turns⟩
  · exact controllerInv_launch hp d sched turns

end Sys2Proof.Machine

/-! Proofs about the records: what every step adds to the trace, the reads, the faults and the refusal (rules R37, R43, R221,
R222). -/

namespace Sys2Proof.Machine

variable {s t u : State}

/-- `t` keeps the site, the script, the parameters and the records of `s`, and its trace and reads begin with those of `s`. -/
structure Extends (s t : State) : Prop where
  seq : t.seq = s.seq
  program : t.program = s.program
  params : t.params = s.params
  faults : t.faults = s.faults
  refused : t.refused = s.refused
  wire : s.wire <+: t.wire
  reads : s.reads <+: t.reads

theorem Extends.trans (h : Extends s t) (h' : Extends t u) : Extends s u :=
  ⟨h'.seq.trans h.seq, h'.program.trans h.program, h'.params.trans h.params, h'.faults.trans h.faults, h'.refused.trans h.refused,
    h.wire.trans h'.wire, h.reads.trans h'.reads⟩

/-- What leaves the trace and the reads alone too. -/
theorem Extends.of_eq (hseq : t.seq = s.seq := by rfl) (hprogram : t.program = s.program := by rfl)
    (hparams : t.params = s.params := by rfl) (hfaults : t.faults = s.faults := by rfl) (hrefused : t.refused = s.refused := by rfl)
    (hwire : t.wire = s.wire := by rfl) (hreads : t.reads = s.reads := by rfl) : Extends s t :=
  ⟨hseq, hprogram, hparams, hfaults, hrefused, hwire ▸ List.prefix_rfl, hreads ▸ List.prefix_rfl⟩

theorem EncoderOnly.extends (h : EncoderOnly s t) : Extends s t :=
  .of_eq h.seq h.program h.params h.faults h.refused h.wire h.reads

theorem OthersOnly.extends (h : OthersOnly s t) : Extends s t := h.toEncoder.extends

theorem extends_preempt (s : State) : Extends s (preempt s) := (preempt_othersOnly s).extends

theorem extends_emit (x : Symbol) (s : State) : Extends s (emit x s) :=
  ⟨rfl, rfl, rfl, rfl, rfl, List.prefix_append _ _, List.prefix_rfl⟩

theorem extends_get (s : State) : Extends s (get s) := ⟨rfl, rfl, rfl, rfl, rfl, List.prefix_rfl, List.prefix_append _ _⟩

theorem extends_sendFrame (s : State) : Extends s (sendFrame s) :=
  sendFrame_induct (P := Extends s) (fun _ _ _ h => h.trans .of_eq) (fun _ _ h => h.trans .of_eq)
    (fun t h _ => h.trans (takeInterrupt_othersOnly t).extends) (fun _ _ h => h.trans .of_eq)
    (fun x t h => h.trans (extends_emit x t)) (fun _ _ h => h.trans .of_eq) .of_eq

/-- `t` is reached from `s` with nothing recorded, or by recording one fault at the end, at the site of `s`. -/
def Records (s t : State) : Prop := ∃ u, Extends s u ∧ (t = u ∨ ∃ k, t = raise k u)

theorem Extends.records (h : Extends s t) : Records s t := ⟨t, h, .inl rfl⟩

theorem Extends.records_raise (h : Extends s t) (k : FaultKind) : Records s (raise k t) := ⟨t, h, .inr ⟨k, rfl⟩⟩

theorem Extends.trans_records (h : Extends s t) (h' : Records t u) : Records s u :=
  let ⟨v, hv, hu⟩ := h'
  ⟨v, h.trans hv, hu⟩

/-! The whole operations. -/

/-- PL.TX sends its frame or records one fault (rule R124). -/
theorem transmit_cases (s : State) :
    (∃ t, transmit s = .done t ∧ Extends s t) ∨ ∃ k, transmit s = .faulted (raise k s) := by
  cases hl : s.lowed with
  | true => exact .inr ⟨_, transmit_latchMissing hl⟩
  | false =>
    cases hw : frameWritten s with
    | false => exact .inr ⟨_, transmit_unwritten hl hw⟩
    | true => exact .inl ⟨_, transmit_done hl hw, (extends_sendFrame s).trans .of_eq⟩

theorem records_transmit (s : State) : Records s (transmit s).state := by
  obtain ⟨t, e, h⟩ | ⟨k, e⟩ := transmit_cases s <;> rw [e]
  · exact h.records
  · exact Extends.records_raise .of_eq k

theorem extends_emit_latch (s : State) : Extends s { emit .latch s with lowed := false } := (extends_emit .latch s).trans .of_eq

theorem extends_latch (s : State) : Extends s (latch s) :=
  (Extends.of_eq (t := { s with dout := false })).trans ((extends_preempt _).trans (extends_emit_latch _))

theorem extends_loads (pix : Fin 8 → Rgb) (s : State) :
    Extends s (mainSteps (pixelIndices.map fun i => load i (pixelWord (pix i))) s) := by
  obtain ⟨t, rfl, -, h⟩ := loads_othersOnly pix s
  exact Extends.trans .of_eq h.extends

theorem records_render (pix : Fin 8 → Rgb) (s : State) : Records s (render pix s).state := by
  have hloads := (extends_loads pix s).trans (extends_preempt _)
  unfold render
  generalize preempt (mainSteps (pixelIndices.map fun i => load i (pixelWord (pix i))) s) = u at hloads
  obtain ⟨t, e, h⟩ | ⟨k, e⟩ := transmit_cases u <;> rw [e]
  · exact (hloads.trans (h.trans ((extends_preempt t).trans (extends_latch _)))).records
  · exact hloads.records_raise k

/-! A tick's own lines write Controller registers only (rules R182 to R184). -/

theorem extends_animateEnd (v : Reg8) (s : State) : Extends s (animateEnd v s).1 := by
  unfold animateEnd
  split
  · exact .of_eq
  · exact .of_eq

theorem extends_tickEnd (v : Reg8) (s : State) : Extends s (tickEnd v s).1 := by
  unfold tickEnd
  split
  · exact .of_eq
  · exact .of_eq
  · exact extends_animateEnd v s
  · exact .of_eq

theorem records_readTick {rest : Reg8 → State → State × TickEnd} (hrest : ∀ v u, Extends u (rest v u).1) (s : State) :
    Records s (readTick rest s).state := by
  have hx := (extends_get s).trans ((extends_preempt _).trans (hrest (position s) _))
  unfold readTick
  dsimp only
  split
  · exact hx.records_raise _
  · exact (hx.trans (extends_preempt _)).records
  · exact (hx.trans (extends_preempt _)).trans_records (records_render _ _)

theorem records_tick (s : State) : Records s (tick s).state := by
  unfold tick
  split
  · exact Extends.records .of_eq
  · exact records_readTick (fun _ _ => .of_eq) s
  · exact records_readTick extends_animateEnd s
  · exact records_readTick (fun _ _ => .of_eq) s

theorem extends_entry (s : State) : Extends s (entry s) := Extends.trans .of_eq (entry_encoderOnly s).extends

theorem records_exec {i : Instr} (he : exec i s = .next t) : Records s t := by
  cases i
  case ctlTick =>
    obtain rfl := eq_tick_of_exec he
    exact records_tick s
  all_goals injection he with he; subst he
  case plTx => exact records_transmit s
  case plLatch => exact (extends_latch s).records
  case encEdge => exact (edge_othersOnly s).extends.records
  case encGet => exact (extends_get s).records
  case encCfg => exact (configure_encoderOnly ..).extends.records
  case ctlEntry => exact (extends_entry s).records
  case plLoad | ctlRail | ctlAdv | sysCli | sysSei | envPins | envBtn => exact Extends.records .of_eq

/-! The parts of the operations between two preemption points. -/

theorem extends_cfgStep (todo : List CfgReg) (min max step init : Int) (w : Bool) (s : State) :
    Extends s (cfgStep todo min max step init w s) := by
  unfold cfgStep
  split
  · exact .of_eq
  · exact (cfgWrite_encoderOnly min max step init w _ s).extends.trans .of_eq

theorem extends_unmask (later : List Pixel) (saved shown : Bool) (s : State) : Extends s (unmask later saved shown s) := by
  unfold unmask
  split
  · exact .of_eq
  · exact .of_eq

theorem extends_bitStep (bits : List Bool) (later : List Pixel) (saved shown : Bool) (s : State) :
    Extends s (bitStep bits later saved shown s) := by
  unfold bitStep
  split
  · exact extends_unmask ..
  · split
    · exact (extends_emit _ s).trans (extends_unmask ..)
    · exact (extends_emit _ s).trans .of_eq

theorem extends_startBits (bits : List Bool) (later : List Pixel) (shown : Bool) (s : State) :
    Extends s (startBits bits later shown s) :=
  Extends.trans .of_eq (extends_bitStep bits later s.ie shown (setIe false s))

theorem extends_nextPixel (ran : Bool) (later : List Pixel) (shown : Bool) (s : State) :
    Extends s (nextPixel ran later shown s) := by
  unfold nextPixel
  split
  · exact .of_eq
  · split
    · exact (extends_emit .gap s).trans (extends_startBits ..)
    · exact extends_startBits ..

theorem records_startTx (shown : Bool) (s : State) : Records s (startTx shown s) := by
  cases hl : s.lowed with
  | true => rw [startTx_latchMissing shown hl]; exact Extends.records_raise (t := leave s) .of_eq _
  | false =>
    cases hw : frameWritten s with
    | false => rw [startTx_unwritten shown hl hw]; exact Extends.records_raise (t := leave s) .of_eq _
    | true =>
      rw [startTx_written shown hl hw]
      split
      · exact (extends_startBits ..).records
      · exact (extends_nextPixel ..).records

theorem extends_startEntry (s : State) : Extends s (startEntry s) := by
  unfold startEntry
  split
  · exact .of_eq
  · exact .of_eq
  · exact .of_eq
  · exact extends_cfgStep ..

theorem extends_startTick (s : State) : Extends s (startTick s) := by
  unfold startTick
  split
  · exact .of_eq
  all_goals exact (extends_get s).trans .of_eq

theorem records_afterRead (v : Reg8) (s : State) : Records s (afterRead v s) := by
  have hx := extends_tickEnd v s
  unfold afterRead
  dsimp only
  split
  · exact Extends.records_raise (t := leave (tickEnd v s).1) (hx.trans .of_eq) _
  · exact (hx.trans .of_eq).records
  · exact (hx.trans .of_eq).records

theorem extends_loadStep (todo : List (Fin 8 × Pixel)) (s : State) : Extends s (loadStep todo s) := by
  unfold loadStep
  split
  · exact .of_eq
  · exact .of_eq

theorem records_start {i : Instr} (he : start i s = .next t) : Records s t := by
  rcases start_next he with ⟨-, rfl⟩ | ⟨-, rfl⟩ | ⟨_, _, _, _, _, -, rfl⟩ | ⟨-, rfl⟩ | ⟨-, rfl⟩ | he
  · exact records_startTx false s
  · exact Extends.records .of_eq
  · exact (extends_cfgStep ..).records
  · exact (extends_startEntry s).records
  · exact (extends_startTick s).records
  · exact records_exec he

theorem records_resume (s : State) : Records s (resume s) := by
  unfold resume
  cases s.place
  case between => exact Extends.records .of_eq
  case configuring => exact (extends_cfgStep ..).records
  case whiteRail => exact (extends_cfgStep ..).records
  case read v => exact records_afterRead v s
  case idling => exact Extends.records .of_eq
  case loading todo => exact (extends_loadStep todo s).records
  case loaded => exact records_startTx true s
  case sending => exact (extends_bitStep ..).records
  case gap => exact (extends_nextPixel ..).records
  case sent => exact Extends.records .of_eq
  case latching => exact ((extends_emit_latch s).trans .of_eq).records

/-! The steps. -/

/-- What a step leaves and records: the script and the parameters stand, the trace and the reads grow at their ends, and a fault or
refusal it records is the only one, at the site where SEQ stays (rules R45, R84, R221, R222). -/
structure StepRecords (s t : State) : Prop where
  program : t.program = s.program
  params : t.params = s.params
  wire : s.wire <+: t.wire
  reads : s.reads <+: t.reads
  site : halted t = true → t.seq = s.seq ∧
    ((∃ k, t.faults = [(k, s.seq)] ∧ t.refused = none) ∨ (∃ r, t.faults = [] ∧ t.refused = some (r, s.seq)))

theorem halted_eq_false_iff : halted s = false ↔ s.faults = [] ∧ s.refused = none := by simp [halted]

theorem Extends.halted_eq (h : Extends s t) : halted t = halted s := halted_congr h.faults h.refused

theorem Records.stepRecords (h : Records s t) (hs : halted s = false) : StepRecords s t := by
  obtain ⟨u, hu, rfl | ⟨k, rfl⟩⟩ := h
  · exact ⟨hu.program, hu.params, hu.wire, hu.reads, fun ht => by simp [hu.halted_eq, hs] at ht⟩
  · obtain ⟨hfaults, hrefused⟩ := halted_eq_false_iff.1 hs
    refine ⟨hu.program, hu.params, hu.wire, hu.reads, fun _ => ⟨hu.seq, .inl ⟨k, ?_, hu.refused.trans hrefused⟩⟩⟩
    simp [hu.faults, hfaults, hu.seq]

/-- SEQ moves past an operation that has recorded nothing only (rules R217, R221). -/
theorem StepRecords.moveSeq (h : StepRecords s t) (p : Point) : StepRecords s (moveSeq p t) := by
  cases ht : halted t with
  | true => rw [moveSeq_halted ht]; exact h
  | false => exact ⟨h.program, h.params, h.wire, h.reads, fun hm => nomatch ht.symm.trans hm⟩

theorem StepRecords.of_extends (h : Extends s t) (h' : StepRecords t u) : StepRecords s u :=
  ⟨h'.program.trans h.program, h'.params.trans h.params, h.wire.trans h'.wire, h.reads.trans h'.reads, h.seq ▸ h'.site⟩

theorem stepRecords_refuse (hs : halted s = false) (r : Invalid) : StepRecords s (refuse r s) :=
  ⟨rfl, rfl, List.prefix_rfl, List.prefix_rfl, fun _ => ⟨rfl, .inr ⟨r, (halted_eq_false_iff.1 hs).1, rfl⟩⟩⟩

theorem stepRecords_bootPoint (hs : halted s = false) : StepRecords s (bootPoint s) :=
  ⟨rfl, rfl, List.prefix_rfl, List.prefix_rfl, fun hm => nomatch hs.symm.trans hm⟩

theorem stepRecords_mainTurn {run : Runner} (hrun : ∀ i u, run i s = .next u → Records s u) (hs : halted s = false)
    (he : mainTurn run s = .next t) : StepRecords s t :=
  have hself : StepRecords s s := (Extends.records .of_eq).stepRecords hs
  mainTurn_induct (stepRecords_bootPoint hs) hself hself.moveSeq (stepRecords_refuse hs)
    (fun i u p _ hu => ((hrun i u hu).stepRecords hs).moveSeq p) he

theorem stepRecords_mainPart (hs : halted s = false) (he : mainPart s = .next t) : StepRecords s t := by
  rcases mainPart_next he with ⟨-, he⟩ | ⟨-, rfl⟩
  · exact stepRecords_mainTurn (fun _ _ => records_start) hs he
  · exact ((records_resume s).stepRecords hs).moveSeq _

theorem stepRecords_turnStep (hs : halted s = false) (he : turnStep s = .next t) : StepRecords s t := by
  obtain ⟨l, -, ⟨-, ⟨a, b, rfl⟩ | ⟨v, rfl⟩⟩ | ⟨-, rfl⟩ | ⟨-, he⟩⟩ := turnStep_next he
  · exact (Extends.of_eq (s := s)).records.stepRecords hs
  · exact (Extends.of_eq (s := s)).records.stepRecords hs
  · have hrun := (takeInterrupt_othersOnly (atPace l s)).extends
    exact (Extends.trans .of_eq (hrun.trans .of_eq)).records.stepRecords hs
  · exact .of_extends .of_eq (stepRecords_mainPart (s := atPace l s) hs he)

/-- What every step leaves and records, at either pace. -/
theorem stepRecords_step (he : step s = .next t) : StepRecords s t := by
  obtain ⟨hs, ⟨-, u, rfl, ⟨-, rfl⟩ | ⟨-, he⟩⟩ | ⟨-, he⟩⟩ := step_next he
  · exact ((othersMove_othersOnly s).extends.trans (takeInterrupt_othersOnly _).extends).records.stepRecords hs
  · exact .of_extends (othersMove_othersOnly s).extends
      (stepRecords_mainTurn (fun _ _ => records_exec) ((halted_othersMove s).trans hs) he)
  · exact stepRecords_turnStep hs he

/-- Settles O59: `stepRecords_step`. -/
theorem scriptAndParametersAreFixed : Obligations.ScriptAndParametersAreFixed := by
  unfold Obligations.ScriptAndParametersAreFixed
  intro s t he
  obtain ⟨hprogram, hparams, -, -, -⟩ := stepRecords_step he
  exact ⟨hprogram, hparams⟩

/-- Settles O60: `stepRecords_step`. -/
theorem recordsGrowAndNameTheirSite : Obligations.RecordsGrowAndNameTheirSite := by
  unfold Obligations.RecordsGrowAndNameTheirSite
  intro s t he
  obtain ⟨-, -, hwire, hreads, hsite⟩ := stepRecords_step he
  exact ⟨hwire, hreads, hsite⟩

end Sys2Proof.Machine


/-! Proofs about what the operations leave alone: the inputs in script mode (rules R42, R217), and the write columns of the access
matrix (rule R47). -/

namespace Sys2Proof.Machine

variable {s t u : State}

/-! Script mode with other agents: the handler is the only one. -/

/-- What an interruptible operation leaves of the inputs in script mode, where a handler run may clear IPEND (rules R42, R217). -/
structure ScriptInputs (s t : State) : Prop where
  seq : t.seq = s.seq
  ie : t.ie = s.ie
  pinA : t.pinA = s.pinA
  pinB : t.pinB = s.pinB
  pinBtn : t.pinBtn = s.pinBtn
  sched : t.sched = s.sched
  ipend : t.ipend = true → s.ipend = true
  masked : s.ie = false → t.ipend = s.ipend

/-- What leaves IPEND alone too. -/
theorem ScriptInputs.of_eq (hseq : t.seq = s.seq := by rfl) (hie : t.ie = s.ie := by rfl) (hpinA : t.pinA = s.pinA := by rfl)
    (hpinB : t.pinB = s.pinB := by rfl) (hpinBtn : t.pinBtn = s.pinBtn := by rfl) (hsched : t.sched = s.sched := by rfl)
    (hipend : t.ipend = s.ipend := by rfl) : ScriptInputs s t :=
  ⟨hseq, hie, hpinA, hpinB, hpinBtn, hsched, fun h => hipend ▸ h, fun _ => hipend⟩

theorem ScriptInputs.trans (h : ScriptInputs s t) (h' : ScriptInputs t u) : ScriptInputs s u :=
  ⟨h'.seq.trans h.seq, h'.ie.trans h.ie, h'.pinA.trans h.pinA, h'.pinB.trans h.pinB, h'.pinBtn.trans h.pinBtn,
    h'.sched.trans h.sched, h.ipend ∘ h'.ipend, fun hm => (h'.masked (h.ie.trans hm)).trans (h.masked hm)⟩

theorem TickOnly.scriptInputs (h : TickOnly s t) : ScriptInputs s t :=
  .of_eq h.seq h.ie h.pinA h.pinB h.pinBtn h.sched h.ipend

theorem scriptInputs_takeInterrupt (h : s.ie = true) : ScriptInputs s (takeInterrupt s) := by
  obtain ⟨la, lb, leq, pos, e, -⟩ := takeInterrupt_cases s
  rw [e]
  exact ⟨rfl, rfl, rfl, rfl, rfl, rfl, nofun, fun hm => nomatch h.symm.trans hm⟩

/-- At a preemption point of a script only a handler run can happen (rules R217, R225). -/
theorem scriptInputs_preempt {k : Nat} (hk : s.seq = .word k) : ScriptInputs s (preempt s) := by
  unfold preempt preemptRan
  rw [othersMove_word hk]
  dsimp only
  split
  · rename_i hd
    exact scriptInputs_takeInterrupt (Bool.and_eq_true_iff.1 hd).1
  · exact .of_eq

section

variable {k : Nat} (hk : s.seq = .word k)
include hk

theorem ScriptInputs.preempt (h : ScriptInputs s t) : ScriptInputs s (preempt t) :=
  h.trans (scriptInputs_preempt (h.seq.trans hk))

theorem ScriptInputs.sendMasked (bits : List Bool) (t : State) (hb : bits ≠ []) (h : ScriptInputs s t) :
    ScriptInputs s (sendMasked bits t) := by
  rw [sendMasked_script hb (h.seq.trans hk)]
  exact h.trans .of_eq

theorem scriptInputs_transmit : ScriptInputs s (transmit s).state :=
  transmit_kept (fun _ => .preempt hk) (.sendMasked hk) (fun _ _ ho h => h.trans ho.scriptInputs) .of_eq

theorem scriptInputs_latch : ScriptInputs s (latch s) :=
  latch_kept (fun _ => .preempt hk) (fun _ _ ho h => h.trans ho.scriptInputs) .of_eq

theorem scriptInputs_tick : ScriptInputs s (tick s).state :=
  tick_kept (fun _ => .preempt hk) (.sendMasked hk) (fun _ _ ho h => h.trans ho.scriptInputs) .of_eq

theorem scriptInputs_configure (min max step init : Int) (w : Bool) : ScriptInputs s (configure min max step init w s) := by
  refine mainSteps_induct (P := ScriptInputs s) ?_ (fun _ => .preempt hk) .of_eq
  intro f hf t ht
  obtain ⟨r, -, rfl⟩ := List.mem_map.1 hf
  cases r <;> exact ht.trans .of_eq

theorem scriptInputs_entry : ScriptInputs s (entry s) := by
  unfold entry
  split
  · exact .of_eq
  · have h : ScriptInputs s (Machine.preempt (setRail true s)) := (ScriptInputs.of_eq (t := setRail true s)).preempt hk
    exact h.trans (scriptInputs_configure (h.seq.trans hk) ..)
  · exact .of_eq
  · exact scriptInputs_configure hk ..

end

theorem scriptInputs_edge (s : State) : ScriptInputs s (edge s) := by
  obtain ⟨la, lb, leq, pos, e, -⟩ := edge_cases s
  rw [e]
  exact .of_eq

/-- A write of IE moves no input. -/
theorem ScriptInputs.masked_inputs (h : ScriptInputs s t) : ScriptInputs s (setIe s.ie t) :=
  ⟨h.seq, rfl, h.pinA, h.pinB, h.pinBtn, h.sched, h.ipend, h.masked⟩

/-- In script mode an operation is one of the environment's words, or leaves the inputs alone, whatever it does to IE (rules R42, R217). -/
theorem exec_scriptInputs {k : Nat} (hk : s.seq = .word k) {i : Instr} (he : exec i s = .next t) :
    (∃ a b, i = .envPins a b ∧ t = setPins a b s) ∨ (∃ v, i = .envBtn v ∧ t = setBtn v s) ∨ ScriptInputs s (setIe s.ie t) := by
  cases i
  case ctlTick =>
    obtain rfl := eq_tick_of_exec he
    exact .inr (.inr (scriptInputs_tick hk).masked_inputs)
  all_goals injection he with he; subst he
  case envPins a b => exact .inl ⟨a, b, rfl, rfl⟩
  case envBtn v => exact .inr (.inl ⟨v, rfl, rfl⟩)
  all_goals refine .inr (.inr ?_)
  case plTx => exact (scriptInputs_transmit hk).masked_inputs
  case plLatch => exact (scriptInputs_latch hk).masked_inputs
  case encEdge => exact (scriptInputs_edge s).masked_inputs
  case encCfg => exact (scriptInputs_configure hk ..).masked_inputs
  case ctlEntry => exact (scriptInputs_entry hk).masked_inputs
  case plLoad | encGet | ctlRail | ctlAdv | sysCli | sysSei => exact .of_eq

/-- Settles O51: the words of the environment write their inputs, and every other operation keeps them (`exec_scriptInputs`). -/
theorem scriptInputsStay : Obligations.ScriptInputsStay := by
  unfold Obligations.ScriptInputsStay
  rintro i s t ⟨k, hk⟩ he
  rcases exec_scriptInputs hk he with ⟨a, b, rfl, rfl⟩ | ⟨v, rfl, rfl⟩ | h
  · exact ⟨fun hi => absurd rfl (hi a b), fun _ => rfl, rfl⟩
  · exact ⟨fun _ => ⟨rfl, rfl, id, fun _ => rfl⟩, fun hi => absurd rfl (hi v), rfl⟩
  · exact ⟨fun _ => ⟨h.pinA, h.pinB, h.ipend, h.masked⟩, fun _ => h.pinBtn, h.sched⟩

/-! Main context alone: no other agent moves, and an operation changes its own registers only. -/

theorem TickOnly.refl (s : State) : TickOnly s s := by constructor <;> rfl

/-- Of what other agents share, `t` differs from `s` in nothing. -/
theorem TickOnly.shared (h : TickOnly s t) :
    t.pos = s.pos ∧ history t = history s ∧ t.ipend = s.ipend ∧ t.pinA = s.pinA ∧ t.pinB = s.pinB ∧ t.pinBtn = s.pinBtn :=
  ⟨h.pos, by rw [history, h.la, h.lb, h.leq, history], h.ipend, h.pinA, h.pinB, h.pinBtn⟩

theorem TickOnly.trans (h : TickOnly s t) (h' : TickOnly t u) : TickOnly s u := by
  cases h
  cases h'
  constructor <;> simp_all

section

variable (ha : Alone s)
include ha

theorem TickOnly.preempt_alone (h : TickOnly s t) : TickOnly s (preempt t) := by
  rw [preempt_of_alone (ha.congr h.seq h.ie h.ipend)]
  exact h

theorem TickOnly.sendMasked_alone (bits : List Bool) (t : State) (hb : bits ≠ []) (h : TickOnly s t) :
    TickOnly s (sendMasked bits t) := by
  obtain ⟨⟨k, hk⟩, -⟩ := ha
  rw [sendMasked_script hb (h.seq.trans hk)]
  exact h.trans (by constructor <;> rfl)

theorem transmit_alone : TickOnly s (transmit s).state :=
  transmit_kept (fun _ => .preempt_alone ha) (.sendMasked_alone ha) (fun _ _ ho h => h.trans ho) (.refl s)

theorem latch_alone : TickOnly s (latch s) := latch_kept (fun _ => .preempt_alone ha) (fun _ _ ho h => h.trans ho) (.refl s)

theorem tick_alone : TickOnly s (tick s).state :=
  tick_kept (fun _ => .preempt_alone ha) (.sendMasked_alone ha) (fun _ _ ho h => h.trans ho) (.refl s)

/-- An entry action alone leaves the edge history and the inputs as they are (rules R175 to R179). -/
theorem entry_alone : history (entry s) = history s ∧ (entry s).ipend = s.ipend ∧ (entry s).pinA = s.pinA ∧
    (entry s).pinB = s.pinB ∧ (entry s).pinBtn = s.pinBtn := by
  unfold entry
  split
  · exact ⟨rfl, rfl, rfl, rfl, rfl⟩
  · have hr : Alone (setRail true s) := ha.congr rfl rfl rfl
    unfold entryWhite
    rw [preempt_of_alone hr, configure_alone _ _ _ _ _ hr]
    exact ⟨rfl, rfl, rfl, rfl, rfl⟩
  · exact ⟨rfl, rfl, rfl, rfl, rfl⟩
  · unfold entrySolid
    rw [configure_alone _ _ _ _ _ ha]
    exact ⟨rfl, rfl, rfl, rfl, rfl⟩

end

/-! The registers each tick writes of its own (rules R182 to R184). -/

/-- After its own lines a tick leaves the Controller's registers alone. -/
theorem readTick_controller (rest : Reg8 → State → State × TickEnd) (s : State) {x : State}
    (hx : x = (rest (position s) (preempt (get s))).1) :
    (readTick rest s).state.bright = x.bright ∧ (readTick rest s).state.hue = x.hue ∧
      (readTick rest s).state.acnt = x.acnt ∧ (readTick rest s).state.aphase = x.aphase := by
  unfold readTick
  dsimp only
  rw [← hx]
  split
  · exact ⟨rfl, rfl, rfl, rfl⟩
  · simp [Flow.state]
  · have h := render_frame ‹_› (preempt x)
    exact ⟨by simpa using h.bright, by simpa using h.hue, by simpa using h.acnt, by simpa using h.aphase⟩

theorem animateEnd_bright_hue (n : Reg8) (s : State) : (animateEnd n s).1.bright = s.bright ∧ (animateEnd n s).1.hue = s.hue := by
  unfold animateEnd
  split <;> exact ⟨rfl, rfl⟩

/-- Which tick writes BRIGHT, HUE, ACNT and APHASE (rule R47). -/
theorem tick_writes (s : State) :
    ((tick s).state.bright ≠ s.bright → s.state = .white) ∧ ((tick s).state.hue ≠ s.hue → s.state = .solid) ∧
      ((tick s).state.acnt ≠ s.acnt ∨ (tick s).state.aphase ≠ s.aphase → s.state = .animate) := by
  unfold tick
  cases hs : s.state with
  | off => simp [Flow.state]
  | white =>
    obtain ⟨-, hhue, hacnt, haphase⟩ := readTick_controller whiteEnd s rfl
    simp [tickWhite, hhue, hacnt, haphase, whiteEnd]
  | animate =>
    obtain ⟨hbright, hhue, -, -⟩ := readTick_controller animateEnd s rfl
    simp [tickAnimate, hbright, hhue, animateEnd_bright_hue]
  | solid =>
    obtain ⟨hbright, -, hacnt, haphase⟩ := readTick_controller solidEnd s rfl
    simp [tickSolid, hbright, hacnt, haphase, solidEnd]

/-- Settles O52: each operation's own registers by its frame, and those that other agents share where main context is alone. -/
theorem onlyTheseOperationsWrite : Obligations.OnlyTheseOperationsWrite := by
  unfold Obligations.OnlyTheseOperationsWrite
  intro i s t he
  cases i
  case ctlTick =>
    obtain rfl := eq_tick_of_exec he
    have h := tick_frame s
    obtain ⟨hbright, hhue, hanimate⟩ := tick_writes s
    have ha := fun hal : Alone s => (tick_alone hal).shared
    refine ⟨fun hn => absurd h.state hn, fun hn => ⟨rfl, hbright hn⟩, fun hn => ⟨rfl, hhue hn⟩,
      fun hn => ⟨rfl, hanimate hn⟩, ?_⟩
    clear hbright hhue hanimate
    generalize (tick s).state = t at h ha
    cases h
    simp_all +contextual
  all_goals injection he with he; subst he
  case plTx =>
    have h := transmit_frame s
    have ha := fun hal : Alone s => (transmit_alone hal).shared
    generalize (transmit s).state = t at h ha
    cases h
    simp_all +contextual
  case plLatch =>
    have h := latch_othersOnly s
    have ha := fun hal : Alone s => (latch_alone hal).shared
    generalize latch s = t at h ha
    cases h
    simp_all +contextual
  case encEdge =>
    obtain ⟨la, lb, leq, pos, e, -⟩ := edge_cases s
    rw [e]
    simp
  case encCfg mn mx st ini w =>
    have h := configure_encoderOnly mn mx st ini w s
    have ha := fun hal : Alone s => configure_alone mn mx st ini w hal
    generalize configure mn mx st ini w s = t at h ha
    cases h
    simp_all +contextual [history]
  case ctlEntry =>
    have h := entry_encoderOnly s
    have ha := fun hal : Alone s => entry_alone hal
    generalize entry s = t at h ha
    cases h
    simp_all +contextual
  all_goals simp [history, get, setIe]

end Sys2Proof.Machine

/-! Proofs about other agents inside an operation: configure completes under every interference (rules R78, R152, R257), and with
interrupts masked no handler runs (rules R82, R224). -/

namespace Sys2Proof.Machine

variable {s t u : State}

/-- Settles O24: what configure leaves (`configure_written`), read as the integers it was given. -/
theorem configureUnderInterference : Obligations.ConfigureUnderInterference := by
  unfold Obligations.ConfigureUnderInterference
  intro s min max step init w hmin hmax hstep hinit
  obtain ⟨himin, himax, hencStep, hwrap, hpos⟩ := configure_written min max step init w s
  refine ⟨_, rfl, configure_encoderOnly min max step init w s, ?_, ?_, ?_, hwrap, fun hl => ?_⟩
  · rw [himin, doubled_toInt hmin]
  · rw [himax, doubled_toInt hmax]
  · rw [hencStep, toInt_ofInt8 hstep]
  · rw [hpos hl, doubled_toInt hinit]

/-- Interrupts stay masked from `s` to `t`, and no handler has left a trace in the edge history. -/
def MaskedHistory (s t : State) : Prop := t.ie = false ∧ history t = history s

/-- The same of the position too, which no own write has changed either. -/
def MaskedEncoder (s t : State) : Prop := MaskedHistory s t ∧ t.pos = s.pos

/-- The environment by itself leaves the edge history alone (rule R47). -/
theorem EnvOnly.history_eq (h : EnvOnly s t) : history t = history s := by rw [history, h.la, h.lb, h.leq, history]

theorem MaskedHistory.preempt (h : MaskedHistory s t) : MaskedHistory s (preempt t) :=
  have he := preempt_envOnly h.1
  ⟨he.ie.trans h.1, he.history_eq.trans h.2⟩

theorem MaskedEncoder.preempt (h : MaskedEncoder s t) : MaskedEncoder s (preempt t) :=
  ⟨h.1.preempt, (preempt_envOnly h.1.1).pos.trans h.2⟩

theorem MaskedEncoder.sendMasked (bits : List Bool) (t : State) (hb : bits ≠ []) (h : MaskedEncoder s t) :
    MaskedEncoder s (sendMasked bits t) := by
  obtain ⟨⟨hie, hhist⟩, hpos⟩ := h
  have he := sendMasked_envOnly hb t
  exact ⟨⟨he.ie.trans hie, he.history_eq.trans hhist⟩, he.pos.trans hpos⟩

theorem MaskedEncoder.own (t u : State) (ho : TickOnly t u) (h : MaskedEncoder s t) : MaskedEncoder s u := by
  obtain ⟨⟨hie, hhist⟩, hpos⟩ := h
  obtain ⟨-, hshared, -⟩ := ho.shared
  exact ⟨⟨ho.ie.trans hie, hshared.trans hhist⟩, ho.pos.trans hpos⟩

section

variable (hie : s.ie = false)
include hie

/-- Configure writes POS and no edge history (rule R152). -/
theorem maskedHistory_configure (min max step init : Int) (w : Bool) : MaskedHistory s (configure min max step init w s) := by
  refine mainSteps_induct (P := MaskedHistory s) ?_ (fun _ => .preempt) ⟨hie, rfl⟩
  intro f hf t ht
  obtain ⟨r, -, rfl⟩ := List.mem_map.1 hf
  cases r <;> exact ht

theorem maskedHistory_entry : MaskedHistory s (entry s) := by
  unfold entry
  split
  · exact ⟨hie, rfl⟩
  · have hrail : MaskedHistory s (Machine.preempt (setRail true s)) := .preempt ⟨hie, rfl⟩
    obtain ⟨hie', hhist⟩ := maskedHistory_configure hrail.1 2 15 1 (Machine.preempt (setRail true s)).bright.toInt false
    exact ⟨hie', hhist.trans hrail.2⟩
  · exact ⟨hie, rfl⟩
  · exact maskedHistory_configure hie ..

theorem maskedEncoder_transmit : MaskedEncoder s (transmit s).state :=
  transmit_kept (fun _ => .preempt) .sendMasked .own ⟨⟨hie, rfl⟩, rfl⟩

theorem maskedEncoder_latch : MaskedEncoder s (latch s) := latch_kept (fun _ => .preempt) .own ⟨⟨hie, rfl⟩, rfl⟩

theorem maskedEncoder_tick : MaskedEncoder s (tick s).state :=
  tick_kept (fun _ => .preempt) .sendMasked .own ⟨⟨hie, rfl⟩, rfl⟩

end

theorem MaskedEncoder.unchanged (h : MaskedEncoder s t) : history t = history s ∧ t.pos = s.pos := ⟨h.1.2, h.2⟩

/-- Settles O50: the interruptible operations one by one; the others have no preemption point inside. -/
theorem maskedOperationsRunNoHandler : Obligations.MaskedOperationsRunNoHandler := by
  unfold Obligations.MaskedOperationsRunNoHandler
  intro i s t hie he
  cases i
  case ctlTick =>
    obtain rfl := eq_tick_of_exec he
    obtain ⟨hhist, hpos⟩ := (maskedEncoder_tick hie).unchanged
    exact ⟨fun _ => hhist, fun _ _ _ => hpos⟩
  all_goals injection he with he; subst he
  case plTx =>
    obtain ⟨hhist, hpos⟩ := (maskedEncoder_transmit hie).unchanged
    exact ⟨fun _ => hhist, fun _ _ _ => hpos⟩
  case plLatch =>
    obtain ⟨hhist, hpos⟩ := (maskedEncoder_latch hie).unchanged
    exact ⟨fun _ => hhist, fun _ _ _ => hpos⟩
  case encEdge => exact ⟨fun hi => absurd rfl hi, fun hi => absurd rfl hi⟩
  case encCfg => exact ⟨fun _ => (maskedHistory_configure hie ..).2, fun _ _ hi => absurd rfl (hi _ _ _ _ _)⟩
  case ctlEntry => exact ⟨fun _ => (maskedHistory_entry hie).2, fun _ hi => absurd rfl hi⟩
  case plLoad | encGet | ctlRail | ctlAdv | sysCli | sysSei | envPins | envBtn => exact ⟨fun _ => rfl, fun _ _ _ => rfl⟩

end Sys2Proof.Machine

/-! Proof that a whole operation is a run of single turns (rules R81, R215, R225, R226; logs 2, 3, 31): each part of an operation leads
to its next preemption point, where the turns of the other agents follow their moves. -/

namespace Sys2Proof.Machine

variable {s t u x y : State} {c : List (List Move)} {q : Place}

/-! Runs of single turns. -/

/-- Some turns lead from `x` to `y`, and use up no turn listed after them. -/
def TurnsLead (x y : State) : Prop :=
  ∃ l : List Turn, ∀ rest, steps l.length (atPace (some (l ++ rest)) x) = some (atPace (some rest) y)

theorem TurnsLead.refl (x : State) : TurnsLead x x := ⟨[], fun _ => rfl⟩

theorem TurnsLead.trans (h : TurnsLead x y) (h' : TurnsLead y t) : TurnsLead x t := by
  obtain ⟨l, hl⟩ := h
  obtain ⟨l', hl'⟩ := h'
  refine ⟨l ++ l', fun rest => ?_⟩
  rw [List.length_append, List.append_assoc, steps_append _ _ _ _ (hl (l' ++ rest)), hl' rest]

/-- One turn of a running machine. -/
theorem TurnsLead.turn {a : Turn} (hh : halted x = false)
    (h : ∀ rest, takeTurn a (atPace (some rest) x) = .next (atPace (some rest) y)) : TurnsLead x y := by
  refine ⟨[a], fun rest => ?_⟩
  have hstep : step (atPace (some (a :: rest)) x) = .next (atPace (some rest) y) :=
    (step_single (s := atPace (some (a :: rest)) x) hh rfl).trans (h rest)
  simp [steps, hstep]

theorem takeTurn_own (s : State) : takeTurn .own s = ownTurn s := by
  unfold takeTurn
  cases s.seq <;> rfl

/-- The environment's turns, which it has outside script mode (rules R215, R217). -/
theorem takeTurn_environment (hw : ∀ k, s.seq ≠ .word k) :
    (∀ a b, takeTurn (.pins a b) s = .next (setPins a b s)) ∧ ∀ v, takeTurn (.btn v) s = .next (setBtn v s) := by
  unfold takeTurn
  cases hs : s.seq
  case word k => exact absurd hs (hw k)
  all_goals exact ⟨fun _ _ => rfl, fun _ => rfl⟩

theorem turnsLead_setPins (hh : halted x = false) (hw : ∀ k, x.seq ≠ .word k) (a b : Bool) : TurnsLead x (setPins a b x) :=
  .turn hh fun rest => (takeTurn_environment (s := atPace (some rest) x) hw).1 a b

theorem turnsLead_setBtn (hh : halted x = false) (hw : ∀ k, x.seq ≠ .word k) (v : Bool) : TurnsLead x (setBtn v x) :=
  .turn hh fun rest => (takeTurn_environment (s := atPace (some rest) x) hw).2 v

theorem handlerTurn_atPace (x : State) (l : Option (List Turn)) : handlerTurn (atPace l x) = atPace l (handlerTurn x) := by
  have h : takeInterrupt (atPace l x) = atPace l (takeInterrupt x) :=
    congrArg (returnFromHandler x.ie) (edge_atPace (enterHandler x) l)
  rw [handlerTurn, h]
  rfl

/-- The interrupt context's turn (rules R225, R227). -/
theorem turnsLead_handlerTurn (hh : halted x = false) (hd : dispatchEnabled x = true) : TurnsLead x (handlerTurn x) := by
  refine .turn (a := .own) hh fun rest => ?_
  have hd' : dispatchEnabled (atPace (some rest) x) = true := hd
  rw [takeTurn_own, ownTurn, if_pos hd', handlerTurn_atPace]

/-- Main context's turn, where no dispatch is enabled (rule R225). -/
theorem turnsLead_mainPart (hh : halted x = false) (hd : dispatchEnabled x = false)
    (h : ∀ rest, mainPart (atPace (some rest) x) = .next (atPace (some rest) y)) : TurnsLead x y := by
  refine .turn (a := .own) hh fun rest => ?_
  have hd' : dispatchEnabled (atPace (some rest) x) = false := hd
  rw [takeTurn_own, ownTurn, if_neg (by simp [hd']), h]

/-- After a part of an operation SEQ moves when that was the last part (rule R228). -/
def onward (s : State) : State := moveSeq s.seq.after s

theorem Records.seq (h : Records s t) : t.seq = s.seq := by
  obtain ⟨u, hu, rfl | ⟨k, rfl⟩⟩ := h
  · exact hu.seq
  · exact hu.seq

/-- Main context's turn from a place inside an operation. -/
theorem turnsLead_resume (hh : halted x = false) (hd : dispatchEnabled x = false) (hp : x.place ≠ .between) :
    TurnsLead x (onward (resume x)) := by
  refine turnsLead_mainPart hh hd fun rest => ?_
  have hseq : (resume x).seq = x.seq := (records_resume x).seq
  have hp' : (atPace (some rest) x).place ≠ .between := hp
  rw [mainPart, if_neg hp', resume_atPace, onward, hseq]
  rfl

/-! The moves of the other agents at a place. -/

/-- The state of a whole operation as single turns see it: main context at this place, the schedule not read. -/
@[simps] def inside (c : List (List Move)) (q : Place) (s : State) : State := { s with sched := c, place := q }

/-- The place after a preemption point where a handler has run or not. -/
def Place.heard (q : Place) (ran : Bool) : Place := if ran then q.afterHandler else q

theorem Place.afterHandler_heard (q : Place) (ran : Bool) : (q.heard ran).afterHandler = q.heard true := by
  cases ran <;> cases q <;> rfl

theorem Place.heard_of_quiet (q : Place) (h : q.afterHandler = q) (ran : Bool) : q.heard ran = q := by
  cases ran
  · rfl
  · exact h

theorem edge_inside (c : List (List Move)) (q : Place) (s : State) : edge (inside c q s) = inside c q (edge s) := by
  unfold inside edge sample
  dsimp only
  split_ifs <;> rfl

theorem takeInterrupt_inside (c : List (List Move)) (q : Place) (s : State) :
    takeInterrupt (inside c q s) = inside c q (takeInterrupt s) :=
  congrArg (returnFromHandler s.ie) (edge_inside c q (enterHandler s))

/-- A dispatch at a place (rules R225, R227). -/
theorem turnsLead_dispatch (hh : halted s = false) (hd : dispatchEnabled s = true) (ran : Bool) :
    TurnsLead (inside c (q.heard ran) s) (inside c (q.heard true) (takeInterrupt s)) := by
  have h := turnsLead_handlerTurn (x := inside c (q.heard ran) s) hh hd
  rw [handlerTurn, takeInterrupt_inside, inside_place, q.afterHandler_heard] at h
  exact h

/-- A batch of moves is a run of turns, an idle handler's of none (rule R215). -/
theorem turnsLead_moves (ms : List Move) : ∀ x : State × Bool, halted x.1 = false → (∀ k, x.1.seq ≠ .word k) →
    TurnsLead (inside c (q.heard x.2) x.1) (inside c (q.heard (ms.foldl applyMove x).2) (ms.foldl applyMove x).1) := by
  induction ms with
  | nil => exact fun x _ _ => .refl _
  | cons m ms ih =>
    rintro ⟨s, ran⟩ hh hw
    rw [List.foldl_cons]
    cases m with
    | pins a b => exact (turnsLead_setPins (x := inside c _ s) hh hw a b).trans (ih (setPins a b s, ran) hh hw)
    | btn v => exact (turnsLead_setBtn (x := inside c _ s) hh hw v).trans (ih (setBtn v s, ran) hh hw)
    | handler =>
      rw [applyMove]
      split
      · rename_i hd
        exact (turnsLead_dispatch hh hd ran).trans
          (ih (takeInterrupt s, true) (by simpa using hh) (by simpa using hw))
      · exact ih (s, ran) hh hw

theorem turnsLead_othersMove (hh : halted s = false) :
    TurnsLead (inside c q s) (inside c (q.heard (othersMove s).2) (othersMove s).1) := by
  unfold othersMove
  split
  · exact .refl _
  · rename_i hw
    split
    · exact .refl _
    · rename_i batch rest _
      exact turnsLead_moves (c := c) (q := q) batch ({ s with sched := rest }, false) hh hw

/-- A preemption point is a run of turns (rules R225, R226). -/
theorem turnsLead_preempt (hh : halted s = false) :
    TurnsLead (inside c q s) (inside c (q.heard (preemptRan s).2) (preempt s)) := by
  refine (turnsLead_othersMove hh).trans ?_
  unfold preempt preemptRan
  dsimp only
  split
  · rename_i hd
    exact turnsLead_dispatch ((halted_othersMove s).trans hh) hd _
  · exact .refl _

/-- From a place inside an operation: the preemption point, then main context's next part. -/
theorem TurnsLead.through (hq : q ≠ .between) (hh : halted s = false)
    (h : TurnsLead (onward (resume (inside c (q.heard (preemptRan s).2) (preempt s)))) t) :
    TurnsLead (onward (inside c q s)) t := by
  have hq' : q.heard (preemptRan s).2 ≠ .between := by
    cases (preemptRan s).2
    · exact hq
    · cases q <;> simp_all [Place.heard, Place.afterHandler]
  rw [onward, moveSeq_inside (s := inside c q s) hq]
  exact ((turnsLead_preempt hh).trans
    (turnsLead_resume (x := inside c _ (preempt s)) ((halted_preempt s).trans hh) (preempt_quiet s) hq')).trans h

/-- The same where a handler run leaves the place as it is. -/
theorem TurnsLead.through_quiet (hq : q ≠ .between) (hquiet : q.afterHandler = q) (hh : halted s = false)
    (h : TurnsLead (onward (resume (inside c q (preempt s)))) t) : TurnsLead (onward (inside c q s)) t := by
  refine .through hq hh ?_
  rw [q.heard_of_quiet hquiet]
  exact h

/-! Lists of steps cut at their preemption points (rule R226): configure's writes, SHOW's loads and the bits of a masked run. -/

/-- The parts `part` do the steps `f` of a list one by one, stand at the place `pl` before each but the first, and end with `fin`. -/
structure CutsSteps {α : Type} (c : List (List Move)) (f : α → State → State) (part : List α → State → State)
    (pl : List α → Place) (fin : State → State) : Prop where
  last : ∀ a q s, part [a] (inside c q s) = fin (f a s)
  next : ∀ a b l q s, part (a :: b :: l) (inside c q s) = inside c (pl (b :: l)) (f a s)
  place : ∀ l, pl l ≠ .between
  quiet : ∀ l, (pl l).afterHandler = pl l
  resume : ∀ l s, resume (inside c (pl l) s) = part l (inside c (pl l) s)
  running : ∀ a s, halted (f a s) = halted s

theorem CutsSteps.turnsLead {α : Type} {f : α → State → State} {part : List α → State → State} {pl : List α → Place}
    {fin : State → State} (h : CutsSteps c f part pl fin) {l : List α} (hl : l ≠ []) (hh : halted s = false) :
    TurnsLead (onward (part l (inside c q s))) (onward (fin (mainSteps (l.map f) s))) := by
  obtain ⟨a, l, rfl⟩ := List.exists_cons_of_ne_nil hl
  clear hl
  induction l generalizing a q s with
  | nil => rw [h.last]; exact .refl _
  | cons b l ih =>
    rw [h.next]
    refine .through_quiet (h.place _) (h.quiet _) ((h.running a s).trans hh) ?_
    rw [h.resume]
    exact ih ((halted_preempt _).trans ((h.running a s).trans hh)) b

theorem cutsSteps_configure (min max step init : Int) (w : Bool) :
    CutsSteps c (cfgWrite min max step init w) (fun l => cfgStep l min max step init w)
      (fun l => .configuring l min max step init w) (inside c .between) where
  last r q s := by cases r <;> rfl
  next r r' l q s := by cases r <;> rfl
  place _ := nofun
  quiet _ := rfl
  resume _ _ := rfl
  running r s := by cases r <;> rfl

theorem cutsSteps_loads : CutsSteps c (fun e : Fin 8 × Pixel => load e.1 e.2) loadStep .loading (inside c .loaded) where
  last _ _ _ := rfl
  next _ _ _ _ _ := rfl
  place _ := nofun
  quiet _ := rfl
  resume _ _ := rfl
  running _ _ := rfl

theorem unmask_inside (later : List Pixel) (saved shown : Bool) (c : List (List Move)) (q q' : Place) (s : State) :
    unmask later saved shown (inside c q s) = unmask later saved shown (inside c q' s) := by
  unfold unmask
  split <;> rfl

theorem cutsSteps_bits (later : List Pixel) (saved shown : Bool) :
    CutsSteps c (fun b => emit (bitSymbol b)) (fun l => bitStep l later saved shown) (fun l => .sending l later saved shown)
      (fun s => unmask later saved shown (inside c .between s)) where
  last b q s := unmask_inside later saved shown c q .between (emit (bitSymbol b) s)
  next _ _ _ _ _ := rfl
  place _ := nofun
  quiet _ := rfl
  resume _ _ := rfl
  running _ _ := rfl

/-! The operations with preemption points inside. -/

theorem turnsLead_configure (min max step init : Int) (w : Bool) (hh : halted s = false) :
    TurnsLead (onward (startCfg min max step init w (inside c q s))) (onward (inside c .between (configure min max step init w s))) :=
  (cutsSteps_configure min max step init w).turnsLead (by simp [CfgOrder.writes]) hh

/-- The place after PL.TX, which SHOW may have called. -/
def txEnd (shown : Bool) : Place := if shown then .sent else .between

/-- A masked run of bit steps: after the last pixel PL.TX ends, else the point between two pixels follows (rules R124, R127). -/
def runEnd (c : List (List Move)) (later : List Pixel) (shown : Bool) (s : State) : State :=
  if later = [] then inside c (txEnd shown) { s with lowed := true } else inside c (.gap false later shown) s

theorem unmask_eq_runEnd (c : List (List Move)) (later : List Pixel) (saved shown : Bool) (s : State) :
    unmask later saved shown (inside c q s) = runEnd c later shown (setIe saved s) := by
  unfold unmask runEnd
  split <;> rfl

theorem turnsLead_startBits {bits : List Bool} (hb : bits ≠ []) (later : List Pixel) (shown : Bool) (hh : halted s = false) :
    TurnsLead (onward (startBits bits later shown (inside c q s))) (onward (runEnd c later shown (sendMasked bits s))) := by
  have h := (cutsSteps_bits (c := c) later s.ie shown).turnsLead (q := q) (s := setIe false s) hb hh
  rw [unmask_eq_runEnd] at h
  exact h

theorem halted_sendMasked {bits : List Bool} (hb : bits ≠ []) (s : State) : halted (sendMasked bits s) = halted s :=
  (sendMasked_envOnly hb s).toOthers.extends.halted_eq

theorem halted_pixelGap (s : State) : halted (pixelGap s) = halted s := by
  unfold pixelGap
  dsimp only
  split <;> exact halted_preempt s

/-- The point between two pixels leaves the marker that the place has taken note of (rule R127). -/
theorem resume_gap (later : List Pixel) (w : Pixel) (shown : Bool) (s : State) :
    resume (inside c ((Place.gap false (w :: later) shown).heard (preemptRan s).2) (preempt s)) =
      startBits (pixelBits w) later shown
        (inside c ((Place.gap false (w :: later) shown).heard (preemptRan s).2) (pixelGap s)) := by
  unfold pixelGap preempt
  obtain ⟨t, ran⟩ := preemptRan s
  cases ran <;> rfl

theorem sendPixels_cons_cons (w v : Pixel) (ws : List Pixel) (s : State) :
    sendPixels (w :: v :: ws) s = sendPixels (v :: ws) (pixelGap (sendMasked (pixelBits w) s)) := by
  simp only [sendPixels, List.foldl_cons]

/-- The pixels of a frame, each masked on its own (rule R127). -/
theorem turnsLead_pixels (ws : List Pixel) (shown : Bool) : ∀ (w : Pixel) (q : Place) (s : State), halted s = false →
    TurnsLead (onward (startBits (pixelBits w) ws shown (inside c q s)))
      (onward (inside c (txEnd shown) { sendPixels (w :: ws) s with lowed := true })) := by
  induction ws with
  | nil => exact fun w q s hh => turnsLead_startBits (pixelBits_ne_nil w) [] shown hh
  | cons v ws ih =>
    intro w q s hh
    have hrun : halted (sendMasked (pixelBits w) s) = false := (halted_sendMasked (pixelBits_ne_nil w) s).trans hh
    refine (turnsLead_startBits (pixelBits_ne_nil w) (v :: ws) shown hh).trans (.through nofun hrun ?_)
    rw [resume_gap, sendPixels_cons_cons]
    exact ih v _ _ ((halted_pixelGap _).trans hrun)

theorem turnsLead_sendFrame (shown : Bool) (hh : halted s = false) (hl : s.lowed = false) (hw : frameWritten s = true) :
    TurnsLead (onward (startTx shown (inside c q s))) (onward (inside c (txEnd shown) { sendFrame s with lowed := true })) := by
  rw [startTx_written (s := inside c q s) shown hl hw, inside_params]
  unfold sendFrame
  cases s.params.maskScope with
  | frame => exact turnsLead_startBits (frameBits_ne_nil s.fb) [] shown hh
  | pixel =>
    dsimp only
    rw [inside_fb, fb_toList]
    exact turnsLead_pixels _ shown _ _ s hh

/-- The place an operation leaves main context at when it came to its end or to a fault. -/
def Flow.placed (x : Flow) (q : Place) : Place :=
  match x with
  | .done _ => q
  | .faulted _ => .between

theorem Flow.placed_between (x : Flow) : x.placed (txEnd false) = .between := by cases x <;> rfl

theorem turnsLead_transmit (shown : Bool) (hh : halted s = false) :
    TurnsLead (onward (startTx shown (inside c q s)))
      (onward (inside c ((transmit s).placed (txEnd shown)) (transmit s).state)) := by
  cases hl : s.lowed with
  | true =>
    rw [transmit_latchMissing hl, startTx_latchMissing (s := inside c q s) shown hl]
    exact .refl _
  | false =>
    cases hw : frameWritten s with
    | false =>
      rw [transmit_unwritten hl hw, startTx_unwritten (s := inside c q s) shown hl hw]
      exact .refl _
    | true =>
      rw [transmit_done hl hw]
      exact turnsLead_sendFrame shown hh hl hw

theorem turnsLead_latch (hh : halted s = false) :
    TurnsLead (onward (startLatch (inside c q s))) (onward (inside c .between (latch s))) :=
  .through_quiet (q := .latching) (s := { s with dout := false }) nofun rfl hh (.refl _)

theorem turnsLead_loads (pix : Fin 8 → Rgb) (hh : halted s = false) :
    TurnsLead (onward (loadStep (pixelIndices.map fun i => (i, pixelWord (pix i))) (inside c q s)))
      (onward (inside c .loaded (mainSteps (pixelIndices.map fun i => load i (pixelWord (pix i))) s))) := by
  have hne : (pixelIndices.map fun i => (i, pixelWord (pix i))) ≠ [] := by simp [pixelIndices]
  have h := cutsSteps_loads.turnsLead (c := c) (q := q) hne hh
  rw [List.map_map] at h
  exact h

/-- SHOW from its first load on (rule R172). -/
theorem turnsLead_render (pix : Fin 8 → Rgb) (hh : halted s = false) :
    TurnsLead (onward (loadStep (pixelIndices.map fun i => (i, pixelWord (pix i))) (inside c q s)))
      (onward (inside c .between (render pix s).state)) := by
  refine (turnsLead_loads pix hh).trans ?_
  unfold render
  have hloads := (extends_loads pix s).halted_eq.trans hh
  generalize mainSteps _ s = u at hloads
  have hu := (halted_preempt u).trans hloads
  refine .through_quiet nofun rfl hloads ((turnsLead_transmit true hu).trans ?_)
  obtain ⟨v, e, hv⟩ | ⟨k, e⟩ := transmit_cases (preempt u) <;> rw [e]
  · have hv := hv.halted_eq.trans hu
    exact .through_quiet (s := v) nofun rfl hv (turnsLead_latch ((halted_preempt v).trans hv))
  · exact .refl _

theorem tickEnd_inside (v : Reg8) (c : List (List Move)) (q : Place) (s : State) :
    tickEnd v (inside c q s) = (inside c q (tickEnd v s).1, (tickEnd v s).2) := by
  unfold tickEnd whiteEnd animateEnd solidEnd
  rw [inside_state]
  cases s.state
  case animate => dsimp only; rw [inside_acnt]; split_ifs <;> rfl
  all_goals rfl

/-- A tick that reads the position is one operation, with the lines its Controller state gives it (rules R180, R182 to R184). -/
theorem tick_eq_readTick (h : s.state ≠ .off) : tick s = readTick tickEnd s := by
  have hs : (preempt (get s)).state = s.state := preempt_state _
  unfold tick tickWhite tickAnimate tickSolid readTick tickEnd
  rw [hs]
  cases hc : s.state
  case off => exact absurd hc h
  all_goals rfl

theorem turnsLead_readTick (hh : halted s = false) :
    TurnsLead (onward (inside c (.read (position s)) (get s))) (onward (inside c .between (readTick tickEnd s).state)) := by
  refine .through_quiet nofun rfl hh ?_
  have hx := (extends_tickEnd (position s) (preempt (get s))).halted_eq.trans ((halted_preempt _).trans hh)
  show TurnsLead (onward (afterRead (position s) (inside c _ (preempt (get s))))) _
  unfold afterRead readTick
  rw [tickEnd_inside]
  generalize tickEnd (position s) (preempt (get s)) = x at hx
  obtain ⟨u, ending⟩ := x
  cases ending with
  | outOfDomain => exact .refl _
  | idle => exact .through_quiet (s := u) nofun rfl hx (.refl _)
  | shows pix => exact .through_quiet (s := u) nofun rfl hx (turnsLead_render pix ((halted_preempt u).trans hx))

theorem turnsLead_tick (hh : halted s = false) :
    TurnsLead (onward (startTick (inside c .between s))) (onward (inside c .between (tick s).state)) := by
  cases hs : s.state with
  | off =>
    have e : startTick (inside c .between s) = inside c .between (tick s).state := by
      unfold startTick tick
      rw [inside_state, hs]
      rfl
    rw [e]
    exact .refl _
  | white | animate | solid =>
    have e : startTick (inside c .between s) = inside c (.read (position s)) (get s) := by
      unfold startTick
      rw [inside_state, hs]
      rfl
    rw [e, tick_eq_readTick (by simp [hs])]
    exact turnsLead_readTick hh

theorem turnsLead_entry (hh : halted s = false) :
    TurnsLead (onward (startEntry (inside c .between s))) (onward (inside c .between (entry s))) := by
  unfold startEntry entry
  rw [inside_state]
  cases s.state with
  | off => exact .refl _
  | white =>
    exact .through_quiet (s := setRail true s) nofun rfl hh
      (turnsLead_configure 2 15 1 _ false ((halted_preempt _).trans hh))
  | animate => exact .refl _
  | solid => exact turnsLead_configure 0 48 1 _ true hh

/-- Every operation from its start: its parts lead to the state the whole operation leaves. -/
theorem turnsLead_exec {i : Instr} (hh : halted s = false) (he : exec i s = .next t) :
    ∃ y, start i (inside c .between s) = .next y ∧ TurnsLead (onward y) (onward (inside c .between t)) := by
  cases i
  case ctlTick =>
    have hb : tickBlocked s = false := by
      simp only [exec, execCtlTick] at he
      split_ifs at he with hb
      simpa using hb
    obtain rfl := eq_tick_of_exec he
    have hb' : ¬tickBlocked (inside c .between s) = true := by simpa [tickBlocked] using hb
    exact ⟨_, if_neg hb', turnsLead_tick hh⟩
  all_goals injection he with he; subst he
  case plTx =>
    refine ⟨_, rfl, ?_⟩
    have h := turnsLead_transmit (c := c) (q := .between) false hh
    rwa [(transmit s).placed_between] at h
  case plLatch => exact ⟨_, rfl, turnsLead_latch hh⟩
  case encCfg => exact ⟨_, rfl, turnsLead_configure _ _ _ _ _ hh⟩
  case ctlEntry => exact ⟨_, rfl, turnsLead_entry hh⟩
  case encEdge => exact ⟨_, rfl, by rw [edge_inside]; exact .refl _⟩
  case plLoad | encGet | ctlRail | ctlAdv | sysCli | sysSei | envPins | envBtn => exact ⟨_, rfl, .refl _⟩

/-! Main context's turn at its point, and the whole step. -/

/-- The operation that main context runs at its point, where it has one to run (rules R185, R187, R217). -/
def pointInstr (s : State) : Option Instr :=
  match s.seq with
  | .entry => some .ctlEntry
  | .tick => if tickBlocked s then none else some .ctlTick
  | .adv => some .ctlAdv
  | .word k => (s.program[k]?).bind fun w => (decode w).toOption
  | _ => none

/-- Main context's turn at a script's word that is there (rules R217, R222). -/
theorem scriptTurn_of_error {k : Nat} {w : CommandWord} {r : Invalid} (hw : s.program[k]? = some w) (hi : decode w = .error r)
    (run : Runner) : scriptTurn run k s = .next (refuse r s) := by
  simp [scriptTurn, hw, hi]

theorem scriptTurn_of_ok {k : Nat} {w : CommandWord} {i : Instr} (hw : s.program[k]? = some w) (hi : decode w = .ok i)
    (run : Runner) : scriptTurn run k s = thenSeq (.word (k + 1)) (run i s) := by
  simp [scriptTurn, hw, hi]

theorem mainTurn_of_pointInstr {i : Instr} (h : pointInstr s = some i) (run : Runner) :
    mainTurn run s = thenSeq s.seq.after (run i s) := by
  unfold pointInstr at h
  unfold mainTurn
  cases hs : s.seq
  all_goals simp only [hs] at h
  case entry => cases h; rfl
  case adv => cases h; rfl
  case tick =>
    dsimp only
    split_ifs at h ⊢
    cases h; rfl
  case word k =>
    obtain ⟨w, hw, hi⟩ := Option.bind_eq_some_iff.1 h
    cases hd : decode w with
    | error r => simp [hd, Except.toOption] at hi
    | ok j =>
      obtain rfl : j = i := by simpa [hd, Except.toOption] using hi
      exact scriptTurn_of_ok hw hd run
  all_goals cases h

theorem moveSeq_inside_between (hp : s.place = .between) (p : Point) :
    moveSeq p (inside c .between s) = inside c .between (moveSeq p s) := by
  simp [moveSeq, inside, halted, hp]

/-- Where it runs no operation, main context's turn is the same at both paces. -/
theorem mainTurn_of_pointInstr_none (h : pointInstr s = none) (hp : s.place = .between) {run : Runner}
    (he : mainTurn run s = .next t) (run' : Runner) (l : Option (List Turn)) :
    mainTurn run' (atPace l (inside c .between s)) = .next (atPace l (inside c .between t)) := by
  have hseq : (atPace l (inside c .between s)).seq = s.seq := rfl
  have hmove : ∀ p, moveSeq p (atPace l (inside c .between s)) = atPace l (inside c .between (moveSeq p s)) :=
    fun p => congrArg (atPace l) (moveSeq_inside_between hp p)
  unfold pointInstr at h
  unfold mainTurn at he ⊢
  rw [hseq]
  cases hs : s.seq
  all_goals simp only [hs] at h he ⊢
  case boot => cases he; rfl
  case poll | deb1 | deb2 => cases he; exact congrArg _ (hmove _)
  case wrel =>
    cases he
    show Host.Outcome.next (if s.pinBtn then _ else _) = _
    split
    · rfl
    · exact congrArg _ (hmove _)
  case tick =>
    split_ifs at h he with hb
    cases he
    exact if_pos hb
  case word k =>
    obtain ⟨w, hw, ⟨r, hi, rfl⟩ | ⟨i, u, hi, -, -⟩⟩ := scriptTurn_next he
    · exact scriptTurn_of_error (s := atPace l (inside c .between s)) hw hi run'
    · simp [hw, hi, Except.toOption] at h
  all_goals cases h

/-- Main context's turn at its point (rules R185, R217). -/
theorem turnsLead_mainTurn (hh : halted s = false) (hd : dispatchEnabled s = false) (hp : s.place = .between)
    (he : mainTurn exec s = .next t) : TurnsLead (inside c .between s) (inside c .between t) := by
  cases hi : pointInstr s with
  | none => exact turnsLead_mainPart (x := inside c .between s) hh hd fun rest => mainTurn_of_pointInstr_none hi hp he start _
  | some i =>
    rw [mainTurn_of_pointInstr hi] at he
    obtain ⟨u, hu, rfl⟩ := thenSeq_next he
    obtain ⟨y, hy, hlead⟩ := turnsLead_exec (c := c) hh hu
    have hyseq : y.seq = s.seq := (records_start hy).seq
    have huseq : u.seq = s.seq := (records_exec hu).seq
    have hstart : TurnsLead (inside c .between s) (onward y) := by
      refine turnsLead_mainPart (x := inside c .between s) hh hd fun rest => ?_
      have hi' : pointInstr (atPace (some rest) (inside c .between s)) = some i := hi
      refine (mainTurn_of_pointInstr hi' start).trans ?_
      rw [start_atPace i _ _ hy, onward, hyseq]
      rfl
    have hend : onward (inside c .between u) = inside c .between (moveSeq s.seq.after u) := by
      rw [onward, inside_seq, huseq, moveSeq_inside_between ((exec_place hu).1.trans hp)]
    exact hend ▸ hstart.trans hlead

theorem place_of_mainTurn_exec (hp : s.place = .between) (he : mainTurn exec s = .next t) : t.place = .between :=
  mainTurn_induct (P := fun u => u.place = .between) hp hp (fun _ => hp) (fun _ => hp)
    (fun _ _ _ _ hu => (exec_place hu).1.trans hp) he

/-- A step at the pace of whole operations: the moves at main context's point, then a dispatch or main context's turn
(rules R215, R225). -/
theorem turnsLead_step (hw : WholePace s) (he : step s = .next t) :
    t.place = .between ∧ TurnsLead (inside c .between s) (inside c .between t) := by
  obtain ⟨hh, ⟨-, u, rfl, hturn⟩ | ⟨hs, -⟩⟩ := step_next he
  · have hp : (othersMove s).1.place = .between := (othersMove_place s).trans hw.2
    have hrun : halted (othersMove s).1 = false := (halted_othersMove s).trans hh
    have hothers := turnsLead_othersMove (c := c) (q := .between) hh
    rw [Place.heard_of_quiet _ rfl] at hothers
    rcases hturn with ⟨hd, rfl⟩ | ⟨hd, he⟩
    · exact ⟨(takeInterrupt_place _).trans hp, hothers.trans (turnsLead_dispatch (q := .between) hrun hd false)⟩
    · exact ⟨place_of_mainTurn_exec hp he, hothers.trans (turnsLead_mainTurn hrun hd hp he)⟩
  · exact nomatch (singleTurns_false.2 hw).symm.trans hs

theorem inside_between (hp : s.place = .between) : inside c .between s = { s with sched := c } := by rw [inside, ← hp]

/-- Settles O18: the turns of a step (`turnsLead_step`), with none listed after them. -/
theorem wholeStepIsRunOfTurns : Obligations.WholeStepIsRunOfTurns := by
  unfold Obligations.WholeStepIsRunOfTurns
  intro s t hw he
  obtain ⟨hp, l, hl⟩ := turnsLead_step (c := s.sched) hw he
  have hrun := hl []
  rw [List.append_nil, inside_between hw.2, inside_between hp] at hrun
  exact ⟨l, hrun⟩

end Sys2Proof.Machine

/-! Proofs about command words: decoding and encoding are inverse, one row matches a word, and what a word that matches none does
(rules R96 to R106, R222). -/

namespace Sys2Proof

@[simp] theorem Op.op_assemble (o : Op) (w : CommandWord) : (o.assemble w).op = o := by cases o <;> rfl

/-- The word of an operation matches the operation's row (rules R97 to R102). -/
theorem accepts_encode (i : Instr) : i.op.accepts (encode i) = true := by
  cases i
  case plLoad idx px => exact accepts_wordPix rfl _ px
  case encCfg mn mx st ini w => exact accepts_wordCfg rfl mn mx st ini w
  case ctlRail v | envBtn v => exact accepts_wordLvl rfl v
  case envPins a b => exact accepts_wordPin rfl a b
  all_goals exact accepts_wordN

/-! Operands out of a word (rule R103). -/

/-- A field of a word is the value whose bits stand there. -/
theorem extractLsb'_eq_of_getLsbD {n low len : Nat} {w : BitVec n} {v : BitVec len}
    (h : ∀ i < len, w.getLsbD (low + i) = v.getLsbD i) : w.extractLsb' low len = v :=
  BitVec.eq_of_getLsbD_eq fun i hi => by rw [BitVec.getLsbD_extractLsb', h i hi, decide_eq_true hi, Bool.true_and]

theorem wordPix_idx (o : Op) (idx : BitVec 3) (px : Pixel) : (wordPix o idx px).extractLsb' 48 3 = idx := by
  refine extractLsb'_eq_of_getLsbD fun i hi => ?_
  rw [wordPix_getLsbD, if_neg (by omega), if_neg (by omega), if_pos (by omega), Nat.add_sub_cancel_left]

theorem wordPix_pixel (o : Op) (idx : BitVec 3) (px : Pixel) : (wordPix o idx px).extractLsb' 0 24 = px := by
  refine extractLsb'_eq_of_getLsbD fun i hi => ?_
  rw [wordPix_getLsbD, if_pos (by omega), Nat.zero_add]

/-- A field that holds the low 8 bits of an `int8` value reads as the value (rules R8, R103, R108). -/
theorem int8Field_eq {w : CommandWord} {low : Nat} {v : Int} (hv : InInt8 v)
    (h : ∀ i < 8, w.getLsbD (low + i) = (BitVec.ofInt 8 v).getLsbD i) : int8Field w low = v := by
  rw [int8Field, extractLsb'_eq_of_getLsbD h, Machine.toInt_ofInt8 hv]

section

variable (o : Op) {mn mx st ini : Int} (w : Bool)

theorem wordCfg_init (h : InInt8 ini) : int8Field (wordCfg o mn mx st ini w) 0 = ini :=
  int8Field_eq h fun i hi => by rw [wordCfg_getLsbD, if_pos (by omega), Nat.zero_add]

theorem wordCfg_step (h : InInt8 st) : int8Field (wordCfg o mn mx st ini w) 8 = st :=
  int8Field_eq h fun i hi => by rw [wordCfg_getLsbD, if_neg (by omega), if_pos (by omega), Nat.add_sub_cancel_left]

theorem wordCfg_max (h : InInt8 mx) : int8Field (wordCfg o mn mx st ini w) 16 = mx :=
  int8Field_eq h fun i hi => by
    rw [wordCfg_getLsbD, if_neg (by omega), if_neg (by omega), if_pos (by omega), Nat.add_sub_cancel_left]

theorem wordCfg_min (h : InInt8 mn) : int8Field (wordCfg o mn mx st ini w) 24 = mn :=
  int8Field_eq h fun i hi => by
    rw [wordCfg_getLsbD, if_neg (by omega), if_neg (by omega), if_neg (by omega), if_pos (by omega), Nat.add_sub_cancel_left]

theorem wordCfg_wrap : (wordCfg o mn mx st ini w).getLsbD 32 = w := by rw [wordCfg_getLsbD]; rfl

end

/-- A configure is well formed when its four arguments are `int8` values (rule R104). -/
theorem wellFormed_encCfg_iff {mn mx st ini : Int} {w : Bool} : (Instr.encCfg mn mx st ini w).wellFormed = true ↔
    InInt8 mn ∧ InInt8 mx ∧ InInt8 st ∧ InInt8 ini := by
  simp only [Instr.wellFormed, Bool.and_eq_true, decide_eq_true_eq, and_assoc]

/-- The operands come out of the word of a well-formed operation as they went in (rules R103, R104). -/
theorem assemble_encode {i : Instr} (h : i.wellFormed = true) : i.op.assemble (encode i) = i := by
  cases i
  case plLoad idx px =>
    simp only [Instr.op, Op.assemble, encode, wordPix_idx, wordPix_pixel]
  case encCfg mn mx st ini w =>
    obtain ⟨hmin, hmax, hstep, hinit⟩ := wellFormed_encCfg_iff.1 h
    simp only [Instr.op, Op.assemble, encode, wordCfg_min _ _ hmin, wordCfg_max _ _ hmax, wordCfg_step _ _ hstep, wordCfg_init _ _ hinit,
      wordCfg_wrap _ w]
  case ctlRail v | envBtn v => simp only [Instr.op, Op.assemble, encode, wordLvl_getLsbD, if_true]
  case envPins a b =>
    simp only [Instr.op, Op.assemble, encode, wordPin_getLsbD, one_ne_zero, if_true, if_false]
  all_goals rfl

/-- Settles O1: the word matches the operation's row (`accepts_encode`), which gives its operands back (`assemble_encode`). -/
theorem decodeOfEncode : Obligations.DecodeOfEncode := by
  unfold Obligations.DecodeOfEncode
  intro i hi
  rw [decode_of_accepts (accepts_encode i), assemble_encode hi]

/-- Two words that match a row are one word when their operand bits agree (rule R102). -/
theorem eq_of_accepts {o : Op} {w w' : CommandWord} (h : o.accepts w = true) (h' : o.accepts w' = true)
    (hfields : ∀ i < 64, o.format.mask.getLsbD i = false → w.getLsbD i = w'.getLsbD i) : w = w' := by
  refine BitVec.eq_of_getLsbD_eq fun i hi => ?_
  cases hm : o.format.mask.getLsbD i with
  | true => rw [(accepts_iff o w).1 h i hi hm, (accepts_iff o w').1 h' i hi hm]
  | false => exact hfields i hi hm

/-- A bit of a word, read in a field that holds it. -/
theorem extractLsb'_getLsbD_sub (w : CommandWord) {low len i : Nat} (hlow : low ≤ i) (hlen : i < low + len) :
    (w.extractLsb' low len).getLsbD (i - low) = w.getLsbD i := by
  rw [BitVec.getLsbD_extractLsb', decide_eq_true (by omega), Bool.true_and, Nat.add_sub_cancel' hlow]

/-- Reading a word's operands and writing them again gives the operand bits of the word back (rules R97 to R101, R103). -/
theorem encode_assemble_getLsbD (o : Op) (w : CommandWord) {i : Nat} (hi : i < 64) (hm : o.format.mask.getLsbD i = false) :
    (encode (o.assemble w)).getLsbD i = w.getLsbD i := by
  rw [mask_getLsbD _ hi] at hm
  cases o
  all_goals simp only [Op.format, decide_eq_false_iff_not] at hm
  case plLoad =>
    simp only [Op.assemble, encode, wordPix_getLsbD, BitVec.ofFin_toFin]
    rcases Nat.lt_or_ge i 24 with hpixel | hidx
    · rw [if_pos hpixel]
      exact extractLsb'_getLsbD_sub w (Nat.zero_le i) (by omega)
    · rw [if_neg (by omega), if_neg (by omega), if_pos (by omega)]
      exact extractLsb'_getLsbD_sub w (by omega) (by omega)
  case encCfg =>
    simp only [Op.assemble, encode, wordCfg_getLsbD, int8Field, BitVec.ofInt_toInt]
    split_ifs with hinit hstep hmax hmin hwrap
    · exact extractLsb'_getLsbD_sub w (Nat.zero_le i) (by omega)
    · exact extractLsb'_getLsbD_sub w (by omega) (by omega)
    · exact extractLsb'_getLsbD_sub w (by omega) (by omega)
    · exact extractLsb'_getLsbD_sub w (by omega) (by omega)
    · rw [hwrap]
    all_goals omega
  case ctlRail | envBtn =>
    obtain rfl : i = 0 := by omega
    simp only [Op.assemble, encode, wordLvl_getLsbD, if_true]
  case envPins =>
    obtain rfl | rfl : i = 0 ∨ i = 1 := by omega
    all_goals simp only [Op.assemble, encode, wordPin_getLsbD, one_ne_zero, if_true, if_false]
  all_goals exact nomatch hm

/-- An operation that a row assembles from a word it matches has that word (rules R102, R104). -/
theorem encode_assemble {o : Op} {w : CommandWord} (h : o.accepts w = true) : encode (o.assemble w) = w := by
  have hword : o.accepts (encode (o.assemble w)) = true := by simpa using accepts_encode (o.assemble w)
  exact eq_of_accepts hword h fun i hi hm => encode_assemble_getLsbD o w hi hm

/-- Settles O2: what decodes is the operation that the word's row assembles from it (`encode_assemble`). -/
theorem encodeOfDecode : Obligations.EncodeOfDecode := by
  unfold Obligations.EncodeOfDecode
  intro w i h
  refine ⟨Machine.wellFormed_of_decode h, ?_⟩
  obtain ⟨o, ho, rfl⟩ := accepts_of_decode h
  exact encode_assemble ho

/-- Settles O3: the row is the one with the word's opcode (`opcode_of_accepts`, `opcode_injective`). -/
theorem oneRowPerWord : Obligations.OneRowPerWord := by
  unfold Obligations.OneRowPerWord
  intro w o ho
  refine ⟨⟨o.assemble w, decode_of_accepts ho, o.op_assemble w⟩, fun o' ho' => opcode_injective o' o ?_⟩
  rw [← opcode_of_accepts ho', ← opcode_of_accepts ho]

theorem decode_of_unknown_opcode {w : CommandWord} (h : ∀ o : Op, o.opcode ≠ opcodeOf w) : decode w = .error .illegalOpcode := by
  rcases find_cases w with ⟨o, ho, -⟩ | ⟨-, hfind⟩
  · exact absurd ho.symm (h o)
  · rw [decode, hfind]

theorem decode_of_not_accepts {o : Op} {w : CommandWord} (hop : o.opcode = opcodeOf w) (h : o.accepts w = false) :
    decode w = .error .reservedBits := by
  rw [decode, ← hop, find_opcode o]
  exact if_neg (Bool.eq_false_iff.1 h)

end Sys2Proof

namespace Sys2Proof.Machine

/-- A script that runs into a word that decodes to a verdict records the verdict at the word and changes nothing else
(rules R217, R222). -/
theorem step_of_decode_error {s : State} {k : Nat} {w : CommandWord} {r : Invalid} (hrun : halted s = false) (hpace : WholePace s)
    (hd : dispatchEnabled s = false) (hk : s.seq = .word k) (hw : s.program[k]? = some w) (hr : decode w = .error r) :
    step s = .next { s with refused := some (r, .word k) } := by
  have hmain : mainTurn exec s = scriptTurn exec k s := by rw [mainTurn, hk]
  rw [step_whole hrun hpace, othersMove_word hk, agentTurn, hd, if_neg Bool.false_ne_true, hmain, scriptTurn_of_error hw hr, refuse, hk]

/-- Settles O4: the decoder's three answers, by opcode and reserved bits, and the step on a word with a verdict
(`step_of_decode_error`). -/
theorem invalidWordsRefuse : Obligations.InvalidWordsRefuse := by
  unfold Obligations.InvalidWordsRefuse
  refine fun w => ⟨decode_of_unknown_opcode, fun o hop hne => ?_, fun o _ heq => ?_, fun s k r => step_of_decode_error⟩
  · exact decode_of_not_accepts hop (beq_eq_false_iff_ne.2 hne)
  · exact ⟨o.assemble w, decode_of_accepts (beq_iff_eq.2 heq), o.op_assemble w⟩

end Sys2Proof.Machine

namespace Sys2Proof

/-- Settles O5: the decoder run on each word. -/
theorem writtenWordsDecode : Obligations.WrittenWordsDecode := by
  unfold Obligations.WrittenWordsDecode
  decide

end Sys2Proof

/-! Proofs about the wire: the layout of a pixel word, the shapes of the bits, and what PL.TX and PL.LATCH send and show
(rules R91 to R93, R121 to R129). -/

namespace Sys2Proof.Machine

theorem pixelBits_getElem? (w : Pixel) {j : Nat} (hj : j < 24) : (pixelBits w)[j]? = some (w.getLsbD (23 - j)) := by
  rw [pixelBits, List.getElem?_map, List.getElem?_range hj, Option.map_some]

/-! The three bytes of a pixel word (rule R91). -/

theorem pixelWord_green (c : Rgb) : (pixelWord c).extractLsb' 16 8 = c.g :=
  extractLsb'_eq_of_getLsbD fun i hi => by
    rw [pixelWord_getLsbD, if_neg (by omega), if_neg (by omega), Nat.add_sub_cancel_left]

theorem pixelWord_red (c : Rgb) : (pixelWord c).extractLsb' 8 8 = c.r :=
  extractLsb'_eq_of_getLsbD fun i hi => by
    rw [pixelWord_getLsbD, if_neg (by omega), if_pos (by omega), Nat.add_sub_cancel_left]

theorem pixelWord_blue (c : Rgb) : (pixelWord c).extractLsb' 0 8 = c.b :=
  extractLsb'_eq_of_getLsbD fun i hi => by rw [pixelWord_getLsbD, if_pos (by omega), Nat.zero_add]

/-- Settles O6: the three bytes, the bits in wire order (`pixelBits_getElem?`), and the rule's example evaluated. -/
theorem pixelWordLayout : Obligations.PixelWordLayout := by
  unfold Obligations.PixelWordLayout
  refine ⟨fun c => ⟨pixelWord_green c, pixelWord_red c, pixelWord_blue c, fun j hj => pixelBits_getElem? _ hj⟩, ?_⟩
  decide

/-- Any three lengths in order are the bit times of a timing (rule R11). -/
theorem exists_timing {a b c : Nat} (ha : 0 < a) (hab : a < b) (hbc : b < c) : ∃ t : Timing, t.t0H = a ∧ t.t1H = b ∧ t.tBit = c := by
  refine ⟨⟨⟨a, ha⟩, ⟨b - a, Nat.sub_pos_of_lt hab⟩, ⟨c - b, Nat.sub_pos_of_lt hbc⟩, 1, 1, 1⟩, rfl, ?_, ?_⟩
  · exact Nat.add_sub_cancel' hab.le
  · show a + (b - a) + (c - b) = c
    omega

/-- Settles O7: the waveform of each bit value, and the lengths between three given times (`exists_timing`). -/
theorem bitShapesTakeOnePeriod : Obligations.BitShapesTakeOnePeriod := by
  unfold Obligations.BitShapesTakeOnePeriod
  refine ⟨fun t => ⟨t.bounds, ?_⟩, fun a b c => exists_timing⟩
  obtain ⟨h0, h1, hbit⟩ := t.bounds
  rintro x (rfl | rfl)
  · exact ⟨t.t0H, t.tBit - t.t0H, rfl, h0, by omega, by omega, fun _ => rfl, nofun⟩
  · exact ⟨t.t1H, t.tBit - t.t1H, rfl, by omega, by omega, by omega, nofun, fun _ => rfl⟩

variable {s t : State}

/-- PL.TX of a written frame with no latch owed sends it and sets LOWED (rule R124). -/
theorem exec_plTx_of_written (hl : s.lowed = false) (hw : ∀ i : Fin 8, s.fbw[i] = true) :
    exec .plTx s = .next { sendFrame s with lowed := true } := by
  show Host.Outcome.next (transmit s).state = _
  rw [transmit_done hl ((frameWritten_iff s).2 hw)]
  rfl

/-- With interrupts masked nothing at a preemption point clears a pending flag (rules R41, R225). -/
theorem pending_preempt (h : s.ie = false ∧ s.ipend = true) : (preempt s).ie = false ∧ (preempt s).ipend = true :=
  preempt_induct (P := fun t => t.ie = false ∧ t.ipend = true)
    (fun a b t ht => ⟨ht.1, by simp [pendingAfter, ht.2]⟩) (fun _ _ ht => ht)
    (fun t ht hd => by simp [dispatchEnabled, ht.1] at hd) (fun _ _ ht => ht) h

/-- Masked bit steps leave a pending flag set (rules R82, R126). -/
theorem pending_sendMasked (bits : List Bool) (h : s.ipend = true) : (sendMasked bits s).ipend = true := by
  refine (mainSteps_induct (P := fun t => t.ie = false ∧ t.ipend = true) ?_ (fun _ => pending_preempt) ⟨setIe_ie false s, h⟩).2
  intro f hf t ht
  obtain ⟨b, -, rfl⟩ := List.mem_map.1 hf
  exact ht

section

variable (hm : s.params.maskScope = .frame)
include hm

/-- Under MASK_SCOPE = FRAME the whole frame is one masked run (rule R126). -/
theorem sendFrame_of_frame : sendFrame s = sendMasked (frameBits s.fb) s := by rw [sendFrame, hm]

/-- In script mode a frame under MASK_SCOPE = FRAME changes the wire and the line only (rules R93, R217). -/
theorem sendFrame_script {k : Nat} (hk : s.seq = .word k) :
    sendFrame s = { s with wire := s.wire ++ frameSymbols s.fb, dout := false } := by
  rw [sendFrame_of_frame hm, sendMasked_script (frameBits_ne_nil s.fb) hk, frameSymbols_eq_bits]

end

/-- Settles O26: the wire and the frame are those of the bit steps (`sendFrame_othersOnly`), which leave a pending flag
(`pending_sendMasked`) and, in script mode, everything else (`sendFrame_script`). -/
theorem transmitSendsTheFrame : Obligations.TransmitSendsTheFrame := by
  unfold Obligations.TransmitSendsTheFrame
  intro s hm hl hw
  have henv := (sendFrame_othersOnly s).2 hm
  refine ⟨_, exec_plTx_of_written hl hw, henv.wire, ?_, fun hp => ?_, fun ⟨k, hk⟩ => ?_⟩
  · exact { henv with wire := rfl, lowed := rfl }
  · show (sendFrame s).ipend = true
    rw [sendFrame_of_frame hm]
    exact pending_sendMasked _ hp
  · dsimp only
    rw [sendFrame_script hm hk]

@[simp] theorem latch_wire (s : State) : (latch s).wire = s.wire ++ [.latch] := (latch_othersOnly s).wire

@[simp] theorem latch_rail (s : State) : (latch s).rail = s.rail := (latch_othersOnly s).rail

theorem latch_displayed (s : State) : (latch s).displayed = displayAtLatch s.rail (segment s.wire) s.displayed :=
  (latch_othersOnly s).displayed

/-- With the rail on, a latch that ends a frame shows the frame (rule R129). -/
theorem latch_shows_frame (hr : s.rail = true) {fb : Vector Pixel 8} (hseg : segment s.wire = frameSymbols fb) :
    (latch s).displayed = some fb.toList := by
  have hne : frameSymbols fb ≠ [] := List.ne_nil_of_length_pos (by rw [frameSymbols_length]; decide)
  rw [latch_displayed, displayAtLatch, hr, hseg, if_neg (by decide), if_neg hne, frameOf_symbols]

/-- With the rail on, a latch that ends an empty segment keeps what is shown (rule R129, conflict C16). -/
theorem latch_keeps_display (hr : s.rail = true) (hseg : segment s.wire = []) : (latch s).displayed = s.displayed := by
  rw [latch_displayed, displayAtLatch, hr, hseg, if_neg (by decide), if_pos rfl]

/-- With the rail off, a latch shows nothing specified (rule R129). -/
theorem latch_dark (hr : s.rail = false) : (latch s).displayed = none := by
  rw [latch_displayed, displayAtLatch, hr, if_pos (by decide)]

theorem latch_segment (s : State) : segment (latch s).wire = [] := by rw [latch_wire, segment_latch]

/-- Settles O30: PL.TX leaves one frame in the segment (`transmitSendsTheFrame`), which the latch shows (`latch_shows_frame`);
the second latch ends an empty segment (`latch_segment`). -/
theorem latchedFrameIsDisplayed : Obligations.LatchedFrameIsDisplayed := by
  unfold Obligations.LatchedFrameIsDisplayed
  intro s hm hl hw hseg
  obtain ⟨t, ht, hwire, henv, -, -⟩ := transmitSendsTheFrame s hm hl hw
  have hrail : t.rail = s.rail := henv.rail
  have hframe : segment t.wire = frameSymbols s.fb := by
    rw [hwire, segment_append fun x hx => frameSymbols_ne_latch x hx, hseg, List.nil_append]
  refine ⟨t, latch t, latch (latch t), ht, rfl, rfl, fun hon => ⟨?_, ?_⟩, fun hoff => ?_⟩
  · exact latch_shows_frame (hrail.trans hon) hframe
  · exact latch_keeps_display ((latch_rail t).trans (hrail.trans hon)) (latch_segment t)
  · exact latch_dark (hrail.trans hoff)

end Sys2Proof.Machine

/-! Proofs about the edges of one detent (rules R94, R142 to R150). -/

namespace Sys2Proof.Machine

variable {s t : State} {p : Int} {la lb leq : Bool}

/-- `t` has the Encoder's bounds and step of `s`, with this position and edge history. -/
structure EncoderAt (s : State) (p : Int) (h : Bool × Bool × Bool) (t : State) : Prop where
  imin : t.imin = s.imin
  imax : t.imax = s.imax
  encStep : t.encStep = s.encStep
  pos : t.pos.toInt = p
  hist : history t = h

theorem EncoderAt.refl (s : State) : EncoderAt s s.pos.toInt (history s) s := ⟨rfl, rfl, rfl, rfl, rfl⟩

/-- Line changes that bring A to its recorded level are no step (rule R143). -/
theorem EncoderAt.edge_same_a (h : EncoderAt s p (la, lb, leq) t) (b : Bool) :
    EncoderAt s p (la, lb, leq) (edge (setPins la b t)) := by
  have hla : t.la = la := congrArg Prod.fst h.hist
  rw [edge_of_same_a (s := setPins la b t) hla.symm]
  exact ⟨h.imin, h.imax, h.encStep, h.pos, h.hist⟩

/-- With A away from its record and B at its own, the handler records A only (rule R149). -/
theorem EncoderAt.edge_same_b (h : EncoderAt s p (la, lb, leq) t) {a : Bool} (ha : a ≠ la) :
    EncoderAt s p (a, lb, leq) (edge (setPins a lb t)) := by
  obtain ⟨himin, himax, hstep, hpos, hhist⟩ := h
  obtain ⟨rfl, rfl, rfl⟩ : t.la = la ∧ t.lb = lb ∧ t.leq = leq := by simpa only [history, Prod.mk.injEq] using hhist
  rw [edge_of_same_b (s := setPins a t.lb t) ha rfl]
  exact ⟨himin, himax, hstep, hpos, rfl⟩

/-- A confirmed step that reaches no bound adds its delta exactly (rules R144 to R147). -/
theorem EncoderAt.edge_confirmed (h : EncoderAt s p (la, lb, leq) t) {a b : Bool} {q : Int} (ha : a ≠ la) (hb : b ≠ lb)
    (hq : p + stepDelta s.encStep.toInt (a == b) leq = q) (hmin : s.imin.toInt ≤ q) (hmax : q ≤ s.imax.toInt) :
    EncoderAt s q (a, b, a == b) (edge (setPins a b t)) := by
  obtain ⟨himin, himax, hstep, hpos, hhist⟩ := h
  obtain ⟨rfl, rfl, rfl⟩ : t.la = la ∧ t.lb = lb ∧ t.leq = leq := by simpa only [history, Prod.mk.injEq] using hhist
  rw [edge_of_confirmed (s := setPins a b t) ha hb]
  refine ⟨himin, himax, hstep, ?_, rfl⟩
  show (steppedPos (setPins a b t) (a == b)).toInt = q
  rw [steppedPos_toInt]
  simp only [setPins_imin, setPins_imax, setPins_wrap, setPins_pos, setPins_encStep, setPins_leq, himin, himax, hstep, hpos, hq]
  rw [bound, if_neg (by omega), if_neg (by omega)]

/-- A CW detent: the first and the third edge step up, twice from the CW history; from the CCW history the first edge
is unconfirmed and the third, with the parity flipped, steps for both (rules R94, R145, R150). -/
theorem detent_cw (hh : history s = hCw ∨ history s = hCcw) (hmin : s.imin.toInt ≤ s.pos.toInt) (hmax : s.pos.toInt ≤ s.imax.toInt)
    (hmin' : s.imin.toInt ≤ s.pos.toInt + 2 * s.encStep.toInt) (hmax' : s.pos.toInt + 2 * s.encStep.toInt ≤ s.imax.toInt) :
    EncoderAt s (s.pos.toInt + 2 * s.encStep.toInt) hCw (edgesRun cwLines s) := by
  have h₀ := EncoderAt.refl s
  rcases hh with hh | hh <;> rw [hh] at h₀
  · have h₁ := h₀.edge_confirmed (a := true) (b := false) (q := s.pos.toInt + s.encStep.toInt) (by decide) (by decide) rfl
      (by omega) (by omega)
    have h₂ := h₁.edge_same_a true
    have h₃ := h₂.edge_confirmed (a := false) (b := true) (by decide) (by decide) (by simp [stepDelta]; omega) hmin' hmax'
    exact h₃.edge_same_a false
  · have h₁ := h₀.edge_same_b (a := true) (by decide)
    have h₂ := h₁.edge_same_a true
    have h₃ := h₂.edge_confirmed (a := false) (b := true) (by decide) (by decide) (by simp [stepDelta]; omega) hmin' hmax'
    exact h₃.edge_same_a false

/-- A CCW detent: the second and the fourth edge step down, twice from the CCW history; from the CW history the second is unconfirmed
and the fourth, with the parity flipped, steps for both (rules R94, R145, R150). -/
theorem detent_ccw (hh : history s = hCw ∨ history s = hCcw) (hmin : s.imin.toInt ≤ s.pos.toInt) (hmax : s.pos.toInt ≤ s.imax.toInt)
    (hmin' : s.imin.toInt ≤ s.pos.toInt - 2 * s.encStep.toInt) (hmax' : s.pos.toInt - 2 * s.encStep.toInt ≤ s.imax.toInt) :
    EncoderAt s (s.pos.toInt - 2 * s.encStep.toInt) hCcw (edgesRun ccwLines s) := by
  have h₀ := EncoderAt.refl s
  rcases hh with hh | hh <;> rw [hh] at h₀
  · have h₁ := h₀.edge_same_a true
    have h₂ := h₁.edge_same_b (a := true) (by decide)
    have h₃ := h₂.edge_same_a false
    exact h₃.edge_confirmed (a := false) (b := false) (by decide) (by decide) (by simp [stepDelta]; omega) hmin' hmax'
  · have h₁ := h₀.edge_same_a true
    have h₂ := h₁.edge_confirmed (a := true) (b := true) (q := s.pos.toInt - s.encStep.toInt) (by decide) (by decide) rfl
      (by omega) (by omega)
    have h₃ := h₂.edge_same_a false
    exact h₃.edge_confirmed (a := false) (b := false) (by decide) (by decide) (by simp [stepDelta]; omega) hmin' hmax'

/-- Settles O21: the two detents (`detent_cw`, `detent_ccw`), each from both steady histories. -/
theorem detentMovesTwoSteps : Obligations.DetentMovesTwoSteps := by
  unfold Obligations.DetentMovesTwoSteps
  refine fun s _ _ hh => ⟨fun hmin hmax hmin' hmax' => ?_, fun hmin hmax hmin' hmax' => ?_⟩
  · have h := detent_cw hh hmin hmax hmin' hmax'
    exact ⟨h.pos, h.hist⟩
  · have h := detent_ccw hh hmin hmax hmin' hmax'
    exact ⟨h.pos, h.hist⟩

end Sys2Proof.Machine

/-! Proofs about PL.LOAD, PL.TX, PL.LATCH and CTL.RAIL: the entry written, the frame sent pixel by pixel, the faults, and what a latch and
the rail leave shown (rules R123 to R129, R173). -/

namespace Sys2Proof.Machine

variable {s : State}

/-- Settles O25: the entry by `Vector.getElem_set_self`, the other seven by `Vector.getElem_set_ne`. -/
theorem loadWritesOneEntry : Obligations.LoadWritesOneEntry := by
  unfold Obligations.LoadWritesOneEntry
  refine fun s idx pixel => ⟨load idx pixel s, rfl, rfl, ?_, ?_, fun j hj => ⟨?_, ?_⟩⟩
  · exact Vector.getElem_set_self _
  · exact Vector.getElem_set_self _
  · exact Vector.getElem_set_ne idx.isLt j.isLt fun h => hj (Fin.ext h.symm)
  · exact Vector.getElem_set_ne idx.isLt j.isLt fun h => hj (Fin.ext h.symm)

/-- An entry never written leaves the frame unwritten (rule R124). -/
theorem frameWritten_of_unwritten (h : ∃ i : Fin 8, s.fbw[i] = false) : frameWritten s = false := by
  obtain ⟨i, hi⟩ := h
  refine Bool.eq_false_iff.2 fun hw => ?_
  exact Bool.false_ne_true (hi.symm.trans ((frameWritten_iff s).1 hw i))

/-- Settles O28: the two faults of `transmit_latchMissing` and `transmit_unwritten`. -/
theorem transmitFaults : Obligations.TransmitFaults := by
  unfold Obligations.TransmitFaults
  refine fun s => ⟨fun hl => ?_, fun hl hw => ?_⟩
  · exact congrArg (fun x => Host.Outcome.next x.state) (transmit_latchMissing hl)
  · exact congrArg (fun x => Host.Outcome.next x.state) (transmit_unwritten hl (frameWritten_of_unwritten hw))

/-- Settles O32: CTL.RAIL writes the rail, and the display where the rail is off. -/
theorem railIsSet : Obligations.RailIsSet := by
  unfold Obligations.RailIsSet
  refine fun s v => ⟨setRail v s, rfl, rfl, ?_, ?_⟩
  · rintro rfl; rfl
  · rintro rfl; rfl

/-- With interrupts masked only the environment moves in the delay of PL.LATCH (rules R82, R125). -/
theorem latch_envOnly (h : s.ie = false) :
    EnvOnly { s with wire := (latch s).wire, dout := false, lowed := false, displayed := (latch s).displayed } (latch s) :=
  { preempt_envOnly (s := { s with dout := false }) h with wire := rfl, dout := rfl, lowed := rfl, displayed := rfl }

/-- Settles O29: `latch_othersOnly`, and `latch_envOnly` where interrupts are masked. -/
theorem latchAppendsOneSymbol : Obligations.LatchAppendsOneSymbol := by
  unfold Obligations.LatchAppendsOneSymbol
  refine fun s => ⟨latch s, rfl, latch_wire s, ?_, latch_envOnly⟩
  exact { latch_othersOnly s with wire := rfl, displayed := rfl }

/-- Only 192 bit symbols spell a frame (rules R127, R129). -/
theorem frameOf_eq_none {seg : List Symbol} (h : seg.length ≠ 192 ∨ Symbol.gap ∈ seg) : frameOf seg = none := by
  refine if_neg fun ⟨hlen, hbits⟩ => ?_
  rcases h with h | h
  · exact h hlen
  · exact (hbits _ h).elim nofun nofun

/-- Settles O31: a latch shows what its segment spells (`latch_displayed`), and a broken one spells no frame (`frameOf_eq_none`). -/
theorem brokenSegmentIsUnspecified : Obligations.BrokenSegmentIsUnspecified := by
  unfold Obligations.BrokenSegmentIsUnspecified
  refine fun s hne hbroken => ⟨latch s, rfl, ?_⟩
  rw [latch_displayed, displayAtLatch, if_neg hne, frameOf_eq_none hbroken, ite_self]

/-! PL.TX under MASK_SCOPE = PIXEL with a handler pending in a script (rule R127). -/

/-- A dispatch is the handler's run with IPEND cleared; IE comes back as it was (rules R227, R228). -/
theorem takeInterrupt_eq_edge (s : State) : takeInterrupt s = { edge s with ipend := false } := by
  rw [takeInterrupt]
  by_cases ha : s.pinA = s.la
  · rw [edge_of_same_a (s := enterHandler s) ha, edge_of_same_a ha]; rfl
  · by_cases hb : s.pinB = s.lb
    · rw [edge_of_same_b (s := enterHandler s) ha hb, edge_of_same_b ha hb]; rfl
    · rw [edge_of_confirmed (s := enterHandler s) ha hb, edge_of_confirmed ha hb]; rfl

section

variable {k : Nat} (hk : s.seq = .word k) (hd : dispatchEnabled s = true)
include hk hd

/-- The pending handler runs at the point between two pixels and leaves the GAP (rule R127). -/
theorem pixelGap_of_pending : pixelGap s = emit .gap (takeInterrupt s) := by simp [pixelGap, preemptRan, othersMove_word hk, hd]

/-- The handler that is pending after the first pixel leaves its GAP there, and main context is alone for the others
(rules R127, R217). -/
theorem sendRest_of_pending (w : Pixel) (ws : List Pixel) :
    (w :: ws).foldl (fun t v => sendMasked (pixelBits v) (pixelGap t)) s =
      { takeInterrupt s with wire := s.wire ++ [.gap] ++ (w :: ws).flatMap pixelSymbols, dout := false } := by
  have hword : (emit .gap (takeInterrupt s)).seq = .word k := by simpa using hk
  have halone : Alone { emit .gap (takeInterrupt s) with
      wire := (emit .gap (takeInterrupt s)).wire ++ (pixelBits w).map bitSymbol, dout := false } :=
    ⟨⟨k, hword⟩, by simp [dispatchEnabled, takeInterrupt_eq_edge]⟩
  rw [List.foldl_cons, pixelGap_of_pending hk hd, sendMasked_script (pixelBits_ne_nil w) hword, sendRest_alone ws _ halone rfl]
  simp [emit, pixelSymbols_eq]

end

/-- A frame's symbols with a GAP after the first pixel and no other (rule R127). -/
theorem gappedFrame_firstGap (fb : Vector Pixel 8) :
    gappedFrame ([.gap] :: List.replicate 6 []) fb = pixelSymbols fb[0] ++ ([.gap] ++ fb.toList.tail.flatMap pixelSymbols) := by
  obtain ⟨⟨l⟩, hl⟩ := fb
  match l, hl with
  | [_, _, _, _, _, _, _, _], _ => simp [gappedFrame, List.replicate]

/-- The bit steps of a frame under MASK_SCOPE = PIXEL: the first pixel, then the others after their gaps (rule R127). -/
theorem sendFrame_of_pixel (hm : s.params.maskScope = .pixel) :
    sendFrame s = s.fb.toList.tail.foldl (fun t v => sendMasked (pixelBits v) (pixelGap t)) (sendMasked (pixelBits s.fb[0]) s) := by
  unfold sendFrame
  rw [hm]
  dsimp only
  rw [fb_toList]
  rfl

/-- A script's frame with a handler pending: the one GAP stands after the first pixel, and nothing stays pending (rule R127). -/
theorem sendFrame_of_pending (hm : s.params.maskScope = .pixel) {k : Nat} (hk : s.seq = .word k) (hd : dispatchEnabled s = true) :
    (sendFrame s).wire = s.wire ++ gappedFrame ([.gap] :: List.replicate 6 []) s.fb ∧ (sendFrame s).ipend = false := by
  obtain ⟨w, ws, hws⟩ : ∃ w ws, s.fb.toList.tail = w :: ws :=
    List.exists_cons_of_ne_nil (List.ne_nil_of_length_pos (by simp))
  rw [sendFrame_of_pixel hm, sendMasked_script (pixelBits_ne_nil _) hk, gappedFrame_firstGap, hws]
  rw [sendRest_of_pending (by exact hk) (by exact hd)]
  simp [takeInterrupt_eq_edge, pixelSymbols_eq]

/-- The gaps of a frame, and which they are for a script with a handler pending (rule R127). -/
theorem sendFrame_gaps_pending (hm : s.params.maskScope = .pixel) :
    ∃ gaps, IsGaps gaps ∧ (sendFrame s).wire = s.wire ++ gappedFrame gaps s.fb ∧
      ((∃ k, s.seq = .word k) → s.ie = true → s.ipend = true →
        gaps = [.gap] :: List.replicate 6 [] ∧ (sendFrame s).ipend = false) := by
  by_cases hpending : (∃ k, s.seq = .word k) ∧ dispatchEnabled s = true
  · obtain ⟨⟨k, hk⟩, hd⟩ := hpending
    obtain ⟨hwire, hipend⟩ := sendFrame_of_pending hm hk hd
    exact ⟨_, ⟨rfl, by simp⟩, hwire, fun _ _ _ => ⟨rfl, hipend⟩⟩
  · obtain ⟨gaps, hgaps, hwire, -⟩ := sendFrame_gaps hm
    exact ⟨gaps, hgaps, hwire, fun hk hie hp => absurd ⟨hk, by simp [dispatchEnabled, hie, hp]⟩ hpending⟩

/-- Settles O27: the gaps of `sendFrame_gaps_pending`, the frame of `sendFrame_othersOnly`, and no gap where no handler can run
(`sendFrame_wire_quiet`). -/
theorem transmitPerPixel : Obligations.TransmitPerPixel := by
  unfold Obligations.TransmitPerPixel
  intro s hm hl hw
  obtain ⟨gaps, hgaps, hwire, hpending⟩ := sendFrame_gaps_pending hm
  refine ⟨_, gaps, exec_plTx_of_written hl hw, hgaps, hwire, ?_, fun hquiet => sendFrame_wire_quiet (.inr hquiet), hpending⟩
  exact { (sendFrame_othersOnly s).1 with wire := rfl, lowed := rfl }

end Sys2Proof.Machine

/-! Proofs about the ticks that show a frame: one lemma that leads each of them to SHOW, which sends the frame or records LatchMissing
(rules R172, R180 to R184, R232; log 19). -/

namespace Sys2Proof.Machine

variable {s t x : State} {pix : Fin 8 → Rgb}

/-- What a tick that shows a frame has written before SHOW (rules R182 to R184). -/
def tickStored (s : State) : State :=
  { s with
    bright := if s.state = .white then position s else s.bright
    hue := if s.state = .solid then position s else s.hue
    acnt := if s.state = .animate then 0 else s.acnt
    aphase := if s.state = .animate then nextPhase s.aphase else s.aphase
    reads := s.reads ++ [position s] }

theorem tickStored_of_white (h : s.state = .white) :
    tickStored s = { s with bright := position s, reads := s.reads ++ [position s] } := by
  simp [tickStored, h]

theorem tickStored_of_animate (h : s.state = .animate) :
    tickStored s = { s with acnt := 0, aphase := nextPhase s.aphase, reads := s.reads ++ [position s] } := by
  simp [tickStored, h]

theorem tickStored_of_solid (h : s.state = .solid) :
    tickStored s = { s with hue := position s, reads := s.reads ++ [position s] } := by
  simp [tickStored, h]

theorem exec_ctlTick_of_not_off (h : s.state ≠ .off) : exec .ctlTick s = .next (tick s).state :=
  exec_ctlTick (by simp [tickBlocked, h])

/-- A tick that shows a frame comes to SHOW with its registers stored, whatever the other agents did on the way
(rules R182 to R184). -/
theorem tick_of_tickShows (h : TickShows s pix) :
    s.state ≠ .off ∧ ∃ u, tick s = render pix u ∧ OthersOnly (tickStored s) u ∧ (Alone s → Alone u) := by
  have hstored : ∀ x : State, x.seq = (preempt (get s)).seq → x.ie = (preempt (get s)).ie → x.ipend = (preempt (get s)).ipend →
      Alone s → Alone (preempt x) :=
    fun x hseq hie hipend ha => ((ha.congr (t := get s) rfl rfl rfl).preempt.congr hseq hie hipend).preempt
  rcases h with ⟨hs, b, hb, rfl⟩ | ⟨hs, hcount, b, hb, rfl⟩ | ⟨hs, h, b, hh, hb, rfl⟩
  · refine ⟨by simp [hs], preempt (storeBright (position s) (preempt (get s))), ?_, ?_, ?_⟩
    · rw [tick, hs]; exact tickWhite_some (brightArg_of hb)
    · rw [tickStored_of_white hs]; constructor <;> simp
    · exact hstored _ rfl rfl rfl
  · refine ⟨by simp [hs], preempt (startFrame (preempt (get s))), ?_, ?_, ?_⟩
    · rw [tick, hs]; exact tickAnimate_some hcount (brightArg_of hb)
    · rw [tickStored_of_animate hs]; constructor <;> simp
    · exact hstored _ rfl rfl rfl
  · refine ⟨by simp [hs], preempt (storeHue (position s) (preempt (get s))), ?_, ?_, ?_⟩
    · rw [tick, hs]; exact tickSolid_some (hueArg_of hh) (brightArg_of hb)
    · rw [tickStored_of_solid hs]; constructor <;> simp
    · exact hstored _ rfl rfl rfl

/-- A tick that shows a frame, with no latch owed (rules R172, R182 to R184). -/
theorem tickShows_sends (h : TickShows s pix) (hl : s.lowed = false) :
    ∃ t, exec .ctlTick s = .next t ∧ FrameIs pix t ∧
      OthersOnly { tickStored s with fb := t.fb, fbw := t.fbw, wire := t.wire, dout := false, displayed := t.displayed } t ∧
      FrameShown s t := by
  obtain ⟨hoff, u, htick, hu, halone⟩ := tick_of_tickShows h
  obtain ⟨t, hrender, hframe, hothers, hshown⟩ := render_done (pix := pix) (hu.lowed.trans hl)
  refine ⟨t, ?_, hframe, .trans ?_ hothers, hshown.congr hu.params hu.wire hu.ie halone⟩
  · rw [exec_ctlTick_of_not_off hoff, htick, hrender]; rfl
  · exact { hu with fb := rfl, fbw := rfl, wire := rfl, dout := rfl, displayed := rfl }

/-- A tick that shows a frame, with a latch owed (rules R124, R172, R232; log 19). -/
theorem tickShows_latchMissing (h : TickShows s pix) (hl : s.lowed = true) :
    ∃ t, exec .ctlTick s = .next t ∧ FrameIs pix t ∧
      OthersOnly { tickStored s with fb := t.fb, fbw := t.fbw, faults := s.faults.insert (.latchMissing, s.seq) } t := by
  obtain ⟨hoff, u, htick, hu, -⟩ := tick_of_tickShows h
  obtain ⟨t, hrender, hframe, hothers⟩ := render_latchMissing (pix := pix) (hu.lowed.trans hl)
  refine ⟨t, ?_, hframe, .trans ?_ hothers⟩
  · rw [exec_ctlTick_of_not_off hoff, htick, hrender]; rfl
  · exact { hu with fb := rfl, fbw := rfl, faults := by rw [hu.faults, hu.seq]; rfl }

/-- Settles O38: `tickShows_sends` in WHITE. -/
theorem tickWhiteShowsBrightness : Obligations.TickWhiteShowsBrightness := by
  unfold Obligations.TickWhiteShowsBrightness
  intro s b hs hl hb
  obtain ⟨t, h⟩ := tickShows_sends (.inl ⟨hs, b, hb, rfl⟩) hl
  rw [tickStored_of_white hs] at h
  exact ⟨t, h⟩

/-- Settles O41: `tickShows_sends` in ANIMATE, with the hues of the next phase. -/
theorem tickAnimateAdvances : Obligations.TickAnimateAdvances := by
  unfold Obligations.TickAnimateAdvances
  intro s b hs hl hb hcount
  obtain ⟨t, he, hframe, hothers, hshown⟩ := tickShows_sends (.inr (.inl ⟨hs, hcount, b, hb, rfl⟩)) hl
  rw [tickStored_of_animate hs] at hothers
  have haphase : t.aphase = nextPhase s.aphase := hothers.aphase
  refine ⟨t, animateHue t.aphase, he, congrArg Fin.val haphase, fun _ => rfl, ?_, ?_, hshown⟩
  · rw [haphase]; exact hframe
  · rw [haphase]; exact hothers

/-- Settles O43: `tickShows_sends` in SOLID. -/
theorem tickSolidShowsHue : Obligations.TickSolidShowsHue := by
  unfold Obligations.TickSolidShowsHue
  intro s h b hs hl hh hb
  obtain ⟨t, ht⟩ := tickShows_sends (.inr (.inr ⟨hs, h, b, hh, hb, rfl⟩)) hl
  rw [tickStored_of_solid hs] at ht
  exact ⟨t, ht⟩

/-! What any tick leaves of PixelLink's faults, of LOWED and of the wire (rule R172). -/

/-- From `s` to `t` no UnwrittenFrame is recorded, with no latch owed none comes to be owed and no LatchMissing is recorded, and with one
owed nothing is sent. -/
structure LinkSafe (s t : State) : Prop where
  unwritten : ∀ p, (FaultKind.unwrittenFrame, p) ∈ t.faults → (FaultKind.unwrittenFrame, p) ∈ s.faults
  quiet : s.lowed = false → t.lowed = false ∧ ∀ p, (FaultKind.latchMissing, p) ∈ t.faults → (FaultKind.latchMissing, p) ∈ s.faults
  owed : s.lowed = true → t.wire = s.wire

/-- `t` has the faults, the LOWED and the wire of `s`. -/
structure SameLink (s t : State) : Prop where
  faults : t.faults = s.faults
  lowed : t.lowed = s.lowed
  wire : t.wire = s.wire

theorem SameLink.trans (h : SameLink s x) (h' : SameLink x t) : SameLink s t :=
  ⟨h'.faults.trans h.faults, h'.lowed.trans h.lowed, h'.wire.trans h.wire⟩

theorem sameLink_preempt (s : State) : SameLink s (preempt s) := ⟨preempt_faults s, preempt_lowed s, preempt_wire s⟩

theorem SameLink.linkSafe (h : SameLink s t) : LinkSafe s t := by
  obtain ⟨hfaults, hlowed, hwire⟩ := h
  exact ⟨fun p => hfaults ▸ id, fun hl => ⟨hlowed.trans hl, fun p => hfaults ▸ id⟩, fun _ => hwire⟩

theorem SameLink.trans_linkSafe (h : SameLink s x) (h' : LinkSafe x t) : LinkSafe s t := by
  obtain ⟨hfaults, hlowed, hwire⟩ := h
  obtain ⟨hunwritten, hquiet, howed⟩ := h'
  rw [hfaults] at hunwritten hquiet
  rw [hlowed] at hquiet howed
  exact ⟨hunwritten, hquiet, fun hl => (howed hl).trans hwire⟩

/-- A tick's own lines write Controller registers only (rules R182 to R184). -/
theorem sameLink_tickEnd (v : Reg8) (s : State) : SameLink s (tickEnd v s).1 := by
  unfold tickEnd
  split
  · exact ⟨rfl, rfl, rfl⟩
  · exact ⟨rfl, rfl, rfl⟩
  · unfold animateEnd
    split <;> exact ⟨rfl, rfl, rfl⟩
  · exact ⟨rfl, rfl, rfl⟩

theorem linkSafe_raise_colourDomain (s : State) : LinkSafe s (raise .colourDomain s) :=
  ⟨fun p => by simp, fun hl => ⟨hl, fun p => by simp⟩, fun _ => rfl⟩

/-- SHOW writes every entry before it sends, and owes no latch after (rule R172). -/
theorem linkSafe_render (pix : Fin 8 → Rgb) (s : State) : LinkSafe s (render pix s).state := by
  cases hl : s.lowed with
  | false =>
    obtain ⟨t, e, -, h, -⟩ := render_done (pix := pix) hl
    have hfaults : t.faults = s.faults := h.faults
    rw [e]
    exact ⟨fun p => hfaults ▸ id, fun _ => ⟨h.lowed.trans hl, fun p => hfaults ▸ id⟩, fun h' => absurd h' (by simp [hl])⟩
  | true =>
    obtain ⟨t, e, -, h⟩ := render_latchMissing (pix := pix) hl
    have hfaults : t.faults = s.faults.insert (.latchMissing, s.seq) := h.faults
    rw [e]
    refine ⟨fun p hp => ?_, fun h' => absurd h' (by simp [hl]), fun _ => h.wire⟩
    simpa [Flow.state, hfaults] using hp

theorem linkSafe_tick (s : State) : LinkSafe s (tick s).state := by
  by_cases hs : s.state = .off
  · rw [tick, hs]; exact SameLink.linkSafe ⟨rfl, rfl, rfl⟩
  · have hx : SameLink s (tickEnd (position s) (preempt (get s))).1 :=
      .trans (x := get s) ⟨rfl, rfl, rfl⟩ ((sameLink_preempt (get s)).trans (sameLink_tickEnd _ _))
    rw [tick_eq_readTick hs]
    unfold readTick
    dsimp only
    split
    · exact hx.trans_linkSafe (linkSafe_raise_colourDomain _)
    · exact (hx.trans (sameLink_preempt _)).linkSafe
    · exact (hx.trans (sameLink_preempt _)).trans_linkSafe (linkSafe_render _ _)

/-- Settles O45: `linkSafe_tick`, and `tickShows_latchMissing` where a script left a latch owed. -/
theorem ticksLoadBeforeTheySend : Obligations.TicksLoadBeforeTheySend := by
  unfold Obligations.TicksLoadBeforeTheySend
  refine fun s => ⟨fun t he => ?_, fun hl pix hshows => tickShows_latchMissing hshows hl⟩
  obtain rfl := eq_tick_of_exec he
  obtain ⟨hunwritten, hquiet, howed⟩ := linkSafe_tick s
  exact ⟨hunwritten, hquiet, howed⟩

end Sys2Proof.Machine

/-! Proofs about single turns: a turn of the environment or of the interrupt context, and main context's turn from one preemption point to
the next (rules R124, R125, R127, R152, R215, R225 to R228). -/

namespace Sys2Proof.Machine

variable {s t : State} {rest : List Turn}

/-- At the pace of single turns the step of a running machine takes the first turn listed (log 31). -/
theorem step_turn {x : Turn} (hh : halted s = false) (ht : s.turns = some (x :: rest)) :
    step s = takeTurn x (atPace (some rest) s) := by
  rw [step_single hh (by simp [singleTurns, ht]), turnStep, ht]
  rfl

/-- In script mode every turn is the block's own (rule R217). -/
theorem takeTurn_of_own {x : Turn} (h : x = .own ∨ ∃ k, s.seq = .word k) : takeTurn x s = ownTurn s := by
  rcases h with rfl | ⟨k, hk⟩
  · exact takeTurn_own s
  · unfold takeTurn
    rw [hk]
    cases x <;> rfl

/-- A handler run leaves every place but the gap between two pixels as it is (rules R127, R228). -/
theorem Place.afterHandler_of_not_gap {p : Place} (h : ∀ ran later shown, p ≠ .gap ran later shown) : p.afterHandler = p := by
  cases p
  case gap ran later shown => exact absurd rfl (h ran later shown)
  all_goals rfl

/-- The interrupt context's turn is the handler's run with IPEND cleared, of which the place takes note (rules R127, R227, R228). -/
theorem handlerTurn_eq_edge (s : State) : handlerTurn s = { edge s with ipend := false, place := s.place.afterHandler } := by
  rw [handlerTurn, takeInterrupt_eq_edge]
  rfl

/-- Settles O16: the environment's turns (`takeTurn_environment`), and the handler's run as ENC.EDGE with IPEND cleared
(`handlerTurn_eq_edge`). -/
theorem oneTurnOfOneAgent : Obligations.OneTurnOfOneAgent := by
  unfold Obligations.OneTurnOfOneAgent
  rintro s _ x rest hh ht rfl
  refine ⟨fun hw => ⟨?_, ?_⟩, fun hx hd => ?_⟩
  · rintro a b rfl
    exact (step_turn hh ht).trans ((takeTurn_environment (s := atPace (some rest) s) hw).1 a b)
  · rintro v rfl
    exact (step_turn hh ht).trans ((takeTurn_environment (s := atPace (some rest) s) hw).2 v)
  · refine ⟨_, s.place.afterHandler, rfl, ?_, Place.afterHandler_of_not_gap, fun ran later shown hp => by rw [hp]; rfl⟩
    rw [step_turn hh ht, takeTurn_of_own (s := atPace (some rest) s) hx, ownTurn, if_pos (by exact hd), handlerTurn_eq_edge]
    rfl

/-! The parts of PL.TX and of configure, as the registers they write. -/

theorem bitStep_cons {b : Bool} {bits : List Bool} (h : bits ≠ []) (later : List Pixel) (saved shown : Bool) (s : State) :
    bitStep (b :: bits) later saved shown s =
      { s with wire := s.wire ++ [bitSymbol b], dout := false, place := .sending bits later saved shown } := by
  rw [bitStep, if_neg h, emit_bit]
  rfl

theorem bitStep_last (b : Bool) (later : List Pixel) (saved shown : Bool) (s : State) :
    bitStep [b] later saved shown s = unmask later saved shown { s with wire := s.wire ++ [bitSymbol b], dout := false } := by
  rw [bitStep, if_pos rfl, emit_bit]

/-- The first turn of a masked run saves and clears IE and sends the first bit (rule R124). -/
theorem startBits_eq {bits : List Bool} (h : 2 ≤ bits.length) (later : List Pixel) (shown : Bool) (s : State) :
    startBits bits later shown s =
      { s with wire := s.wire ++ (bits.map bitSymbol).take 1, dout := false, ie := false
               place := .sending (bits.drop 1) later s.ie shown } := by
  match bits, h with
  | b :: c :: bits, _ => exact bitStep_cons (List.cons_ne_nil c bits) later s.ie shown (setIe false s)

theorem startBits_pixel (w : Pixel) (later : List Pixel) (shown : Bool) (s : State) :
    startBits (pixelBits w) later shown s =
      { s with wire := s.wire ++ (pixelSymbols w).take 1, dout := false, ie := false
               place := .sending ((pixelBits w).drop 1) later s.ie shown } := by
  rw [startBits_eq (by simp [pixelBits]), pixelSymbols_eq]

theorem startBits_frame (fb : Vector Pixel 8) (later : List Pixel) (shown : Bool) (s : State) :
    startBits (frameBits fb) later shown s =
      { s with wire := s.wire ++ (frameSymbols fb).take 1, dout := false, ie := false
               place := .sending ((frameBits fb).drop 1) later s.ie shown } := by
  have hlen : (frameBits fb).length = 192 := by
    rw [← frameSymbols_length fb, frameSymbols_eq_bits, List.length_map]
  rw [startBits_eq (by omega), frameSymbols_eq_bits]

/-- The next pixel goes out after the GAP that the place has taken note of (rule R127; log 21). -/
theorem nextPixel_cons (ran : Bool) (w : Pixel) (later : List Pixel) (shown : Bool) (s : State) :
    nextPixel ran (w :: later) shown s =
      { s with wire := s.wire ++ (if ran then [.gap] else []) ++ (pixelSymbols w).take 1, dout := false, ie := false
               place := .sending ((pixelBits w).drop 1) later s.ie shown } := by
  rw [nextPixel, startBits_pixel]
  cases ran <;> simp

theorem cfgStep_cons (r : CfgReg) (todo : List CfgReg) (mn mx st ini : Int) (w : Bool) (s : State) :
    cfgStep (r :: todo) mn mx st ini w s =
      { s with pos := if r = .pos then doubled ini else s.pos, imin := if r = .imin then doubled mn else s.imin
               imax := if r = .imax then doubled mx else s.imax
               encStep := if r = .step then BitVec.ofInt 8 st else s.encStep, wrap := if r = .wrap then w else s.wrap
               place := if todo = [] then .between else .configuring todo mn mx st ini w } := by
  cases r <;> rfl

/-- Inside an operation SEQ stays (rule R228). -/
theorem onward_inside (h : t.place ≠ .between) : onward t = t := moveSeq_inside h

/-- At the end of an operation that recorded no fault SEQ moves (rules R217, R228). -/
theorem onward_between (hh : halted t = false) (hp : t.place = .between) : onward t = { t with seq := t.seq.after } :=
  moveSeq_running hh hp

/-! Main context's turn. -/

section

variable (hh : halted s = false) (ht : s.turns = some (.own :: rest)) (hd : dispatchEnabled s = false)
include hh ht hd

theorem step_own : step s = mainPart (atPace (some rest) s) := by
  rw [step_turn hh ht, takeTurn_own, ownTurn, if_neg (by simpa [dispatchEnabled] using hd)]

/-- Main context's turn from a place inside an operation. -/
theorem step_resume (hp : s.place ≠ .between) : step s = .next (onward (resume (atPace (some rest) s))) := by
  rw [step_own hh ht hd, mainPart, if_neg (by exact hp), onward, (records_resume _).seq]

/-- Main context's turn at a word of a script, up to the operation's first preemption point. -/
theorem step_start {i : Instr} (hw : AtWord i s) (he : start i (atPace (some rest) s) = .next t) : step s = .next (onward t) := by
  obtain ⟨hp, k, w, hseq, hword, hi⟩ := hw
  have hpoint : pointInstr (atPace (some rest) s) = some i := by simp [pointInstr, hseq, hword, hi, Except.toOption]
  rw [step_own hh ht hd, mainPart, if_pos (by exact hp), mainTurn_of_pointInstr hpoint, he, onward, (records_start he).seq]
  rfl

/-- PL.TX's first turn, a script's or SHOW's. -/
theorem step_startTx {shown : Bool} (h : (shown = false ∧ AtWord .plTx s) ∨ (shown = true ∧ s.place = .loaded)) :
    step s = .next (onward (startTx shown (atPace (some rest) s))) := by
  rcases h with ⟨rfl, hw⟩ | ⟨rfl, hp⟩
  · exact step_start hh ht hd hw rfl
  · rw [step_resume hh ht hd (by simp [hp]), resume, atPace_place, hp]

/-- One of configure's turns, a script's from its first on. -/
theorem step_cfgStep {r : CfgReg} {todo : List CfgReg} {mn mx st ini : Int} {w : Bool}
    (h : s.place = .configuring (r :: todo) mn mx st ini w ∨
      (AtWord (.encCfg mn mx st ini w) s ∧ s.params.cfgOrder.writes = r :: todo)) :
    step s = .next (onward (cfgStep (r :: todo) mn mx st ini w (atPace (some rest) s))) := by
  rcases h with hp | ⟨hw, horder⟩
  · rw [step_resume hh ht hd (by simp [hp]), resume, atPace_place, hp]
  · exact step_start hh ht hd hw (by rw [start, startCfg, atPace_params, horder])

/-- A bit step's turn, but for the first of its masked run. -/
theorem step_bitStep {bits : List Bool} {later : List Pixel} {saved shown : Bool} (hp : s.place = .sending bits later saved shown) :
    step s = .next (onward (bitStep bits later saved shown (atPace (some rest) s))) := by
  rw [step_resume hh ht hd (by simp [hp]), resume, atPace_place, hp]

/-- The turn after the gap between two pixels. -/
theorem step_nextPixel {ran shown : Bool} {later : List Pixel} (hp : s.place = .gap ran later shown) :
    step s = .next (onward (nextPixel ran later shown (atPace (some rest) s))) := by
  rw [step_resume hh ht hd (by simp [hp]), resume, atPace_place, hp]

/-- PL.LATCH's first turn, a script's or SHOW's. -/
theorem step_startLatch (h : AtWord .plLatch s ∨ s.place = .sent) :
    step s = .next (onward (startLatch (atPace (some rest) s))) := by
  rcases h with hw | hp
  · exact step_start hh ht hd hw rfl
  · rw [step_resume hh ht hd (by simp [hp]), resume, atPace_place, hp]

/-- PL.LATCH's turn after its delay. -/
theorem step_endLatch (hp : s.place = .latching) : step s = .next (onward (endLatch (atPace (some rest) s))) := by
  rw [step_resume hh ht hd (by simp [hp]), resume, atPace_place, hp]

end

/-- Settles O17: each clause is the turn of main context's place (`step_startTx` and the lemmas after it) with the registers its part writes
(`startBits_eq` and the lemmas around it); SEQ moves with an operation's last part (`onward_inside`, `onward_between`). -/
theorem mainContextGoesPointByPoint : Obligations.MainContextGoesPointByPoint := by
  unfold Obligations.MainContextGoesPointByPoint
  rintro s _ rest hh ht rfl hd
  refine ⟨fun shown hplace hl hw => ?_, fun b bits later saved shown hp hne => ?_, fun b saved shown hp => ?_,
    fun b w later saved shown hp => ?_, fun ran w later shown hp => ?_, fun r todo mn mx st ini w hplace => ?_, fun hplace => ?_,
    fun hp => ?_⟩
  · rw [step_startTx hh ht hd hplace, startTx_written (s := atPace (some rest) s) shown hl ((frameWritten_iff s).2 hw), atPace_params]
    refine ⟨fun hm => ?_, fun hm => ?_⟩ <;> rw [hm] <;> dsimp only
    · rw [startBits_frame]
      exact congrArg _ (onward_inside nofun)
    · rw [atPace_fb, fb_toList, nextPixel_cons, if_neg Bool.false_ne_true, List.append_nil]
      exact congrArg _ (onward_inside nofun)
  · rw [step_bitStep hh ht hd hp, bitStep_cons hne]
    exact congrArg _ (onward_inside nofun)
  · rw [step_bitStep hh ht hd hp, bitStep_last, unmask, if_pos rfl]
    cases shown
    · exact congrArg _ (onward_between hh rfl)
    · exact congrArg _ (onward_inside nofun)
  · rw [step_bitStep hh ht hd hp, bitStep_last, unmask, if_neg (List.cons_ne_nil w later)]
    exact congrArg _ (onward_inside nofun)
  · rw [step_nextPixel hh ht hd hp, nextPixel_cons]
    exact congrArg _ (onward_inside nofun)
  · rw [step_cfgStep hh ht hd hplace, cfgStep_cons]
    by_cases htodo : todo = []
    · subst htodo
      exact congrArg _ (onward_between hh rfl)
    · rw [if_neg htodo, if_neg htodo]
      exact congrArg _ (onward_inside nofun)
  · rw [step_startLatch hh ht hd hplace]
    exact congrArg _ (onward_inside nofun)
  · rw [step_endLatch hh ht hd hp]
    exact ⟨_, congrArg _ (onward_between hh rfl), rfl⟩

end Sys2Proof.Machine

/-! Proofs about ENC.EDGE and ENC.CFG: the cases of BOUND with the delta of a confirmed step, and a configure that nothing
interrupts (rules R142 to R147, R149, R152, R155). -/

namespace Sys2Proof.Machine

/-- The double delta: a step whose parity is not the recorded one counts its direction twice (rule R145). -/
theorem stepDelta_eq_add (step : Int) (eq leq : Bool) :
    stepDelta step eq leq = (if eq then -step else step) + if eq = leq then 0 else if eq then -step else step := by
  by_cases h : eq = leq <;> simp [stepDelta, h]

section

variable {s : State} {eq : Bool} {p : Int} (hp : s.pos.toInt + stepDelta s.encStep.toInt eq s.leq = p)

include hp

/-- A sum above the upper bound stops there, or wraps to the lower one (rule R147). -/
theorem steppedPos_of_imax_lt (hmax : s.imax.toInt < p) : steppedPos s eq = if s.wrap then s.imin else s.imax := by
  rw [steppedPos, hp, bound, if_pos hmax, ← apply_ite BitVec.toInt, BitVec.ofInt_toInt]

/-- A sum below the lower bound, and not above the upper, stops there, or wraps to the upper one (rules R147, R158). -/
theorem steppedPos_of_lt_imin (hmax : p ≤ s.imax.toInt) (hmin : p < s.imin.toInt) :
    steppedPos s eq = if s.wrap then s.imax else s.imin := by
  rw [steppedPos, hp, bound, if_neg hmax.not_gt, if_pos hmin, ← apply_ite BitVec.toInt, BitVec.ofInt_toInt]

/-- A sum between the bounds is the new position, exactly (rules R15, R147). -/
theorem steppedPos_toInt_of_mem (hmax : p ≤ s.imax.toInt) (hmin : s.imin.toInt ≤ p) : (steppedPos s eq).toInt = p := by
  rw [steppedPos_toInt, hp, bound, if_neg hmax.not_gt, if_neg hmin.not_gt]

end

/-- Settles O19: the handler's three cases (`edge_of_same_a`, `edge_of_same_b`, `edge_of_confirmed`); the sum of a confirmed step is that
of `stepDelta_eq_add`, and its position BOUND's, case by case. -/
theorem edgeHandlerEffect : Obligations.EdgeHandlerEffect := by
  unfold Obligations.EdgeHandlerEffect
  refine fun s => ⟨fun ha => ?_, fun ha hb => ?_, fun ha hb => ?_⟩
  · exact congrArg Host.Outcome.next (edge_of_same_a ha)
  · exact congrArg Host.Outcome.next (edge_of_same_b ha hb)
  · refine ⟨_, congrArg Host.Outcome.next (edge_of_confirmed ha hb), rfl, beq_iff_eq, ?_⟩
    rintro d p rfl hp
    have hsum : s.pos.toInt + stepDelta s.encStep.toInt (s.pinA == s.pinB) s.leq = p := by
      rw [stepDelta_eq_add, hp, ← Int.add_assoc]
      simp only [beq_iff_eq]
    exact ⟨steppedPos_of_imax_lt hsum, steppedPos_of_lt_imin hsum, steppedPos_toInt_of_mem hsum⟩

/-- Settles O23: the registers that `configure_alone` gives, read as the integers written. -/
theorem configureAloneWritesFive : Obligations.ConfigureAloneWritesFive := by
  unfold Obligations.ConfigureAloneWritesFive
  intro s min max step init w hs hmin hmax hstep hinit
  exact ⟨_, congrArg Host.Outcome.next (configure_alone min max step init w hs), rfl,
    doubled_toInt hinit, doubled_toInt hmin, doubled_toInt hmax, toInt_ofInt8 hstep⟩

end Sys2Proof.Machine

/-! Proofs about how an operation and a step answer: a next state, or the two stops of a script (rules R181, R217, R218). -/

namespace Sys2Proof.Machine

variable {s t u : State}

theorem tickBlocked_eq_true_iff : tickBlocked s = true ↔ s.state = .off ∧ s.pinBtn = false := by simp [tickBlocked]

theorem tickBlocked_eq_false_iff : tickBlocked s = false ↔ s.state ≠ .off ∨ s.pinBtn = true := by
  simp [tickBlocked, imp_iff_not_or]

/-- CTL.TICK at the blocked OFF wait gives main context no step (rule R181; log 16). -/
theorem exec_ctlTick_of_blocked (h : tickBlocked s = true) : exec .ctlTick s = .fault .stuckInWait := by
  simp [exec, execCtlTick, h]

/-- How main context runs an operation from its point: to a next state, but for the blocked OFF wait (rules R181, R217). -/
structure Runs (run : Runner) : Prop where
  next : ∀ i s, (i = .ctlTick → tickBlocked s = false) → ∃ t, run i s = .next t
  stuck : ∀ s, tickBlocked s = true → run .ctlTick s = .fault .stuckInWait

theorem runs_exec : Runs exec where
  next i s h := by
    cases i
    case ctlTick => exact ⟨_, exec_ctlTick (h rfl)⟩
    all_goals exact ⟨_, rfl⟩
  stuck _ h := exec_ctlTick_of_blocked h

theorem runs_start : Runs start where
  next i s h := by
    cases i
    case ctlTick => exact ⟨startTick s, by simp [start, h rfl]⟩
    all_goals exact ⟨_, rfl⟩
  stuck s h := by simp [start, h]

/-- Settles O15: `runs_exec`, with the blocked OFF wait as the registers that block it. -/
theorem onlyTheOffWaitStops : Obligations.OnlyTheOffWaitStops := by
  unfold Obligations.OnlyTheOffWaitStops
  refine fun i s => ⟨fun h => runs_exec.next i s fun hi => ?_, ?_⟩
  · exact Bool.eq_false_iff.2 fun hb => h ⟨hi, tickBlocked_eq_true_iff.1 hb⟩
  · rintro rfl hoff hbtn
    exact exec_ctlTick_of_blocked (tickBlocked_eq_true_iff.2 ⟨hoff, hbtn⟩)

/-- Main context's turn at its point stops: at a script's end, or at the blocked OFF wait of a script (rules R181, R218; logs 16, 17). -/
inductive PointStop (s : State) : Fault → Prop
  | ended {k : Nat} (hseq : s.seq = .word k) (hend : s.program.length ≤ k) : PointStop s .scriptEnded
  | stuck {k : Nat} {w : CommandWord} (hseq : s.seq = .word k) (hw : s.program[k]? = some w) (hi : decode w = .ok .ctlTick)
      (hblocked : tickBlocked s = true) : PointStop s .stuckInWait

theorem PointStop.word {f : Fault} (h : PointStop s f) : ∃ k, s.seq = .word k := by
  cases h with
  | ended hseq _ => exact ⟨_, hseq⟩
  | stuck hseq _ _ _ => exact ⟨_, hseq⟩

theorem PointStop.congr {f : Fault} (h : PointStop s f) (hseq : t.seq = s.seq := by rfl) (hprogram : t.program = s.program := by rfl)
    (hstate : t.state = s.state := by rfl) (hbtn : t.pinBtn = s.pinBtn := by rfl) : PointStop t f := by
  cases h with
  | ended hs hend => exact .ended (hseq.trans hs) (hprogram ▸ hend)
  | stuck hs hw hi hb => exact .stuck (hseq.trans hs) (hprogram ▸ hw) hi (by simpa [tickBlocked, hstate, hbtn] using hb)

section

variable {run : Runner} (hrun : Runs run)
include hrun

theorem mainTurn_of_pointStop {f : Fault} (h : PointStop s f) : mainTurn run s = .fault f := by
  unfold mainTurn
  cases h with
  | ended hseq hend => rw [hseq]; simp [scriptTurn, List.getElem?_eq_none hend]
  | stuck hseq hw hi hb => rw [hseq]; simp [scriptTurn_of_ok hw hi, hrun.stuck s hb, thenSeq]

theorem thenSeq_run_next {i : Instr} (p : Point) (h : i = .ctlTick → tickBlocked s = false) : ∃ t, thenSeq p (run i s) = .next t := by
  obtain ⟨t, ht⟩ := hrun.next i s h
  exact ⟨_, by rw [ht, thenSeq]⟩

/-- Main context's turn at its point answers a next state wherever nothing stops it (rules R185, R187, R217). -/
theorem mainTurn_of_no_pointStop (h : ∀ f, ¬PointStop s f) : ∃ t, mainTurn run s = .next t := by
  unfold mainTurn
  cases hs : s.seq with
  | boot | poll | deb1 | wrel | deb2 => exact ⟨_, rfl⟩
  | entry => exact thenSeq_run_next hrun _ nofun
  | adv => exact thenSeq_run_next hrun _ nofun
  | tick =>
    dsimp only
    split
    · exact ⟨_, rfl⟩
    · exact thenSeq_run_next hrun _ fun _ => Bool.eq_false_iff.2 ‹_›
  | word k =>
    dsimp only
    cases hw : s.program[k]? with
    | none => exact absurd (.ended hs (List.getElem?_eq_none_iff.1 hw)) (h _)
    | some w =>
      cases hi : decode w with
      | error r => exact ⟨_, scriptTurn_of_error hw hi run⟩
      | ok i =>
        rw [scriptTurn_of_ok hw hi]
        refine thenSeq_run_next hrun _ ?_
        rintro rfl
        exact Bool.eq_false_iff.2 fun hb => h _ (.stuck hs hw hi hb)

end

/-! The block's own turn, at either pace. -/

theorem ownTurn_of_pointStop {f : Fault} (hp : s.place = .between) (hd : dispatchEnabled s = false) (h : PointStop s f) :
    ownTurn s = .fault f := by
  rw [ownTurn, if_neg (by simp [hd]), mainPart, if_pos hp, mainTurn_of_pointStop runs_start h]

theorem ownTurn_next (h : s.place = .between → dispatchEnabled s = false → ∀ f, ¬PointStop s f) : ∃ t, ownTurn s = .next t := by
  unfold ownTurn mainPart
  split_ifs with hd hp
  · exact ⟨_, rfl⟩
  · exact mainTurn_of_no_pointStop runs_start (h hp (by simpa using hd))
  · exact ⟨_, rfl⟩

/-- A turn is the block's own, or the environment's, which answers a next state (rules R215, R217). -/
theorem takeTurn_eq_ownTurn_or_next (x : Turn) (s : State) : takeTurn x s = ownTurn s ∨ ∃ t, takeTurn x s = .next t := by
  by_cases hw : ∃ k, s.seq = .word k
  · exact .inl (takeTurn_of_own (.inr hw))
  · obtain ⟨hpins, hbtn⟩ := takeTurn_environment (s := s) fun k hk => hw ⟨k, hk⟩
    cases x with
    | own => exact .inl (takeTurn_own s)
    | pins a b => exact .inr ⟨_, hpins a b⟩
    | btn v => exact .inr ⟨_, hbtn v⟩

/-- A step at the pace of single turns is the next turn listed, or the block's own (log 31). -/
theorem turnStep_eq_takeTurn (s : State) : ∃ x l, turnStep s = takeTurn x (atPace l s) := by
  unfold turnStep
  split
  · exact ⟨_, _, rfl⟩
  · exact ⟨.own, s.turns, rfl⟩
  · exact ⟨.own, s.turns, rfl⟩

/-! The step. -/

theorem step_of_pointStop {f : Fault} (hh : halted s = false) (hp : s.place = .between) (hd : dispatchEnabled s = false)
    (h : PointStop s f) : step s = .fault f := by
  obtain ⟨k, hk⟩ := h.word
  cases hs : singleTurns s with
  | false =>
    rw [step_whole hh (singleTurns_false.1 hs), othersMove_word hk, agentTurn, if_neg (by simp [hd]),
      mainTurn_of_pointStop runs_exec h]
  | true =>
    obtain ⟨x, l, hx⟩ := turnStep_eq_takeTurn s
    rw [step_single hh hs, hx, takeTurn_of_own (s := atPace l s) (.inr ⟨k, hk⟩)]
    exact ownTurn_of_pointStop (s := atPace l s) hp hd h.congr

/-- A running machine's step answers a next state wherever nothing stops main context (rules R217, R218, R225). -/
theorem step_next_of_no_pointStop (hh : halted s = false)
    (h : s.place = .between → dispatchEnabled s = false → ∀ f, ¬PointStop s f) : ∃ t, step s = .next t := by
  cases hs : singleTurns s with
  | false =>
    rw [step_whole hh (singleTurns_false.1 hs), agentTurn]
    split_ifs with hd
    · exact ⟨_, rfl⟩
    · refine mainTurn_of_no_pointStop runs_exec fun f hf => ?_
      obtain ⟨k, hk⟩ := hf.word
      have he : (othersMove s).1 = s := by rw [othersMove_word (by simpa using hk)]
      rw [he] at hf hd
      exact h (singleTurns_false.1 hs).2 (by simpa using hd) f hf
  | true =>
    obtain ⟨x, l, hx⟩ := turnStep_eq_takeTurn s
    rw [step_single hh hs, hx]
    rcases takeTurn_eq_ownTurn_or_next x (atPace l s) with he | he
    · rw [he]
      exact ownTurn_next (s := atPace l s) fun hp hd f hf => h hp hd f hf.congr
    · exact he

/-- A halted machine's step answers its record (rules R221, R222). -/
theorem step_of_halted (hh : halted s = true) : (∃ r, step s = .refused r) ∨ ∃ k : FaultKind, step s = .fault k.fault := by
  unfold step stopped
  cases hr : s.refused with
  | some r => exact .inl ⟨_, rfl⟩
  | none =>
    cases hf : s.faults with
    | cons x rest => exact .inr ⟨x.1, rfl⟩
    | nil => simp [halted, hr, hf] at hh

/-- A step answers a fault that no machine records exactly where main context's turn stops with it (rules R181, R218, R225). -/
theorem step_eq_fault_iff {f : Fault} (hf : ∀ k : FaultKind, k.fault ≠ f) :
    step s = .fault f ↔ halted s = false ∧ s.place = .between ∧ dispatchEnabled s = false ∧ PointStop s f := by
  refine ⟨fun h => ?_, fun ⟨hh, hp, hd, hstop⟩ => step_of_pointStop hh hp hd hstop⟩
  cases hh : halted s with
  | true =>
    obtain ⟨r, hr⟩ | ⟨k, hk⟩ := step_of_halted hh
    · exact nomatch hr.symm.trans h
    · exact absurd (Host.Outcome.fault.inj (hk.symm.trans h)) (hf k)
  | false =>
    by_contra hno
    obtain ⟨t, ht⟩ := step_next_of_no_pointStop hh fun hp hd g hg => by
      obtain rfl := Host.Outcome.fault.inj ((step_of_pointStop hh hp hd hg).symm.trans h)
      exact hno ⟨rfl, hp, hd, hg⟩
    exact nomatch ht.symm.trans h

theorem pointStop_scriptEnded_iff : PointStop s .scriptEnded ↔ ∃ k, s.seq = .word k ∧ s.program.length ≤ k :=
  ⟨fun | .ended hseq hend => ⟨_, hseq, hend⟩, fun ⟨_, hseq, hend⟩ => .ended hseq hend⟩

theorem pointStop_stuckInWait_iff : PointStop s .stuckInWait ↔ s.state = .off ∧ s.pinBtn = false ∧
    ∃ k w, s.seq = .word k ∧ s.program[k]? = some w ∧ decode w = .ok .ctlTick := by
  rw [← and_assoc, ← tickBlocked_eq_true_iff]
  exact ⟨fun | .stuck hseq hw hi hb => ⟨hb, _, _, hseq, hw, hi⟩, fun ⟨hb, _, _, hseq, hw, hi⟩ => .stuck hseq hw hi hb⟩

/-- Settles O14: `step_eq_fault_iff` for the two names that no record has. -/
theorem finalAndStuckRuns : Obligations.FinalAndStuckRuns := by
  unfold Obligations.FinalAndStuckRuns
  refine fun s => ⟨?_, ?_⟩
  · rw [step_eq_fault_iff (fun k => by cases k <;> decide), pointStop_scriptEnded_iff, halted_eq_false_iff, Final, Ended]
    tauto
  · rw [step_eq_fault_iff (fun k => by cases k <;> decide), pointStop_stuckInWait_iff]

end Sys2Proof.Machine

/-! Proofs about the reference white (rule R171), the entry actions, the ticks that show no frame, and the points of the main loop
(rules R175 to R187, R193). -/

namespace Sys2Proof

/-- The square of a brightness fits its 8 bits (rule R171). -/
theorem Config.whiteRef_toNat (b : Fin 16) : (Config.whiteRef b).r.toNat = b.val * b.val := by
  have hb : b.val * b.val ≤ 15 * 15 := Nat.mul_self_le_mul_self (Nat.le_of_lt_succ b.isLt)
  exact (BitVec.toNat_ofNat _ _).trans (Nat.mod_eq_of_lt (by omega))

theorem Config.whiteRef_cp4 : Config.CP4 Config.whiteRef := by
  refine ⟨fun b => ⟨rfl, rfl⟩, 1, 1, one_pos, one_pos, fun b => ?_⟩
  rw [whiteRef_toNat, one_mul, Nat.div_one, sq]

/-- Settles O8: CP4 with the factor 1 (`Config.whiteRef_cp4`), which gives CP5 (`Config.CP4.cp5`). -/
theorem referenceWhiteMeetsHypotheses : Obligations.ReferenceWhiteMeetsHypotheses := by
  unfold Obligations.ReferenceWhiteMeetsHypotheses
  exact ⟨Config.whiteRef_cp4, Config.whiteRef_cp4.cp5, Config.whiteRef_toNat⟩

end Sys2Proof

namespace Sys2Proof.Machine

variable {s t u : State}

/-! The entry actions, one equation for each Controller state (rule R175). -/

theorem entry_of_off (h : s.state = .off) : entry s = setRail false s := by rw [entry, h]; rfl

theorem entry_of_white (h : s.state = .white) :
    entry s = configure 2 15 1 s.bright.toInt false (preempt (setRail true s)) := by
  rw [entry, h]
  simp [entryWhite]

theorem entry_of_animate (h : s.state = .animate) : entry s = s := by rw [entry, h]; rfl

theorem entry_of_solid (h : s.state = .solid) : entry s = configure 0 48 1 s.hue.toInt true s := by rw [entry, h]; rfl

/-- Settles O34: the entry actions of OFF and ANIMATE (`entry_of_off`, `entry_of_animate`). -/
theorem entryOffAndAnimate : Obligations.EntryOffAndAnimate := by
  unfold Obligations.EntryOffAndAnimate
  refine fun s => ⟨fun h => ⟨setRail false s, ?_, rfl⟩, fun h => ?_⟩
  · exact congrArg Host.Outcome.next (entry_of_off h)
  · exact congrArg Host.Outcome.next (entry_of_animate h)

/-- Configure at an `int8` register ends at that value when nothing interrupts it, and when POS is written last (rules R155, R257). -/
theorem configure_pos_toInt (min max step : Int) (v : Reg8) (w : Bool) (h : Alone s ∨ PosLast s.params.cfgOrder) :
    (configure min max step v.toInt w s).pos.toInt = 2 * v.toInt := by
  have hpos : (configure min max step v.toInt w s).pos = doubled v.toInt := by
    rcases h with ha | hl
    · rw [configure_alone _ _ _ _ _ ha]
    · obtain ⟨-, -, -, -, hpos⟩ := configure_written min max step v.toInt w s
      exact hpos hl
  rw [hpos, doubled_toInt (toInt_range8 v)]

/-- What ENTRY_WHITE gives to configure is WHITE's configuration, in whatever state it runs (rule R177). -/
theorem configure_whiteCfg (init : Int) (s : State) : WhiteCfg (configure 2 15 1 init false s) := by
  obtain ⟨himin, himax, hstep, hwrap, -⟩ := configure_written 2 15 1 init false s
  exact ⟨himin, himax, hstep, hwrap⟩

/-- The same of ENTRY_SOLID (rule R179). -/
theorem configure_solidCfg (init : Int) (s : State) : SolidCfg (configure 0 48 1 init true s) := by
  obtain ⟨himin, himax, hstep, hwrap, -⟩ := configure_written 0 48 1 init true s
  exact ⟨himin, himax, hstep, hwrap⟩

/-- An entry action alone leaves the edge history alone (rules R175 to R179). -/
theorem history_entry_of_alone (h : Alone s) : history (entry s) = history s := (entry_alone h).1

/-- Settles O35: configure after the rail's write and the point between them, where POS ends as `configure_pos_toInt` says. -/
theorem entryWhiteConfigures : Obligations.EntryWhiteConfigures := by
  unfold Obligations.EntryWhiteConfigures
  intro s hs
  refine ⟨_, congrArg Host.Outcome.next (entry_of_white hs), ?_, configure_whiteCfg _ _, fun h => ?_, fun ha => ?_⟩
  · exact .trans (preempt_othersOnly (setRail true s)).toEncoder (configure_encoderOnly ..)
  · refine configure_pos_toInt 2 15 1 s.bright false (h.imp (fun ha => ?_) fun hl => by simpa using hl)
    exact (ha.congr (t := setRail true s) rfl rfl rfl).preempt
  · rw [← entry_of_white hs, history_entry_of_alone ha]

/-- Settles O36: configure, where POS ends as `configure_pos_toInt` says. -/
theorem entrySolidConfigures : Obligations.EntrySolidConfigures := by
  unfold Obligations.EntrySolidConfigures
  intro s hs
  refine ⟨_, congrArg Host.Outcome.next (entry_of_solid hs), configure_encoderOnly .., configure_solidCfg _ _,
    configure_pos_toInt 0 48 1 s.hue true, fun ha => ?_⟩
  rw [← entry_of_solid hs, history_entry_of_alone ha]

/-! The ticks that show no frame. -/

theorem tick_of_off (h : s.state = .off) : tick s = .done s := by rw [tick, h]

theorem tick_of_white (h : s.state = .white) : tick s = tickWhite s := by rw [tick, h]

theorem tick_of_animate (h : s.state = .animate) : tick s = tickAnimate s := by rw [tick, h]

theorem tick_of_solid (h : s.state = .solid) : tick s = tickSolid s := by rw [tick, h]

/-- Settles O37: the OFF wait has its condition, and the tick changes nothing (`tick_of_off`). -/
theorem tickOffPassesWhenPressed : Obligations.TickOffPassesWhenPressed := by
  unfold Obligations.TickOffPassesWhenPressed
  intro s hoff hbtn
  rw [exec_ctlTick (by simp [tickBlocked, hbtn]), tick_of_off hoff]
  rfl

/-- Settles O39: the brightness has no argument (`brightArg_none`), and the tick stops after storing it (`tickWhite_none`). -/
theorem tickWhiteFaultsOutsideDomain : Obligations.TickWhiteFaultsOutsideDomain := by
  unfold Obligations.TickWhiteFaultsOutsideDomain
  intro s hs hv
  refine ⟨_, exec_ctlTick_of_not_off (by simp [hs]), ?_⟩
  rw [tick_of_white hs, tickWhite_none (brightArg_none.2 hv)]
  constructor <;> simp [Flow.state]

/-- Settles O40: `tickAnimate_idle`. -/
theorem tickAnimateIdles : Obligations.TickAnimateIdles := by
  unfold Obligations.TickAnimateIdles
  intro s hs hcount
  refine ⟨_, exec_ctlTick_of_not_off (by simp [hs]), ?_⟩
  rw [tick_of_animate hs, tickAnimate_idle hcount]
  constructor <;> simp [Flow.state]

/-- Settles O42: the brightness has no argument, and the tick stops after the count and the phase (`tickAnimate_none`). -/
theorem tickAnimateFaultsOutsideDomain : Obligations.TickAnimateFaultsOutsideDomain := by
  unfold Obligations.TickAnimateFaultsOutsideDomain
  intro s hs hb hcount
  refine ⟨_, exec_ctlTick_of_not_off (by simp [hs]), ?_⟩
  rw [tick_of_animate hs, tickAnimate_none hcount (brightArg_none.2 hb)]
  refine ⟨by simp [Flow.state, nextPhase], ?_⟩
  constructor <;> simp [Flow.state]

/-- Settles O44: one of the two arguments is missing, and the tick stops after storing the hue (`tickSolid_none`). -/
theorem tickSolidFaultsOutsideDomain : Obligations.TickSolidFaultsOutsideDomain := by
  unfold Obligations.TickSolidFaultsOutsideDomain
  intro s hs hv
  have harg : hueArg (position s) = none ∨ brightArg s.bright = none := by
    rwa [hueArg_none, brightArg_none, or_assoc]
  refine ⟨_, exec_ctlTick_of_not_off (by simp [hs]), ?_⟩
  rw [tick_of_solid hs, tickSolid_none harg]
  constructor <;> simp [Flow.state]

/-! The points of the main loop. -/

theorem moveSeq_eq_ite {p : Point} (hp : s.place = .between) : moveSeq p s = if halted s then s else { s with seq := p } := by
  cases hh : halted s with
  | true => exact moveSeq_halted hh
  | false => exact moveSeq_running hh hp

/-- An entry action records nothing. -/
theorem halted_entry (s : State) : halted (entry s) = halted s := (extends_entry s).halted_eq

theorem step_of_quiet (hh : halted s = false) (hw : WholePace s) (hd : dispatchEnabled (othersMove s).1 = false) :
    step s = mainTurn exec (othersMove s).1 := by
  rw [step_whole hh hw, agentTurn, if_neg (by simp [hd])]

/-- Settles O11: main context's turn at each point, where SEQ moves as `moveSeq_running` says, after a tick as `moveSeq_eq_ite`. -/
theorem mainLoopStep : Obligations.MainLoopStep := by
  unfold Obligations.MainLoopStep
  rintro s u hh hw rfl hd
  have hstep := step_of_quiet hh hw hd
  have hseq : (othersMove s).1.seq = s.seq := othersMove_seq s
  have hrun : halted (othersMove s).1 = false := (halted_othersMove s).trans hh
  have hp : (othersMove s).1.place = .between := (othersMove_place s).trans hw.2
  generalize (othersMove s).1 = u at hstep hseq hrun hp
  rw [hstep, ← hseq]
  unfold mainTurn
  refine ⟨fun hs => ?_, fun hs => ?_, fun hs => ?_, fun hs hpass => ?_, fun hs hoff hbtn => ?_, fun hs => ?_, fun hs => ?_,
    fun hs => ?_, fun hs => ?_⟩ <;> rw [hs]
  · rfl
  · refine ⟨entry u, rfl, congrArg _ (moveSeq_running ((halted_entry u).trans hrun) ?_)⟩
    exact (entry_encoderOnly u).place.trans hp
  · exact congrArg _ (moveSeq_running hrun hp)
  · have hb : tickBlocked u = false := tickBlocked_eq_false_iff.2 hpass
    have hexec := exec_ctlTick hb
    refine ⟨_, hexec, ?_⟩
    dsimp only
    rw [if_neg (by simp [hb]), hexec]
    exact congrArg _ (moveSeq_eq_ite ((exec_place hexec).1.trans hp))
  · exact if_pos (tickBlocked_eq_true_iff.2 ⟨hoff, hbtn⟩)
  · exact congrArg _ (moveSeq_running hrun hp)
  · dsimp only
    rw [moveSeq_running hrun hp]
  · exact congrArg _ (moveSeq_running hrun hp)
  · exact ⟨advance u, rfl, congrArg Host.Outcome.next (moveSeq_running (s := advance u) hrun hp)⟩

end Sys2Proof.Machine

/-! Proofs about autonomous mode: every step keeps IE, the rail and the Encoder's configuration in the role of the Controller state
(rules R179, R188, R191, R192). A whole step is a run of single turns, so that each part of an operation is looked at once. -/

namespace Sys2Proof.Machine

variable {s t : State}

/-! From single turns to every step. -/

theorem turns_resume (s : State) : (resume s).turns = s.turns := by
  have h : resume s = atPace s.turns (resume s) := resume_atPace s s.turns
  rw [h, atPace_turns]

theorem turns_eq_of_start {i : Instr} (h : start i s = .next t) : t.turns = s.turns := by
  have h' : start i s = .next (atPace s.turns t) := start_atPace i s s.turns h
  rw [Host.Outcome.next.inj (h.symm.trans h'), atPace_turns]

theorem turns_eq_of_mainPart (h : mainPart s = .next t) : t.turns = s.turns := by
  rcases mainPart_next h with ⟨-, he⟩ | ⟨-, rfl⟩
  · exact mainTurn_induct (P := fun u => u.turns = s.turns) rfl rfl (fun _ => rfl) (fun _ => rfl)
      (fun _ u _ _ hu => turns_eq_of_start (t := u) hu) he
  · exact turns_resume s

/-- The pace of single turns stays (log 31). -/
theorem turns_isSome_of_turnStep (hs : s.turns.isSome = true) (h : turnStep s = .next t) : t.turns.isSome = true := by
  obtain ⟨l, hl, ⟨-, ⟨a, b, rfl⟩ | ⟨v, rfl⟩⟩ | ⟨-, rfl⟩ | ⟨-, he⟩⟩ := turnStep_next h
  · exact hl hs
  · exact hl hs
  · simpa using hl hs
  · rw [turns_eq_of_mainPart he]
    exact hl hs

/-- A property that every single turn keeps, and that reads neither the schedule nor the pace, is kept by every step: a whole operation is
a run of single turns (`wholeStepIsRunOfTurns`). -/
theorem step_induct {P : State → Prop} (hpace : ∀ s c l, P s → P { s with sched := c, turns := l })
    (hturn : ∀ s t, halted s = false → P s → turnStep s = .next t → P t) (h : P s) (he : step s = .next t) : P t := by
  have hsingle : ∀ x y, x.turns.isSome = true ∧ P x → step x = .next y → y.turns.isSome = true ∧ P y := by
    rintro x y ⟨hx, hP⟩ hxy
    obtain ⟨hh, ⟨⟨hnone, -⟩, -⟩ | ⟨-, hy⟩⟩ := step_next hxy
    · simp [hnone] at hx
    · exact ⟨turns_isSome_of_turnStep hx hy, hturn x y hh hP hy⟩
  obtain ⟨hh, ⟨hw, -⟩ | ⟨-, he'⟩⟩ := step_next he
  · obtain ⟨l, hl⟩ := wholeStepIsRunOfTurns s t hw he
    obtain ⟨-, hP⟩ := ReachedFrom.induct hsingle ⟨rfl, hpace s s.sched (some l) h⟩ ⟨_, hl⟩
    exact hpace { t with sched := s.sched, turns := some [] } t.sched t.turns hP
  · exact hturn s t hh h he'

/-! The role of a Controller state, as the registers that say it (rule R188). -/

/-- `t` has the Controller state, the rail and the Encoder's configuration of `s`. -/
structure SameRole (s t : State) : Prop where
  state : t.state = s.state
  rail : t.rail = s.rail
  encStep : t.encStep = s.encStep
  imin : t.imin = s.imin
  imax : t.imax = s.imax
  wrap : t.wrap = s.wrap

theorem OthersOnly.sameRole (h : OthersOnly s t) : SameRole s t := ⟨h.state, h.rail, h.encStep, h.imin, h.imax, h.wrap⟩

theorem RoleOf.congr (h : RoleOf s) (hr : SameRole s t) : RoleOf t := by
  simpa only [RoleOf, WhiteCfg, SolidCfg, hr.state, hr.rail, hr.encStep, hr.imin, hr.imax, hr.wrap] using h

theorem RoleBeforeEntry.congr (h : RoleBeforeEntry s) (hr : SameRole s t) : RoleBeforeEntry t := by
  simpa only [RoleBeforeEntry, WhiteCfg, SolidCfg, hr.state, hr.rail, hr.encStep, hr.imin, hr.imax, hr.wrap] using h

/-- The next state inherits from the one before it what its entry action does not write (rules R179, R192). -/
theorem RoleOf.advance (h : RoleOf s) : RoleBeforeEntry (advance s) := by
  unfold RoleOf at h
  unfold RoleBeforeEntry
  rw [advance_state]
  cases hs : s.state <;> rw [hs] at h
  case off => trivial
  case white => exact h
  case animate => exact h.1
  case solid => trivial

/-! The invariant at main context's places. -/

/-- The points of the main loop after the entry action (rule R185). -/
def Point.looping : Point → Bool
  | .boot => false
  | .entry => false
  | .word _ => false
  | _ => true

theorem autonomousInv_looping_iff (hp : s.place = .between) (hl : s.seq.looping = true) :
    AutonomousInv s ↔ s.ie = true ∧ RoleOf s := by
  unfold AutonomousInv
  rw [hp]
  cases hs : s.seq
  case boot | entry | word => simp [hs, Point.looping] at hl
  all_goals rfl

theorem autonomousInv_entry_iff (hp : s.place = .between) (hs : s.seq = .entry) :
    AutonomousInv s ↔ s.ie = true ∧ RoleBeforeEntry s := by
  unfold AutonomousInv
  rw [hp, hs]

theorem AutonomousInv.not_word (h : AutonomousInv s) (k : Nat) : s.seq ≠ .word k := by
  intro hs
  unfold AutonomousInv at h
  rw [hs] at h
  cases hp : s.place <;> simp [hp] at h

/-- What the other agents change keeps the invariant at every place (rule R47). -/
theorem AutonomousInv.others (h : AutonomousInv s) (ho : OthersOnly s t) : AutonomousInv t := by
  have hrole := fun h : RoleOf s => h.congr ho.sameRole
  have hbefore := fun h : RoleBeforeEntry s => h.congr ho.sameRole
  simp only [AutonomousInv, EntryOperands, CfgWritten, ho.place, ho.seq, ho.ie, ho.rail, ho.state, ho.bright, ho.hue, ho.imin, ho.imax,
    ho.encStep, ho.wrap] at h ⊢
  cases hp : s.place <;> simp only [hp] at h ⊢
  case between => cases hs : s.seq <;> simp only [hs] at h ⊢ <;> tauto
  all_goals tauto

/-- From a point of the loop, or from a place inside a tick, SEQ moves to a point of the loop (rule R185). -/
theorem AutonomousInv.moveSeq (h : AutonomousInv s) (hs : s.seq.looping = true) {p : Point} (hl : p.looping = true) :
    AutonomousInv (moveSeq p s) := by
  by_cases hp : s.place = .between
  · rw [moveSeq_eq_ite hp]
    split
    · exact h
    · have hie := (autonomousInv_looping_iff hp hs).1 h
      exact (autonomousInv_looping_iff (s := { s with seq := p }) hp hl).2 hie
  · rw [moveSeq_inside hp]
    exact h

/-! The entry action (rules R175 to R179). -/

/-- The entry action ends in the role of the Controller state (rules R185, R188). -/
theorem autonomousInv_poll (hh : halted s = false) (hp : s.place = .between) (hie : s.ie = true) (hrole : RoleOf s) :
    AutonomousInv (moveSeq .poll s) := by
  rw [moveSeq_running hh hp]
  exact (autonomousInv_looping_iff (s := { s with seq := .poll }) hp rfl).2 ⟨hie, hrole.congr (by constructor <;> rfl)⟩

theorem EntryOperands.congr {min max step init : Int} {w : Bool} (h : EntryOperands s min max step init w) (he : EncoderOnly s t) :
    EntryOperands t min max step init w := by
  simpa only [EntryOperands, he.state, he.bright, he.hue] using h

/-- Each write leaves one register less to write (rule R152). -/
theorem CfgWritten.cfgWrite {r : CfgReg} {rest : List CfgReg} {min max step : Int} {w : Bool}
    (h : CfgWritten s (r :: rest) min max step w) (init : Int) :
    CfgWritten (cfgWrite min max step init w r s) rest min max step w := by
  obtain ⟨himin, himax, hstep, hwrap⟩ := h
  cases r <;> simp_all [CfgWritten, Machine.cfgWrite]

/-- With nothing left to write the Encoder holds the configuration of the Controller state (rules R177, R179). -/
theorem roleOf_of_cfgWritten {min max step init : Int} {w : Bool} (hrail : s.rail = true) (ho : EntryOperands s min max step init w)
    (h : CfgWritten s [] min max step w) : RoleOf s := by
  obtain ⟨himin, himax, hstep, hwrap⟩ := h
  unfold RoleOf
  rcases ho with ⟨hs, rfl, rfl, rfl, -, rfl⟩ | ⟨hs, rfl, rfl, rfl, -, rfl⟩ <;> rw [hs]
  · exact ⟨hrail, himin nofun, himax nofun, hstep nofun, hwrap nofun⟩
  · exact ⟨hrail, himin nofun, himax nofun, hstep nofun, hwrap nofun⟩

/-- Main context inside the configure of an entry action, with these writes still to do. -/
structure Configuring (todo : List CfgReg) (min max step init : Int) (w : Bool) (s : State) : Prop where
  seq : s.seq = .entry
  ie : s.ie = true
  rail : s.rail = true
  operands : EntryOperands s min max step init w
  written : CfgWritten s todo min max step w

/-- A part of configure comes to the next write, or to the end of the entry action (rules R152, R185). -/
theorem Configuring.autonomousInv {todo : List CfgReg} {min max step init : Int} {w : Bool}
    (h : Configuring todo min max step init w s) (hh : halted s = false) :
    AutonomousInv (moveSeq .poll (cfgStep todo min max step init w s)) := by
  obtain ⟨hseq, hie, hrail, hoperands, hwritten⟩ := h
  cases todo with
  | nil => exact autonomousInv_poll (s := leave s) hh rfl hie (roleOf_of_cfgWritten (s := leave s) hrail hoperands hwritten)
  | cons r rest =>
    have he := cfgWrite_encoderOnly min max step init w r s
    have hwritten' := hwritten.cfgWrite init
    have hoperands' := hoperands.congr he
    rw [cfgStep]
    split
    · rename_i hrest
      subst hrest
      have hrole := roleOf_of_cfgWritten (he.rail.trans hrail) hoperands' hwritten'
      exact autonomousInv_poll (s := standAt .between _) (he.extends.halted_eq.trans hh) rfl (he.ie.trans hie)
        (hrole.congr (by constructor <;> rfl))
    · rw [moveSeq_inside (by exact nofun)]
      exact ⟨he.seq.trans hseq, he.ie.trans hie, he.rail.trans hrail, hoperands', hwritten'⟩

/-- Before configure every register is still to write. -/
theorem Configuring.start {min max step init : Int} {w : Bool} (hseq : s.seq = .entry) (hie : s.ie = true) (hrail : s.rail = true)
    (ho : EntryOperands s min max step init w) : Configuring s.params.cfgOrder.writes min max step init w s :=
  ⟨hseq, hie, hrail, ho, fun hm => absurd (mem_cfgOrder _ _) hm, fun hm => absurd (mem_cfgOrder _ _) hm,
    fun hm => absurd (mem_cfgOrder _ _) hm, fun hm => absurd (mem_cfgOrder _ _) hm⟩

/-- Main context inside ENTRY_WHITE's or ENTRY_SOLID's configure, as the invariant says it. -/
theorem AutonomousInv.configuring (h : AutonomousInv s) {todo : List CfgReg} {min max step init : Int} {w : Bool}
    (hp : s.place = .configuring todo min max step init w) : Configuring todo min max step init w s := by
  unfold AutonomousInv at h
  rw [hp] at h
  obtain ⟨hseq, hie, hrail, hoperands, hwritten⟩ := h
  exact ⟨hseq, hie, hrail, hoperands, hwritten⟩

/-- ENTRY_WHITE's configure, after the rail's write (rule R177). -/
theorem AutonomousInv.whiteRail (h : AutonomousInv s) (hp : s.place = .whiteRail) :
    Configuring s.params.cfgOrder.writes 2 15 1 s.bright.toInt false s := by
  unfold AutonomousInv at h
  rw [hp] at h
  obtain ⟨hseq, hie, hrail, hstate⟩ := h
  exact .start hseq hie hrail (.inl ⟨hstate, rfl, rfl, rfl, rfl, rfl⟩)

/-- ENTRY_SOLID's configure, on the rail that the state before it turned on (rule R179). -/
theorem RoleBeforeEntry.solid (h : RoleBeforeEntry s) (hs : s.state = .solid) (hseq : s.seq = .entry) (hie : s.ie = true) :
    Configuring s.params.cfgOrder.writes 0 48 1 s.hue.toInt true s := by
  have hrail : s.rail = true := by simpa [RoleBeforeEntry, hs] using h
  exact .start hseq hie hrail (.inr ⟨hs, rfl, rfl, rfl, rfl, rfl⟩)

theorem AutonomousInv.startEntry (h : AutonomousInv s) (hh : halted s = false) (hp : s.place = .between) (hs : s.seq = .entry) :
    AutonomousInv (Machine.moveSeq .poll (startEntry s)) := by
  obtain ⟨hie, hbefore⟩ := (autonomousInv_entry_iff hp hs).1 h
  unfold Machine.startEntry
  cases hstate : s.state with
  | off => exact autonomousInv_poll (s := entryOff s) hh hp hie (by simp [RoleOf, entryOff, hstate])
  | white =>
    dsimp only
    rw [moveSeq_inside (by exact nofun)]
    exact ⟨hs, hie, rfl, hstate⟩
  | animate => exact autonomousInv_poll hh hp hie (by simpa [RoleOf, RoleBeforeEntry, entryAnimate, hstate] using hbefore)
  | solid => exact (hbefore.solid hstate hs hie).autonomousInv hh

/-! The ticks (rules R180 to R184). -/

/-- Main context inside a tick, with interrupts enabled. -/
structure Ticking (s : State) : Prop where
  seq : s.seq = .tick
  ie : s.ie = true
  on : s.state ≠ .off
  role : RoleOf s

theorem Ticking.congr (h : Ticking s) (hseq : t.seq = s.seq := by rfl) (hie : t.ie = s.ie := by rfl)
    (hr : SameRole s t := by constructor <;> rfl) : Ticking t :=
  ⟨hseq.trans h.seq, hie.trans h.ie, hr.state ▸ h.on, h.role.congr hr⟩

/-- The places of a tick where interrupts are enabled, and the point before and after it. -/
def Place.ticking : Place → Bool
  | .configuring _ _ _ _ _ _ => false
  | .whiteRail => false
  | .sending _ _ _ _ => false
  | _ => true

theorem Ticking.autonomousInv (h : Ticking s) (hp : s.place.ticking = true) : AutonomousInv s := by
  obtain ⟨hseq, hie, hon, hrole⟩ := h
  cases hs : s.place
  case configuring | whiteRail | sending => simp [hs, Place.ticking] at hp
  case between => exact (autonomousInv_looping_iff hs (by rw [hseq]; rfl)).2 ⟨hie, hrole⟩
  all_goals simp only [AutonomousInv, hs]; exact ⟨hseq, hie, hon, hrole⟩

theorem Ticking.standAt (h : Ticking s) {p : Place} (hp : p.ticking = true) : AutonomousInv (standAt p s) :=
  Ticking.autonomousInv (s := Machine.standAt p s) h.congr hp

theorem AutonomousInv.ticking (h : AutonomousInv s) (hp : s.place.ticking = true) (hb : s.place ≠ .between) : Ticking s := by
  unfold AutonomousInv at h
  cases hs : s.place <;> rw [hs] at h hp
  case between => exact absurd hs hb
  case configuring | whiteRail | sending => cases hp
  all_goals
    obtain ⟨hseq, hie, hon, hrole⟩ := h
    exact ⟨hseq, hie, hon, hrole⟩

/-- In PL.TX's bit steps IE is saved as enabled. -/
theorem AutonomousInv.sending (h : AutonomousInv s) {bits : List Bool} {later : List Pixel} {saved shown : Bool}
    (hp : s.place = .sending bits later saved shown) : saved = true ∧ Ticking (setIe saved s) := by
  unfold AutonomousInv at h
  rw [hp] at h
  obtain ⟨hseq, rfl, hon, hrole⟩ := h
  exact ⟨rfl, hseq, rfl, hon, hrole.congr (by constructor <;> rfl)⟩

theorem TickOnly.sameRole (h : TickOnly s t) : SameRole s t := ⟨h.state, h.rail, h.encStep, h.imin, h.imax, h.wrap⟩

/-- A tick's own lines write registers of the ticks only (rules R182 to R184). -/
theorem tickOnly_tickEnd (v : Reg8) (s : State) : TickOnly s (tickEnd v s).1 := by
  unfold tickEnd
  cases s.state with
  | animate =>
    dsimp only [animateEnd]
    split <;> constructor <;> rfl
  | off | white | solid => constructor <;> rfl

theorem Ticking.tickEnd (h : Ticking s) (v : Reg8) : Ticking (tickEnd v s).1 :=
  have ho := tickOnly_tickEnd v s
  h.congr ho.seq ho.ie ho.sameRole

theorem Ticking.afterRead (h : Ticking s) (v : Reg8) : AutonomousInv (afterRead v s) := by
  have hx := h.tickEnd v
  unfold Machine.afterRead
  dsimp only
  split
  · exact Ticking.standAt (s := raise _ _) hx.congr (p := .between) rfl
  · exact hx.standAt rfl
  · exact hx.standAt rfl

theorem Ticking.loadStep (h : Ticking s) (todo : List (Fin 8 × Pixel)) : AutonomousInv (loadStep todo s) := by
  unfold Machine.loadStep
  split
  · exact h.standAt rfl
  · exact Ticking.standAt (s := load _ _ s) h.congr (by split <;> rfl)

/-- The end of a masked run restores IE (rules R124, R127). -/
theorem Ticking.unmask (h : Ticking (setIe true s)) (later : List Pixel) (shown : Bool) : AutonomousInv (unmask later true shown s) := by
  unfold Machine.unmask
  split
  · exact Ticking.standAt (s := { setIe true s with lowed := true }) h.congr (by cases shown <;> rfl)
  · exact h.standAt rfl

theorem Ticking.bitStep (h : Ticking (setIe true s)) (bits : List Bool) (later : List Pixel) (shown : Bool) :
    AutonomousInv (bitStep bits later true shown s) := by
  unfold Machine.bitStep
  split
  · exact h.unmask later shown
  · split
    · exact Ticking.unmask (s := emit _ s) h.congr later shown
    · exact ⟨h.seq, rfl, h.on, h.role.congr (by constructor <;> rfl)⟩

theorem Ticking.startBits (h : Ticking s) (bits : List Bool) (later : List Pixel) (shown : Bool) :
    AutonomousInv (startBits bits later shown s) := by
  rw [Machine.startBits, h.ie]
  exact Ticking.bitStep (s := setIe false s) (h.congr rfl h.ie.symm) bits later shown

theorem Ticking.nextPixel (h : Ticking s) (ran : Bool) (later : List Pixel) (shown : Bool) :
    AutonomousInv (nextPixel ran later shown s) := by
  unfold Machine.nextPixel
  split
  · exact h.standAt (p := .between) rfl
  · split
    · exact Ticking.startBits (s := emit .gap s) h.congr _ _ shown
    · exact h.startBits _ _ shown

theorem Ticking.startTx (h : Ticking s) (shown : Bool) : AutonomousInv (startTx shown s) := by
  unfold Machine.startTx
  split_ifs
  · exact Ticking.standAt (s := raise _ s) h.congr (p := .between) rfl
  · exact Ticking.standAt (s := raise _ s) h.congr (p := .between) rfl
  · split
    · exact h.startBits _ _ shown
    · exact h.nextPixel _ _ shown

/-- Main context's part from any place inside an operation (rules R226, R228). -/
theorem AutonomousInv.resume (h : AutonomousInv s) (hh : halted s = false) (hb : s.place ≠ .between) :
    AutonomousInv (Machine.moveSeq s.seq.after (resume s)) := by
  have htick : s.seq = .tick → AutonomousInv (Machine.resume s) → AutonomousInv (Machine.moveSeq s.seq.after (Machine.resume s)) :=
    fun hseq h => h.moveSeq (by rw [(records_resume s).seq, hseq]; rfl) (by rw [hseq]; rfl)
  unfold Machine.resume at htick ⊢
  cases hp : s.place
  all_goals simp only [hp] at htick ⊢
  case between => exact absurd hp hb
  case configuring =>
    have hc := h.configuring hp
    rw [hc.seq]
    exact hc.autonomousInv hh
  case whiteRail =>
    have hc := h.whiteRail hp
    rw [hc.seq]
    exact hc.autonomousInv hh
  case sending bits later saved shown =>
    obtain ⟨rfl, ht⟩ := h.sending hp
    exact htick ht.seq (ht.bitStep bits later shown)
  all_goals
    have ht := h.ticking (by rw [hp]; rfl) hb
    refine htick ht.seq ?_
  case read v => exact ht.afterRead v
  case loading todo => exact ht.loadStep todo
  case loaded => exact ht.startTx true
  case gap ran later shown => exact ht.nextPixel ran later shown
  case idling => exact ht.standAt (p := .between) rfl
  case sent => exact Ticking.standAt (s := { s with dout := false }) ht.congr rfl
  case latching => exact Ticking.standAt (s := { emit .latch s with lowed := false }) ht.congr (p := .between) rfl

theorem start_ctlTick (h : tickBlocked s = false) : start .ctlTick s = .next (startTick s) := by simp [start, h]

theorem AutonomousInv.startTick (h : AutonomousInv s) (hp : s.place = .between) (hs : s.seq = .tick) :
    AutonomousInv (startTick s) := by
  obtain ⟨hie, hrole⟩ := (autonomousInv_looping_iff hp (by rw [hs]; rfl)).1 h
  have hread : s.state ≠ .off → AutonomousInv (Machine.standAt (.read (position s)) (get s)) := fun hon =>
    Ticking.standAt (s := get s) (Ticking.congr ⟨hs, hie, hon, hrole⟩) rfl
  unfold Machine.startTick
  cases hstate : s.state with
  | off => exact h
  | white | animate | solid => exact hread (by simp [hstate])

/-! The turns. -/

/-- Main context's turn at its point, up to the operation's first preemption point (rules R185, R226). -/
theorem AutonomousInv.mainTurn (h : AutonomousInv s) (hh : halted s = false) (hp : s.place = .between)
    (he : mainTurn start s = .next t) : AutonomousInv t := by
  have hloop : s.seq.looping = true → ∀ p : Point, p.looping = true → AutonomousInv (Machine.moveSeq p s) := fun hs _ => h.moveSeq hs
  rcases mainTurn_next he with ⟨hs, rfl⟩ | ⟨hs, u, hu, rfl⟩ | ⟨hs, rfl⟩ | ⟨-, -, rfl⟩ | ⟨hs, hb, u, hu, rfl⟩ |
    ⟨hs, rfl⟩ | ⟨hs, rfl⟩ | ⟨hs, rfl⟩ | ⟨hs, u, hu, rfl⟩ | ⟨k, hs, -⟩
  · have hoff : s.state = .off := by simpa [AutonomousInv, hp, hs] using h
    exact (autonomousInv_entry_iff (s := bootPoint s) hp rfl).2 ⟨rfl, by simp [RoleBeforeEntry, hoff]⟩
  · obtain rfl := Host.Outcome.next.inj hu
    exact h.startEntry hh hp hs
  · exact hloop (by rw [hs]; rfl) _ (by split <;> rfl)
  · exact h
  · have htick := h.startTick hp hs
    obtain rfl := Host.Outcome.next.inj ((start_ctlTick hb).symm.trans hu)
    exact htick.moveSeq (by rw [(extends_startTick s).seq, hs]; rfl) rfl
  · exact hloop (by rw [hs]; rfl) _ rfl
  · split
    · exact h
    · exact hloop (by rw [hs]; rfl) _ rfl
  · exact hloop (by rw [hs]; rfl) _ rfl
  · obtain rfl := Host.Outcome.next.inj hu
    obtain ⟨hie, hrole⟩ := (autonomousInv_looping_iff hp (by rw [hs]; rfl)).1 h
    rw [moveSeq_running (s := advance s) hh hp]
    refine (autonomousInv_entry_iff (s := { advance s with seq := .entry }) hp rfl).2 ⟨hie, ?_⟩
    exact hrole.advance.congr (by constructor <;> rfl)
  · exact absurd hs (h.not_word k)

theorem AutonomousInv.mainPart (h : AutonomousInv s) (hh : halted s = false) (he : mainPart s = .next t) : AutonomousInv t := by
  rcases mainPart_next he with ⟨hp, he⟩ | ⟨hp, rfl⟩
  · exact h.mainTurn hh hp he
  · exact h.resume hh hp

/-- A handler run leaves the invariant, at the gap between two pixels too (rules R127, R228). -/
theorem AutonomousInv.handlerTurn (h : AutonomousInv s) : AutonomousInv (handlerTurn s) := by
  have ht := h.others (takeInterrupt_othersOnly s)
  cases hp : s.place
  case gap ran later shown =>
    rw [Machine.handlerTurn, hp]
    exact Ticking.standAt (ht.ticking (by rw [takeInterrupt_place, hp]; rfl) (by rw [takeInterrupt_place, hp]; exact nofun)) rfl
  all_goals
    rw [handlerTurn_eq_takeInterrupt (by rw [hp]; rfl)]
    exact ht

theorem AutonomousInv.turnStep (h : AutonomousInv s) (hh : halted s = false) (he : turnStep s = .next t) : AutonomousInv t := by
  obtain ⟨l, -, hturn⟩ := turnStep_next he
  have hl : AutonomousInv (atPace l s) := h
  rcases hturn with ⟨-, ⟨a, b, rfl⟩ | ⟨v, rfl⟩⟩ | ⟨-, rfl⟩ | ⟨-, he⟩
  · exact hl.others (setPins_envOnly a b _).toOthers
  · exact hl.others (setBtn_envOnly v _).toOthers
  · exact hl.handlerTurn
  · exact hl.mainPart hh he

/-- Settles O57: every single turn keeps the invariant (`AutonomousInv.turnStep`), and so every step (`step_induct`). -/
theorem autonomousInvIsKept : Obligations.AutonomousInvIsKept := by
  unfold Obligations.AutonomousInvIsKept
  exact fun s t => step_induct (fun _ _ _ h => h) fun _ _ hh h he => h.turnStep hh he

end Sys2Proof.Machine

/-! Proofs about the Controller's ranges: with POS written last every step of autonomous mode answers a next state in them
(rules R172, R189, R257). -/

namespace Sys2Proof.Machine

variable {s t : State}

/-! The position in the range of the Controller state's configuration (rules R188, R189). -/

/-- The Encoder holds the configuration of the Controller state: after BOOT, and before an entry action in ANIMATE only, which inherits it
(rules R178, R192). -/
def RoleStands (s : State) : Prop := s.seq ≠ .boot ∧ (s.seq = .entry → s.state = .animate)

/-- ANIMATE's entry action configures nothing (rule R178). -/
theorem Configuring.state_ne_animate {todo : List CfgReg} {min max step init : Int} {w : Bool}
    (h : Configuring todo min max step init w s) : s.state ≠ .animate := by
  intro hs
  have ho := h.operands
  simp [EntryOperands, hs] at ho

theorem AutonomousInv.roleOf (h : AutonomousInv s) (hr : RoleStands s) : RoleOf s := by
  obtain ⟨hboot, hentry⟩ := hr
  cases hp : s.place
  case between =>
    by_cases hs : s.seq = .entry
    · obtain ⟨-, hbefore⟩ := (autonomousInv_entry_iff hp hs).1 h
      simpa [RoleOf, RoleBeforeEntry, hentry hs] using hbefore
    · have hl : s.seq.looping = true := by
        cases hseq : s.seq
        case boot => exact absurd hseq hboot
        case entry => exact absurd hseq hs
        case word k => exact absurd hseq (h.not_word k)
        all_goals rfl
      exact ((autonomousInv_looping_iff hp hl).1 h).2
  case configuring =>
    have hc := h.configuring hp
    exact absurd (hentry hc.seq) hc.state_ne_animate
  case whiteRail =>
    have hc := h.whiteRail hp
    exact absurd (hentry hc.seq) hc.state_ne_animate
  case sending =>
    obtain ⟨-, ht⟩ := h.sending hp
    exact ht.role.congr (by constructor <;> rfl)
  all_goals exact (h.ticking (by rw [hp]; rfl) (by rw [hp]; exact nofun)).role

theorem ControllerInv.posInRole (h : ControllerInv s) (hr : RoleStands s) : PosInRole s := by
  by_cases hs : s.seq = .entry
  · exact h.posEntry hs (hr.2 hs)
  · exact h.pos hr.1 hs

/-- In the role of its state, the position is in range when it is between the Encoder's bounds. -/
theorem posInRole_iff (h : RoleOf s) :
    PosInRole s ↔ (s.state ≠ .off → s.imin.toInt ≤ s.pos.toInt ∧ s.pos.toInt ≤ s.imax.toInt) := by
  unfold RoleOf WhiteCfg SolidCfg at h
  unfold PosInRole
  cases hs : s.state <;> simp only [hs] at h ⊢
  case off => simp
  all_goals
    obtain ⟨-, himin, himax, -, -⟩ := h
    simp [himin, himax]

theorem RoleOf.ordered (h : RoleOf s) (hon : s.state ≠ .off) : s.imin.toInt ≤ s.imax.toInt := by
  unfold RoleOf WhiteCfg SolidCfg at h
  cases hs : s.state <;> simp only [hs] at h
  case off => exact absurd hs hon
  all_goals
    obtain ⟨-, himin, himax, -, -⟩ := h
    simp [himin, himax]

/-- A handler run keeps the position between the bounds (rule R147). -/
theorem PosInRole.takeInterrupt (h : PosInRole s) (hr : RoleOf s) : PosInRole (takeInterrupt s) := by
  rw [posInRole_iff (hr.congr (takeInterrupt_othersOnly s).sameRole)]
  rw [posInRole_iff hr] at h
  intro hon
  rw [takeInterrupt_state] at hon
  rw [takeInterrupt_imin, takeInterrupt_imax]
  obtain ⟨la, lb, leq, pos, e, rfl | ⟨eq, rfl⟩⟩ := takeInterrupt_cases s <;> rw [e]
  · exact h hon
  · dsimp only
    rw [steppedPos_toInt]
    exact bound_mem (hr.ordered hon) _ _

/-- What a tick reads of a position in range (rules R151, R189). -/
theorem PosInRole.readInRole (h : PosInRole s) : ReadInRole s (position s) := by
  have hread : ∀ lo hi : Int, 0 ≤ lo → hi ≤ 254 → lo ≤ s.pos.toInt ∧ s.pos.toInt ≤ hi →
      lo / 2 ≤ (position s).toInt ∧ (position s).toInt ≤ hi / 2 := by
    intro lo hi hlo hhi hpos
    rw [position_toInt ⟨by omega, by omega⟩, div2_eq_ediv_of_nonneg (by omega)]
    omega
  unfold PosInRole at h
  unfold ReadInRole
  cases hs : s.state <;> simp only [hs] at h ⊢
  case white | animate => exact hread 4 30 (by decide) (by decide) h
  case solid => exact hread 0 96 (by decide) (by decide) h

/-! The other agents. -/

/-- What the other agents change keeps the ranges where it keeps the position's. -/
theorem ControllerInv.others (h : ControllerInv s) (ho : OthersOnly s t) (hpos : RoleOf s → PosInRole s → PosInRole t) :
    ControllerInv t where
  auto := h.auto.others ho
  posLast := ho.params ▸ h.posLast
  bright := ho.bright ▸ h.bright
  hue := ho.hue ▸ h.hue
  pos := fun hb he => by
    have hr : RoleStands s := ⟨ho.seq ▸ hb, fun hs => absurd (ho.seq.trans hs) he⟩
    exact hpos (h.auto.roleOf hr) (h.posInRole hr)
  posEntry := fun he ha => by
    have hs := ho.seq.symm.trans he
    have hr : RoleStands s := ⟨by rw [hs]; exact nofun, fun _ => ho.state.symm.trans ha⟩
    exact hpos (h.auto.roleOf hr) (h.posInRole hr)
  place := by simpa only [PlaceInRole, ReadInRole, ho.place, ho.fbw, ho.state] using h.place
  latched := by simpa only [ho.lowed, ho.place] using h.latched
  running := (halted_congr ho.faults ho.refused).trans h.running

theorem ControllerInv.env (h : ControllerInv s) (ho : EnvOnly s t) : ControllerInv t :=
  h.others ho.toOthers fun _ hpos => by simpa only [PosInRole, ho.state, ho.pos] using hpos

theorem ControllerInv.handlerTurn (h : ControllerInv s) : ControllerInv (handlerTurn s) := by
  have ht : ControllerInv (takeInterrupt s) := h.others (takeInterrupt_othersOnly s) fun hr hpos => hpos.takeInterrupt hr
  have hauto := h.auto.handlerTurn
  cases hp : s.place
  case gap ran later shown =>
    have hshown : shown = true := by simpa [PlaceInRole, hp] using h.place
    refine ⟨hauto, ht.posLast, ht.bright, ht.hue, ht.pos, ht.posEntry, ?_, fun hl => ?_, ht.running⟩
    · rw [Machine.handlerTurn, hp]
      exact hshown
    · exact absurd (ht.latched hl) (by simp [hp])
  all_goals
    rw [handlerTurn_eq_takeInterrupt (by rw [hp]; rfl)]
    exact ht

/-! The parts of a tick (rules R172, R180 to R184). -/

/-- The Controller's ranges, with the position in that of the Controller state, in a running machine (rule R189). -/
structure Ranged (s : State) : Prop where
  posLast : PosLast s.params.cfgOrder
  bright : 2 ≤ s.bright.toInt ∧ s.bright.toInt ≤ 15
  hue : 0 ≤ s.hue.toInt ∧ s.hue.toInt ≤ 48
  pos : PosInRole s
  running : halted s = false

/-- The ranges with what main context's place says beside them (rule R172). -/
structure RangedAt (s : State) : Prop extends Ranged s where
  place : PlaceInRole s
  latched : s.lowed = true → s.place = .sent ∨ s.place = .latching

theorem ControllerInv.rangedAt (h : ControllerInv s) (hr : RoleStands s) : RangedAt s :=
  ⟨⟨h.posLast, h.bright, h.hue, h.posInRole hr, h.running⟩, h.place, h.latched⟩

/-- A latch is owed at two places of SHOW only (rule R172). -/
theorem lowed_eq_false_of_place (h : s.lowed = true → s.place = .sent ∨ s.place = .latching) (hs : s.place ≠ .sent)
    (hl : s.place ≠ .latching) : s.lowed = false :=
  Bool.eq_false_iff.2 fun ho => (h ho).elim hs hl

theorem RangedAt.controllerInv (h : RangedAt s) (ha : AutonomousInv s) : ControllerInv s :=
  ⟨ha, h.posLast, h.bright, h.hue, fun _ _ => h.pos, fun _ _ => h.pos, h.place, h.latched, h.running⟩

theorem RangedAt.moveSeq (h : RangedAt s) (p : Point) : RangedAt (moveSeq p s) :=
  ⟨⟨h.posLast, h.bright, h.hue, h.pos, h.running⟩, h.place, h.latched⟩

theorem Ranged.congr (h : Ranged s) (hparams : t.params = s.params := by rfl) (hbright : t.bright = s.bright := by rfl)
    (hhue : t.hue = s.hue := by rfl) (hstate : t.state = s.state := by rfl) (hpos : t.pos = s.pos := by rfl)
    (hfaults : t.faults = s.faults := by rfl) (hrefused : t.refused = s.refused := by rfl) : Ranged t where
  posLast := hparams ▸ h.posLast
  bright := hbright ▸ h.bright
  hue := hhue ▸ h.hue
  pos := by simpa only [PosInRole, hstate, hpos] using h.pos
  running := (halted_congr hfaults hrefused).trans h.running

/-- Main context comes to a place where no latch is owed. -/
theorem Ranged.standAt (h : Ranged s) {p : Place} (hl : s.lowed = false) (hp : PlaceInRole (standAt p s)) : RangedAt (standAt p s) :=
  ⟨h.congr, hp, fun ho => nomatch hl.symm.trans ho⟩

/-- A brightness in the Controller's range is in the colour functions' domain (rules R189, R193). -/
theorem exists_brightArg {b : Reg8} (h : 2 ≤ b.toInt ∧ b.toInt ≤ 15) : ∃ v, brightArg b = some v := by
  refine Option.ne_none_iff_exists'.1 fun hnone => ?_
  have := brightArg_none.1 hnone
  omega

/-- The same of a hue. -/
theorem exists_hueArg {v : Reg8} (h : 0 ≤ v.toInt ∧ v.toInt ≤ 48) : ∃ x, hueArg v = some x := by
  refine Option.ne_none_iff_exists'.1 fun hnone => ?_
  have := hueArg_none.1 hnone
  omega

/-- A tick's own lines keep the ranges, and pass the colour functions arguments in their domains (rules R189, R193). -/
theorem Ranged.tickEnd (h : Ranged s) {v : Reg8} (hv : ReadInRole s v) :
    Ranged (tickEnd v s).1 ∧ (tickEnd v s).2 ≠ .outOfDomain := by
  obtain ⟨b, hb⟩ := exists_brightArg h.bright
  unfold ReadInRole at hv
  unfold Machine.tickEnd
  cases hs : s.state <;> simp only [hs] at hv ⊢
  case off => exact ⟨h, nofun⟩
  case white =>
    refine ⟨⟨h.posLast, hv, h.hue, h.pos, h.running⟩, ?_⟩
    obtain ⟨b', hb'⟩ := exists_brightArg hv
    simp [whiteEnd, hb']
  case animate =>
    unfold animateEnd
    split
    · exact ⟨h.congr, by simp [hb]⟩
    · exact ⟨h.congr, nofun⟩
  case solid =>
    refine ⟨⟨h.posLast, h.bright, hv, h.pos, h.running⟩, ?_⟩
    obtain ⟨x, hx⟩ := exists_hueArg hv
    simp [solidEnd, hb, hx]

theorem mem_pixelIndices (i : Fin 8) : i ∈ pixelIndices := by revert i; decide

theorem Ranged.afterRead (h : Ranged s) (hl : s.lowed = false) {v : Reg8} (hv : ReadInRole s v) : RangedAt (afterRead v s) := by
  obtain ⟨hx, hdomain⟩ := h.tickEnd hv
  have hlx : (Machine.tickEnd v s).1.lowed = false := (sameLink_tickEnd v s).lowed.trans hl
  unfold Machine.afterRead
  dsimp only
  split
  · exact absurd ‹_› hdomain
  · exact hx.standAt hlx trivial
  · exact hx.standAt hlx fun i => .inr ⟨_, List.mem_map_of_mem (mem_pixelIndices i)⟩

/-- A load writes its entry, and the loads still to do write the others (rules R123, R172). -/
theorem written_or_mem_of_load {i : Fin 8} {w : Pixel} {rest : List (Fin 8 × Pixel)}
    (h : ∀ j : Fin 8, s.fbw[j] = true ∨ ∃ v, (j, v) ∈ (i, w) :: rest) (j : Fin 8) :
    (load i w s).fbw[j] = true ∨ ∃ v, (j, v) ∈ rest := by
  by_cases hj : j = i
  · subst hj
    exact .inl (Vector.getElem_set_self _)
  · refine (h j).imp (fun hw => ?_) fun ⟨v, hv⟩ => ⟨v, ?_⟩
    · exact (Vector.getElem_set_ne i.isLt j.isLt fun e => hj (Fin.ext e.symm)).trans hw
    · simpa [hj] using hv

theorem Ranged.loadStep (h : Ranged s) (hl : s.lowed = false) {todo : List (Fin 8 × Pixel)}
    (htodo : ∀ i : Fin 8, s.fbw[i] = true ∨ ∃ w, (i, w) ∈ todo) : RangedAt (loadStep todo s) := by
  unfold Machine.loadStep
  split
  · exact h.standAt hl fun i => (htodo i).resolve_right (by simp)
  · rename_i i w rest
    have hload := written_or_mem_of_load htodo
    refine Ranged.standAt (s := load i w s) h.congr hl ?_
    split
    · rename_i hrest
      subst hrest
      exact fun j => (hload j).resolve_right (by simp)
    · exact hload

theorem Ranged.unmask (h : Ranged s) (hl : s.lowed = false) (later : List Pixel) (saved : Bool) :
    RangedAt (unmask later saved true s) := by
  unfold Machine.unmask
  split
  · exact ⟨h.congr, trivial, fun _ => .inl rfl⟩
  · exact Ranged.standAt (s := setIe saved s) h.congr hl rfl

theorem Ranged.bitStep (h : Ranged s) (hl : s.lowed = false) (bits : List Bool) (later : List Pixel) (saved : Bool) :
    RangedAt (bitStep bits later saved true s) := by
  have hemit : ∀ x, Ranged (emit x s) := fun _ => h.congr
  unfold Machine.bitStep
  split
  · exact h.unmask hl later saved
  · split
    · exact (hemit _).unmask hl later saved
    · exact (hemit _).standAt hl rfl

theorem Ranged.nextPixel (h : Ranged s) (hl : s.lowed = false) (ran : Bool) (later : List Pixel) :
    RangedAt (nextPixel ran later true s) := by
  unfold Machine.nextPixel
  split
  · exact h.standAt (p := .between) hl trivial
  · split
    · exact Ranged.bitStep (s := setIe false (emit .gap s)) h.congr hl _ _ _
    · exact Ranged.bitStep (s := setIe false s) h.congr hl _ _ _

/-- PL.TX of SHOW finds the frame written and no latch owed (rules R124, R172). -/
theorem Ranged.startTx (h : Ranged s) (hl : s.lowed = false) (hw : ∀ i : Fin 8, s.fbw[i] = true) : RangedAt (startTx true s) := by
  rw [startTx_written true hl ((frameWritten_iff s).2 hw)]
  split
  · exact Ranged.bitStep (s := setIe false s) h.congr hl _ _ _
  · exact h.nextPixel hl _ _

/-- Main context's part from a place of a tick. -/
theorem RangedAt.resume (h : RangedAt s) (ha : AutonomousInv s) (htick : s.seq = .tick) : RangedAt (resume s) := by
  have hr : Ranged s := h.toRanged
  have hplace := h.place
  have hl := lowed_eq_false_of_place h.latched
  unfold PlaceInRole at hplace
  unfold Machine.resume
  cases hs : s.place <;> rw [hs] at hplace hl
  case between => exact h
  case configuring => exact nomatch htick.symm.trans (ha.configuring hs).seq
  case whiteRail => exact nomatch htick.symm.trans (ha.whiteRail hs).seq
  case sent => exact ⟨hr.congr, trivial, fun _ => .inr rfl⟩
  case latching => exact ⟨hr.congr, trivial, nofun⟩
  all_goals replace hl : s.lowed = false := hl nofun nofun
  case read v => exact hr.afterRead hl hplace
  case idling => exact hr.standAt (p := .between) hl trivial
  case loading todo => exact hr.loadStep hl hplace
  case loaded => exact hr.startTx hl hplace
  case sending bits later saved shown =>
    obtain rfl : shown = true := hplace
    exact hr.bitStep hl bits later saved
  case gap ran later shown =>
    obtain rfl : shown = true := hplace
    exact hr.nextPixel hl ran later

theorem RangedAt.startTick (h : RangedAt s) (hp : s.place = .between) : RangedAt (startTick s) := by
  have hl := lowed_eq_false_of_place h.latched (by simp [hp]) (by simp [hp])
  have hread : RangedAt (Machine.standAt (.read (position s)) (get s)) :=
    Ranged.standAt (s := get s) h.toRanged.congr hl h.pos.readInRole
  unfold Machine.startTick
  cases s.state with
  | off => exact h
  | white | animate | solid => exact hread

/-! The entry action (rules R175 to R179, R257). -/

/-- The position that an entry action writes last is in the range of its configuration (rules R177, R179, R189). -/
theorem posInRole_of_operands {min max step init : Int} {w : Bool} (ho : EntryOperands s min max step init w)
    (hbright : 2 ≤ s.bright.toInt ∧ s.bright.toInt ≤ 15) (hhue : 0 ≤ s.hue.toInt ∧ s.hue.toInt ≤ 48)
    (hpos : s.pos = doubled init) : PosInRole s := by
  rcases ho with ⟨hs, -, -, -, rfl, -⟩ | ⟨hs, -, -, -, rfl, -⟩
  · simp only [PosInRole, hs, hpos, doubled_toInt (toInt_range8 _)]
    omega
  · simp only [PosInRole, hs, hpos, doubled_toInt (toInt_range8 _)]
    omega

/-- A part of an entry action's configure, with POS still to write (rules R152, R257). -/
theorem ControllerInv.cfgStep (h : ControllerInv s) (hl : s.lowed = false) {todo : List CfgReg} {min max step init : Int} {w : Bool}
    (hc : Configuring todo min max step init w s) (hlast : todo.getLast? = some .pos) :
    ControllerInv (Machine.moveSeq .poll (cfgStep todo min max step init w s)) := by
  have hauto := hc.autonomousInv h.running
  cases todo with
  | nil => exact nomatch hlast
  | cons r rest =>
    have he := cfgWrite_encoderOnly min max step init w r s
    have hrun : halted (cfgWrite min max step init w r s) = false := he.extends.halted_eq.trans h.running
    rw [Machine.cfgStep] at hauto ⊢
    split at hauto
    · rename_i hrest
      subst hrest
      obtain rfl : r = .pos := by simpa using hlast
      rw [if_pos rfl]
      have hpos := posInRole_of_operands (hc.operands.congr he) (he.bright ▸ h.bright) (he.hue ▸ h.hue) rfl
      have hr : Ranged (cfgWrite min max step init w .pos s) := ⟨h.posLast, h.bright, h.hue, hpos, hrun⟩
      exact ((hr.standAt (p := .between) hl trivial).moveSeq .poll).controllerInv hauto
    · rename_i hrest
      rw [if_neg hrest]
      rw [moveSeq_inside (by exact nofun)] at hauto ⊢
      have hlast' : rest.getLast? = some .pos := by
        obtain ⟨r', rest', rfl⟩ := List.exists_cons_of_ne_nil hrest
        simpa using hlast
      exact ⟨hauto, he.params ▸ h.posLast, he.bright ▸ h.bright, he.hue ▸ h.hue, fun _ hs => absurd (he.seq.trans hc.seq) hs,
        fun _ hs => absurd (he.state.symm.trans hs) hc.state_ne_animate, hlast',
        (fun ho => nomatch (he.lowed.trans hl).symm.trans ho), hrun⟩

theorem ControllerInv.startEntry (h : ControllerInv s) (hp : s.place = .between) (hs : s.seq = .entry) :
    ControllerInv (Machine.moveSeq .poll (startEntry s)) := by
  have hauto := h.auto.startEntry h.running hp hs
  obtain ⟨hie, hbefore⟩ := (autonomousInv_entry_iff hp hs).1 h.auto
  have hl := lowed_eq_false_of_place h.latched (by simp [hp]) (by simp [hp])
  unfold Machine.startEntry at hauto ⊢
  cases hstate : s.state <;> simp only [hstate] at hauto ⊢
  case off =>
    have hpos : PosInRole (entryOff s) := by simp [PosInRole, entryOff, hstate]
    have hr : RangedAt (entryOff s) := ⟨⟨h.posLast, h.bright, h.hue, hpos, h.running⟩, h.place, h.latched⟩
    exact (hr.moveSeq .poll).controllerInv hauto
  case white =>
    rw [moveSeq_inside (by exact nofun)] at hauto ⊢
    exact ⟨hauto, h.posLast, h.bright, h.hue, fun _ hn => absurd hs hn, (fun _ ha => nomatch hstate.symm.trans ha), trivial,
      (fun ho => nomatch hl.symm.trans ho), h.running⟩
  case animate =>
    have hr : RoleStands s := ⟨by rw [hs]; exact nofun, fun _ => hstate⟩
    exact ((h.rangedAt hr).moveSeq .poll).controllerInv hauto
  case solid => exact h.cfgStep hl (hbefore.solid hstate hs hie) h.posLast

/-! The turns. -/

theorem roleStands_of_looping (h : s.seq.looping = true) : RoleStands s :=
  ⟨fun hs => by simp [hs, Point.looping] at h, fun hs => by simp [hs, Point.looping] at h⟩

/-- The position stays in range when ANIMATE inherits WHITE's configuration (rules R178, R192). -/
theorem PosInRole.advance (h : PosInRole s) (ha : (advance s).state = .animate) : PosInRole (advance s) := by
  have hs : s.state = .white := by
    revert ha
    rw [advance_state]
    cases s.state <;> decide
  unfold PosInRole at h ⊢
  rw [hs] at h
  rw [ha]
  exact h

/-- Main context's turn at its point, up to the operation's first preemption point (rules R185, R226). -/
theorem ControllerInv.mainTurn (h : ControllerInv s) (hp : s.place = .between) (he : mainTurn start s = .next t) : ControllerInv t := by
  have hauto := h.auto.mainTurn h.running hp he
  have hranged : s.seq.looping = true → RangedAt s := fun hl => h.rangedAt (roleStands_of_looping hl)
  rcases mainTurn_next he with ⟨hs, rfl⟩ | ⟨hs, u, hu, rfl⟩ | ⟨hs, rfl⟩ | ⟨-, -, rfl⟩ | ⟨hs, hb, u, hu, rfl⟩ |
    ⟨hs, rfl⟩ | ⟨hs, rfl⟩ | ⟨hs, rfl⟩ | ⟨hs, u, hu, rfl⟩ | ⟨k, hs, -⟩
  · have hoff : s.state = .off := by simpa [AutonomousInv, hp, hs] using h.auto
    exact ⟨hauto, h.posLast, h.bright, h.hue, fun _ hn => absurd rfl hn, (fun _ ha => nomatch hoff.symm.trans ha), h.place,
      h.latched, h.running⟩
  · obtain rfl := Host.Outcome.next.inj hu
    exact h.startEntry hp hs
  · exact ((hranged (by rw [hs]; rfl)).moveSeq _).controllerInv hauto
  · exact h
  · obtain rfl := Host.Outcome.next.inj ((start_ctlTick hb).symm.trans hu)
    exact (((hranged (by rw [hs]; rfl)).startTick hp).moveSeq _).controllerInv hauto
  · exact ((hranged (by rw [hs]; rfl)).moveSeq _).controllerInv hauto
  · have hr := hranged (by rw [hs]; rfl)
    have hwait : RangedAt (if s.pinBtn then s else Machine.moveSeq .deb2 s) := by
      split
      · exact hr
      · exact hr.moveSeq _
    exact hwait.controllerInv hauto
  · exact ((hranged (by rw [hs]; rfl)).moveSeq _).controllerInv hauto
  · obtain rfl := Host.Outcome.next.inj hu
    have hpos := (hranged (by rw [hs]; rfl)).pos
    rw [moveSeq_running (s := advance s) h.running hp] at hauto ⊢
    exact ⟨hauto, h.posLast, h.bright, h.hue, fun _ hn => absurd rfl hn, fun _ ha => hpos.advance ha, by simp [PlaceInRole, hp],
      h.latched, h.running⟩
  · exact absurd hs (h.auto.not_word k)

theorem ControllerInv.resume (h : ControllerInv s) (hb : s.place ≠ .between) :
    ControllerInv (Machine.moveSeq s.seq.after (resume s)) := by
  have hauto := h.auto.resume h.running hb
  have hl := lowed_eq_false_of_place h.latched
  have htick : s.seq = .tick → ControllerInv (Machine.moveSeq s.seq.after (Machine.resume s)) := fun hs =>
    (((h.rangedAt (roleStands_of_looping (by rw [hs]; rfl))).resume h.auto hs).moveSeq _).controllerInv hauto
  cases hp : s.place
  case between => exact absurd hp hb
  case configuring todo min max step init w =>
    have hc := h.auto.configuring hp
    rw [hc.seq, Machine.resume, hp]
    exact h.cfgStep (hl (by simp [hp]) (by simp [hp])) hc (by simpa [PlaceInRole, hp] using h.place)
  case whiteRail =>
    have hc := h.auto.whiteRail hp
    rw [hc.seq, Machine.resume, hp]
    exact h.cfgStep (hl (by simp [hp]) (by simp [hp])) hc h.posLast
  case sending =>
    obtain ⟨-, ht⟩ := h.auto.sending hp
    exact htick ht.seq
  all_goals
    have ht := h.auto.ticking (by rw [hp]; rfl) hb
    exact htick ht.seq

theorem ControllerInv.mainPart (h : ControllerInv s) (he : mainPart s = .next t) : ControllerInv t := by
  rcases mainPart_next he with ⟨hp, he⟩ | ⟨hp, rfl⟩
  · exact h.mainTurn hp he
  · exact h.resume hp

/-- The ranges read neither the schedule nor the pace. -/
theorem ControllerInv.atPace (h : ControllerInv s) (c : List (List Move)) (l : Option (List Turn)) :
    ControllerInv { s with sched := c, turns := l } :=
  ⟨h.auto, h.posLast, h.bright, h.hue, h.pos, h.posEntry, h.place, h.latched, h.running⟩

/-- A single turn, of whichever agent, keeps the Controller's ranges. -/
theorem ControllerInv.turnStep (h : ControllerInv s) (he : turnStep s = .next t) : ControllerInv t := by
  obtain ⟨l, -, hturn⟩ := turnStep_next he
  have hl : ControllerInv (Machine.atPace l s) := h.atPace s.sched l
  rcases hturn with ⟨-, ⟨a, b, rfl⟩ | ⟨v, rfl⟩⟩ | ⟨-, rfl⟩ | ⟨-, he⟩
  · exact hl.env (setPins_envOnly a b _)
  · exact hl.env (setBtn_envOnly v _)
  · exact hl.handlerTurn
  · exact hl.mainPart he

/-- Settles O58: nothing stops main context outside a script (`step_next_of_no_pointStop`), and every single turn keeps the ranges
(`ControllerInv.turnStep`), and so every step (`step_induct`). -/
theorem controllerNeverFaults : Obligations.ControllerNeverFaults := by
  unfold Obligations.ControllerNeverFaults
  intro s h
  obtain ⟨t, ht⟩ := step_next_of_no_pointStop h.running fun _ _ f hf =>
    let ⟨k, hk⟩ := hf.word
    h.auto.not_word k hk
  exact ⟨t, ht, step_induct (P := ControllerInv) (fun _ c l h => h.atPace c l) (fun _ _ _ h he => h.turnStep he) h ht⟩

end Sys2Proof.Machine

/-! Proofs about a script's words, the mask and the environment: what a step does with the word it decodes (rule R217), what the SYS and ENV
operations write (rules R211 to R214), and the dispatch that an unmasked edge gets (rule R225). -/

namespace Sys2Proof.Machine

variable {s : State}

/-- At a decoded word with no dispatch enabled the step is the operation, then the move of SEQ (rule R217; log 23). -/
theorem step_of_decode_ok {k : Nat} {w : CommandWord} {i : Instr} (hh : halted s = false) (hw : WholePace s)
    (hd : dispatchEnabled s = false) (hk : s.seq = .word k) (hword : s.program[k]? = some w) (hi : decode w = .ok i) :
    step s = thenSeq (.word (k + 1)) (exec i s) := by
  have hothers : (othersMove s).1 = s := by rw [othersMove_word hk]
  have hmain : mainTurn exec s = scriptTurn exec k s := by rw [mainTurn, hk]
  rw [step_of_quiet hh hw (by rw [hothers, hd]), hothers, hmain, scriptTurn_of_ok hword hi]

/-- A dispatch that is enabled at a script's word is the step (rule R225). -/
theorem step_of_dispatch_at_word {k : Nat} (hh : halted s = false) (hw : WholePace s) (hk : s.seq = .word k)
    (hd : dispatchEnabled s = true) : step s = .next (takeInterrupt s) := by
  rw [step_whole hh hw, othersMove_word hk, agentTurn, if_pos hd]

theorem pendingAfter_eq_true {a b : Bool} (h : a ≠ s.pinA ∨ b ≠ s.pinB) : pendingAfter a b s = true := by
  simpa [pendingAfter] using .inr h

theorem setPins_of_change {a b : Bool} (h : a ≠ s.pinA ∨ b ≠ s.pinB) :
    setPins a b s = { s with pinA := a, pinB := b, ipend := true } := by
  rw [setPins, pendingAfter_eq_true h]

/-- Levels that the lines already have are no edge (rule R213). -/
theorem setPins_self (s : State) : setPins s.pinA s.pinB s = s := by simp [setPins, pendingAfter]

/-- Settles O46: each operation is its one register write (`setIe`, `setBtn`). -/
theorem maskAndButtonWriteOneRegister : Obligations.MaskAndButtonWriteOneRegister := by
  unfold Obligations.MaskAndButtonWriteOneRegister
  exact fun _ => ⟨rfl, rfl, fun _ => rfl⟩

/-- Settles O47: `setPins_of_change`, and `setPins_self` where both lines keep their levels. -/
theorem pinChangeSetsPending : Obligations.PinChangeSetsPending := by
  unfold Obligations.PinChangeSetsPending
  refine fun s a b => ⟨fun h => congrArg Host.Outcome.next (setPins_of_change h), ?_⟩
  rintro rfl rfl
  exact congrArg Host.Outcome.next (setPins_self s)

/-- Settles O10: `step_of_decode_ok`, where the operation leaves main context between two operations (`exec_place`), so that only a
record keeps SEQ (`moveSeq_eq_ite`). -/
theorem stepRunsDecodedWord : Obligations.StepRunsDecodedWord := by
  unfold Obligations.StepRunsDecodedWord
  intro s k w i hh hw hd hk hword hi
  rw [step_of_decode_ok hh hw hd hk hword hi]
  cases he : exec i s with
  | next t => exact congrArg Host.Outcome.next (moveSeq_eq_ite ((exec_place he).1.trans hw.2))
  | fault f => rfl
  | refused r => rfl

/-- At SYS.SEI with interrupts masked the step sets IE, leaves IPEND and goes on to the next word (rules R212, R217). -/
theorem step_sysSei_of_masked {k : Nat} {w : CommandWord} (hh : halted s = false) (hw : WholePace s) (hie : s.ie = false)
    (hk : s.seq = .word k) (hword : s.program[k]? = some w) (hi : decode w = .ok .sysSei) :
    step s = .next { s with ie := true, seq := .word (k + 1) } := by
  rw [step_of_decode_ok hh hw (by simp [dispatchEnabled, hie]) hk hword hi]
  exact congrArg Host.Outcome.next (moveSeq_running (s := setIe true s) hh hw.2)

/-- Settles O49: SYS.SEI unmasks the pending flag (`step_sysSei_of_masked`), so that the dispatch is the next step
(`step_of_dispatch_at_word`), which is ENC.EDGE with IPEND cleared (`takeInterrupt_eq_edge`). -/
theorem deferredEdgeRunsAfterSei : Obligations.DeferredEdgeRunsAfterSei := by
  unfold Obligations.DeferredEdgeRunsAfterSei
  intro s k w hh hw hie hip hk hword hi
  exact ⟨_, _, _, step_sysSei_of_masked hh hw hie hk hword hi, rfl, rfl, step_of_dispatch_at_word hh hw rfl hip,
    takeInterrupt_eq_edge _, takeInterrupt_seq _, takeInterrupt_ie _⟩

end Sys2Proof.Machine

/-! Proofs about dispatch and stops: an enabled dispatch before main context (rules R225, R227, R228), line changes that collapse into one
pending flag (rule R230), and the stop of a machine with a record (rules R221, R222, R231). -/

namespace Sys2Proof.Machine

variable {s : State}

/-- A dispatch that is enabled after the environment's moves is the step (rules R215, R225). -/
theorem step_of_dispatch (hh : halted s = false) (hw : WholePace s) (hd : dispatchEnabled (othersMove s).1 = true) :
    step s = .next (takeInterrupt (othersMove s).1) := by
  rw [step_whole hh hw, agentTurn, if_pos hd]

theorem dispatchEnabled_iff : dispatchEnabled s = true ↔ s.ie = true ∧ s.ipend = true := by simp [dispatchEnabled]

/-- A dispatch writes POS, the edge history and IPEND, and leaves the inputs and the schedule too (rules R227, R228). -/
theorem takeInterrupt_frame (s : State) :
    takeInterrupt s = { s with ipend := false, pos := (takeInterrupt s).pos, la := (takeInterrupt s).la, lb := (takeInterrupt s).lb,
                               leq := (takeInterrupt s).leq } := by
  obtain ⟨la, lb, leq, pos, h, -⟩ := takeInterrupt_cases s
  rw [h]

/-- Settles O12: the dispatch is the step (`step_of_dispatch`), it is ENC.EDGE with IPEND cleared (`takeInterrupt_eq_edge`), and
`takeInterrupt_frame` says what it leaves. -/
theorem dispatchGoesFirst : Obligations.DispatchGoesFirst := by
  unfold Obligations.DispatchGoesFirst
  rintro s u hh hw rfl hie hip
  exact ⟨_, _, rfl, step_of_dispatch hh hw (dispatchEnabled_iff.2 ⟨hie, hip⟩), takeInterrupt_eq_edge _, takeInterrupt_frame _⟩

/-- No line change clears the pending flag (rule R223). -/
theorem setPins_ipend_of_pending (a b : Bool) (h : s.ipend = true) : (setPins a b s).ipend = true := by simp [pendingAfter, h]

/-- After any number of line changes the flag that was pending still is, and only the environment has moved (rules R213, R230). -/
theorem foldl_setPins_of_pending (ps : List (Bool × Bool)) (h : s.ipend = true) :
    EnvOnly s (ps.foldl (fun t x => setPins x.1 x.2 t) s) ∧ (ps.foldl (fun t x => setPins x.1 x.2 t) s).ipend = true := by
  induction ps generalizing s with
  | nil => exact ⟨.refl s, h⟩
  | cons x ps ih =>
    obtain ⟨henv, hip⟩ := ih (setPins_ipend_of_pending x.1 x.2 h)
    exact ⟨(setPins_envOnly x.1 x.2 s).trans henv, hip⟩

/-- Settles O48: the first change sets the flag and no other clears it (`foldl_setPins_of_pending`), so that the dispatch is the step
(`step_of_dispatch_at_word`) on the lines as they then are, and it leaves none enabled. -/
theorem pendingEdgesCollapse : Obligations.PendingEdgesCollapse := by
  unfold Obligations.PendingEdgesCollapse
  rintro s ps a b hh hw ⟨k, hk⟩ hie hchange
  have hset : (setPins a b s).ipend = true := pendingAfter_eq_true hchange
  obtain ⟨henv, hip⟩ := foldl_setPins_of_pending ps hset
  refine ⟨_, _, rfl, hip, rfl, ?_, Bool.and_false _⟩
  rw [← takeInterrupt_eq_edge]
  exact step_of_dispatch_at_word ((halted_congr henv.faults henv.refused).trans hh) ⟨henv.turns.trans hw.1, henv.place.trans hw.2⟩
    (henv.seq.trans hk) (dispatchEnabled_iff.2 ⟨henv.ie.trans hie, hip⟩)

/-- What a stopped machine answers is its step (rules R221, R222). -/
theorem step_of_stopped {x : Host.Outcome State Fault Refusal} (h : stopped s = some x) : step s = x := by rw [step, h]

theorem stopped_of_refused {r : Invalid} {p : Point} (h : s.refused = some (r, p)) : stopped s = some (.refused (refusalOf r)) := by
  rw [stopped, h]

theorem stopped_of_faulted {k : FaultKind} {p : Point} {rest : List (FaultKind × Point)} (hr : s.refused = none)
    (hf : s.faults = (k, p) :: rest) : stopped s = some (.fault k.fault) := by
  rw [stopped, hr, hf]

/-- Settles O13: the record stops the machine, a refusal first (`stopped_of_refused`, `stopped_of_faulted`). -/
theorem haltedMachineStops : Obligations.HaltedMachineStops := by
  unfold Obligations.HaltedMachineStops
  exact fun s => ⟨fun _ _ h => step_of_stopped (stopped_of_refused h), fun _ _ _ hr hf => step_of_stopped (stopped_of_faulted hr hf)⟩

end Sys2Proof.Machine

/-! Proofs about the way from power-on to the first poll: BOOT under any schedule, then the entry action of OFF (rules R251, R252). -/

namespace Sys2Proof.Machine

variable {s t : State}

/-- With interrupts masked the other agents' turn at main context's point is the environment's alone (rules R215, R225). -/
theorem othersMove_envOnly (h : s.ie = false) : EnvOnly s (othersMove s).1 := by
  have hpre : preempt s = (othersMove s).1 := by simp [preempt, preemptRan, dispatchEnabled, h]
  rw [← hpre]
  exact preempt_envOnly h

/-- An exhausted schedule is a quiet environment (rule R215). -/
theorem othersMove_of_sched_nil (h : s.sched = []) : othersMove s = (s, false) := by
  unfold othersMove
  split
  · rfl
  · rw [h]

/-- At BOOT with interrupts masked no dispatch goes before main context, whatever the environment does (rules R225, R251). -/
theorem step_boot_of_masked (hh : halted s = false) (hw : WholePace s) (hs : s.seq = .boot) (hie : s.ie = false) :
    step s = .next (bootPoint (othersMove s).1) := by
  have hd : dispatchEnabled (othersMove s).1 = false := by simp [dispatchEnabled, hie]
  obtain ⟨hboot, -⟩ := mainLoopStep s _ hh hw rfl hd
  exact hboot hs

/-- BOOT writes IE, SEQ and the pending flag alike in two states that only the environment has moved apart (log 25). -/
theorem EnvOnly.bootPoint (h : EnvOnly s t) : EnvOnly { s with ie := true, seq := .entry } (bootPoint t) :=
  { h with ie := rfl, seq := rfl }

/-- In OFF with a quiet environment and no dispatch enabled the entry point clears the rail and goes on to the poll (rules R176,
R185). -/
theorem step_entry_of_off (hh : halted s = false) (hw : WholePace s) (hsched : s.sched = []) (hd : dispatchEnabled s = false)
    (hs : s.seq = .entry) (hoff : s.state = .off) : step s = .next { setRail false s with seq := .poll } := by
  have hothers : (othersMove s).1 = s := by rw [othersMove_of_sched_nil hsched]
  obtain ⟨-, hentry, -⟩ := mainLoopStep s s hh hw hothers.symm hd
  obtain ⟨t, hexec, hstep⟩ := hentry hs
  have ht : t = setRail false s := by
    rw [← entry_of_off hoff]
    exact (Host.Outcome.next.inj hexec).symm
  rw [hstep, ht]

/-- Settles O54: BOOT under any schedule is `step_boot_of_masked`, where only the environment moves (`othersMove_envOnly`); under the
empty one the next step is the entry action of OFF (`step_entry_of_off`), at a rail that is off already. -/
theorem bootReachesPollInOff : Obligations.BootReachesPollInOff := by
  unfold Obligations.BootReachesPollInOff
  intro d p sched
  have hboot (l : List (List Move)) : step (State.launch d p l) = .next (bootPoint (othersMove (State.launch d p l)).1) :=
    step_boot_of_masked rfl ⟨rfl, rfl⟩ rfl rfl
  refine ⟨⟨_, hboot sched, rfl, (othersMove_envOnly rfl).bootPoint⟩, ⟨_, hboot [], ?_⟩⟩
  rw [othersMove_of_sched_nil rfl]
  exact step_entry_of_off rfl ⟨rfl, rfl⟩ rfl rfl rfl rfl

end Sys2Proof.Machine
